-- ==== Sys2Proof/Word.lean ====
section
/-! DEFINITION. The machine's words (spec/00_scope.md rules R5, R6, R10): a command word and a host word are 32 bits,
a byte of the output stream is 8. -/

namespace Sys2Proof

/-- A 32-bit word: a command word (CMD_W, 30_encoding R70), a host word (HOST_W, 20_memory R53). -/
abbrev Word := BitVec 32

/-- One byte handed to the sink (20_memory R57). -/
abbrev Byte := BitVec 8

end Sys2Proof
end

