-- ==== Sys2Proof/Syntax.lean ====
section
/-! DEFINITION. The eight commands (spec/00_scope.md rule R8, spec/30_encoding.md rules R70 to R80): one constructor of
`Instr` per row of spec/opcode_table.json. The operand types hold exactly the values the fields can hold, so every term
of `Instr` is a command; which WORDS are commands is Sys2Proof/WellFormed.lean. -/

namespace Sys2Proof

/-- The class of a table: `cls` = 0 is a DC table, 1 an AC table (30_encoding R71). -/
inductive Cls where
  | dc
  | ac
deriving DecidableEq, Repr

/-- Which standard spec LDSTD loads: `std` = 0 luminance, 1 chrominance (30_encoding R71). -/
inductive Std where
  | lum
  | chr
deriving DecidableEq, Repr

/-- A table index, DOC's "table index 0 or 1" (30_encoding R71, R74). -/
abbrev TableIdx := Fin 2

/-- A component number 0..3, which selects a DC predictor (30_encoding R74). -/
abbrev Comp := Fin 4

/-- The commands. -/
inductive Instr where
  /-- LDSTD: copy a standard spec into a slot (40_code_builder R102). -/
  | ldstd (cls : Cls) (idx : TableIdx) (std : Std)
  /-- BUILD: run CanonicalCodeBuilder on a slot (40_code_builder R103). -/
  | build (cls : Cls) (idx : TableIdx)
  /-- BLDLUT: run DecoderLookupBuilder on a slot (41_decoder_lookup R130). -/
  | bldlut (cls : Cls) (idx : TableIdx)
  /-- PUTBITS: DOC's `put_bits(code: u16, length: u8)` (42_bit_packer R152). -/
  | putbits (code : BitVec 16) (length : BitVec 8)
  /-- FLUSH: DOC's `flush()` (42_bit_packer R153). -/
  | flush
  /-- PKRST: the packer's explicit reset (42_bit_packer R154). -/
  | pkrst
  /-- ENCBLK: encode the block in COEF (43_block_encoder R180). -/
  | encblk (comp : Comp) (dcidx acidx : TableIdx)
  /-- SCANRST: reset the selected predictors (43_block_encoder R187). -/
  | scanrst (mask : BitVec 4)
deriving DecidableEq, Repr

/-- The pseudo-instruction `ENCBLK <comp>, <t>`, DOC's "table pair" (30_encoding R80). -/
abbrev Instr.encblkPair (comp : Comp) (t : TableIdx) : Instr := .encblk comp t t

/-- The pseudo-instruction `SCANRST` with no operand (30_encoding R80). -/
abbrev Instr.scanrstAll : Instr := .scanrst 0xF

end Sys2Proof
end

