-- ==== Sys2Proof/WellFormed.lean ====
section
/-! DEFINITION. Which command words are legal (spec/30_encoding.md rules R76 and R77): the opcode map as rows of mnemonic,
match and mask. A word is a command exactly when it matches a row, and is illegal otherwise. -/

namespace Sys2Proof

/-- A row of the opcode map: `w` is the command exactly when `(w & mask) = value` (30_encoding R76). -/
structure OpcodeRow where
  mnemonic : String
  value : Word
  mask : Word
deriving DecidableEq, Repr

/-- The word matches the row: its fixed bits, the reserved ones among them, are the row's (30_encoding R76). -/
def OpcodeRow.matches (r : OpcodeRow) (w : Word) : Bool := w &&& r.mask = r.value

/-- The opcode map, complete (30_encoding R76). -/
def opcodeRows : List OpcodeRow :=
  [ ⟨"LDSTD",   0x10000000, 0xF1FFFFFF⟩,
    ⟨"BUILD",   0x20000000, 0xF3FFFFFF⟩,
    ⟨"BLDLUT",  0x30000000, 0xF3FFFFFF⟩,
    ⟨"PUTBITS", 0x40000000, 0xFF000000⟩,
    ⟨"FLUSH",   0x50000000, 0xFFFFFFFF⟩,
    ⟨"PKRST",   0x60000000, 0xFFFFFFFF⟩,
    ⟨"ENCBLK",  0x70000000, 0xF0FFFFFF⟩,
    ⟨"SCANRST", 0x80000000, 0xF0FFFFFF⟩ ]

/-- The word is a command: it matches a row of the opcode map (30_encoding R76, R77). -/
def wellFormedWord (w : Word) : Bool := opcodeRows.any fun r => r.matches w

/-- The mnemonic of an instruction's row. -/
def Instr.mnemonic : Instr → String
  | .ldstd _ _ _ => "LDSTD"
  | .build _ _ => "BUILD"
  | .bldlut _ _ => "BLDLUT"
  | .putbits _ _ => "PUTBITS"
  | .flush => "FLUSH"
  | .pkrst => "PKRST"
  | .encblk _ _ _ => "ENCBLK"
  | .scanrst _ => "SCANRST"

end Sys2Proof
end

