-- ==== Sys2Proof/Decode.lean ====
section
/-! DEFINITION. Decoding and encoding command words (spec/30_encoding.md rules R70 to R79). Decoding is total and answers
an instruction or the reason the word is illegal; every illegal word raises IllegalCommand (rule R77). -/

namespace Sys2Proof

/-- Why a word is no command (30_encoding R77): its opcode is 0 or 9..15, or a reserved bit of its format is set. -/
inductive Illegal where
  | unknownOpcode (opc : BitVec 4)
  | reservedBitSet (opc : BitVec 4)
deriving DecidableEq, Repr

/-- Bit 27, `cls`: 0 = DC, 1 = AC (30_encoding R71). -/
def clsField (w : Word) : Cls := if w.getLsbD 27 then .ac else .dc

/-- A one-bit table index field at bit `n` (30_encoding R71, R74). -/
def idxField (w : Word) (n : Nat) : TableIdx := if w.getLsbD n then 1 else 0

/-- Bit 25, `std`: 0 = luminance, 1 = chrominance (30_encoding R71). -/
def stdField (w : Word) : Std := if w.getLsbD 25 then .chr else .lum

/-- Bits 27:26, `comp` (30_encoding R74). -/
def compField (w : Word) : Comp := Fin.ofNat 4 (w.extractLsb' 26 2).toNat

/-- The command, once its opcode is known, if none of the format's reserved bits is set. -/
def withoutReserved (w reserved : Word) (i : Instr) : Except Illegal Instr :=
  if w &&& reserved = 0 then .ok i else .error (.reservedBitSet (w.extractLsb' 28 4))

/-- Decode a command word: formats T, P, Z, E, M and the opcode map (30_encoding R71 to R77). -/
def decode (w : Word) : Except Illegal Instr :=
  match (w.extractLsb' 28 4).toNat with
  | 1 => withoutReserved w 0x01FFFFFF (.ldstd (clsField w) (idxField w 26) (stdField w))
  | 2 => withoutReserved w 0x03FFFFFF (.build (clsField w) (idxField w 26))
  | 3 => withoutReserved w 0x03FFFFFF (.bldlut (clsField w) (idxField w 26))
  | 4 => withoutReserved w 0x0F000000 (.putbits (w.extractLsb' 0 16) (w.extractLsb' 16 8))
  | 5 => withoutReserved w 0x0FFFFFFF .flush
  | 6 => withoutReserved w 0x0FFFFFFF .pkrst
  | 7 => withoutReserved w 0x00FFFFFF (.encblk (compField w) (idxField w 25) (idxField w 24))
  | 8 => withoutReserved w 0x00FFFFFF (.scanrst (w.extractLsb' 24 4))
  | _ => .error (.unknownOpcode (w.extractLsb' 28 4))

/-- `cls` as a field value (30_encoding R71). -/
def Cls.num : Cls → Nat
  | .dc => 0
  | .ac => 1

/-- `std` as a field value (30_encoding R71). -/
def Std.num : Std → Nat
  | .lum => 0
  | .chr => 1

/-- Bits 27:0 of format T (30_encoding R71). -/
def fieldsT (cls : Cls) (idx : TableIdx) (std : Nat) : BitVec 28 :=
  BitVec.ofNat 1 cls.num ++ BitVec.ofNat 1 idx.val ++ BitVec.ofNat 1 std ++ 0#25

/-- The word of an instruction, its opcode and fields side by side, reserved bits 0 (30_encoding R71 to R75, R79). -/
def encode : Instr → Word
  | .ldstd cls idx std => 1#4 ++ fieldsT cls idx std.num
  | .build cls idx => 2#4 ++ fieldsT cls idx 0
  | .bldlut cls idx => 3#4 ++ fieldsT cls idx 0
  | .putbits code length => 4#4 ++ 0#4 ++ length ++ code
  | .flush => 5#4 ++ 0#28
  | .pkrst => 6#4 ++ 0#28
  | .encblk comp dcidx acidx =>
    7#4 ++ BitVec.ofNat 2 comp.val ++ BitVec.ofNat 1 dcidx.val ++ BitVec.ofNat 1 acidx.val ++ 0#24
  | .scanrst mask => 8#4 ++ mask ++ 0#24

/-- The command word of a row of spec/opcode_table.json: `nbits` bits given, every bit above them 0. A command is one
whole 32-bit word with no byte order (30_encoding R70, 20_memory R52), so the table's bit numbers are the word's. -/
def tableWord (nbits w : Nat) : Word := BitVec.ofNat 32 (w % 2 ^ nbits)

/-- The instruction the decoder reads from such a word. -/
def decodeTableWord (nbits w : Nat) : Option Instr :=
  match decode (tableWord nbits w) with
  | .ok i => some i
  | .error _ => none

end Sys2Proof
end

