-- ==== Sys2Proof/Machine/State.lean ====
section
/-! DEFINITION. The state of the core (spec/10_state.md rule R20, complete), the sink's and the host's side of the
interface as plain data, the reasons a step can stop, and the state after hardware reset (rule R41). -/

namespace Sys2Proof.Machine

/-- A slot number, `2*cls + idx` (30_encoding R78): 0 DC index 0, 1 DC index 1, 2 AC index 0, 3 AC index 1. -/
abbrev SlotId := Fin 4

/-- One address space of elements of width `w` (20_memory R50): the (index, value) pairs that hold a specified value,
indices strictly rising. An index the list does not name holds an unspecified value (10_state R41; Log 2, Log 14). -/
abbrev Store (w : Nat) := List (Nat × BitVec w)

/-- `pk_mode` (10_state R33). -/
inductive PkMode where
  | active
  | flushed
  | failed
deriving DecidableEq, Repr

/-- One table slot: `SPEC[s]`, `TBL[s]`, `LUT[s]` and their flags (10_state R20, R23, R25, R27, R34, R35). -/
structure Slot where
  /-- `SPEC[s].BITS[i]`, i = 0..15, u8. -/
  bits : Store 8
  /-- `SPEC[s].NVAL`, u16: a store of the one index 0. -/
  nval : Store 16
  /-- `SPEC[s].VAL[k]`, k = 0..255, u16. -/
  val : Store 16
  /-- `TBL[s].CODE[k]`, k = 0..255, u16. -/
  code : Store 16
  /-- `TBL[s].LEN[k]`, k = 0..255, u8. -/
  len : Store 8
  /-- `LUT[s].MIN[L]`, L = 1..16, i32. -/
  lutMin : Store 32
  /-- `LUT[s].MAX[L]`, L = 1..16, i32. -/
  lutMax : Store 32
  /-- `LUT[s].PTR[L]`, L = 1..16, i32. -/
  lutPtr : Store 32
  /-- `built[s]`: `TBL[s]` is the table of the spec now in `SPEC[s]`. -/
  built : Bool
  /-- `lutv[s]`: `LUT[s]` is the lookup of the table now in `TBL[s]`. -/
  lutv : Bool
deriving DecidableEq, Repr

/-- What the host can do to the core, one action at a time (00_scope R8; 20_memory R55, R63; 70_reset R260, R273). -/
inductive HostAction where
  /-- Hand over a command word. -/
  | command (w : Word)
  /-- Write a host word to a word address of the map (20_memory R51, R53). -/
  | write (addr : Nat) (data : Word)
  /-- Read the word at a word address of the map (20_memory R51, R53). -/
  | read (addr : Nat)
  /-- Hardware reset between two commands (70_reset R260). -/
  | reset
  /-- Hardware reset in the middle of the command `w`, after the sink has taken `taken` of its bytes (70_reset R260; U18). -/
  | resetDuring (w : Word) (taken : Nat)
deriving DecidableEq, Repr

/-- The machine. -/
structure State where
  /-- The four table slots, by slot number. -/
  slots : Vector Slot 4
  /-- `COEF[i]`, i = 0..63, i16 (10_state R28). -/
  coef : Store 16
  /-- `dc_pred[c]`, c = 0..3, i32 (10_state R30). -/
  dcPred : Vector Word 4
  /-- `pk_reg`, u32, buffered bits left-justified (10_state R31). -/
  pkReg : Word
  /-- `pk_cnt`, u8, the number of buffered bits (10_state R32). -/
  pkCnt : BitVec 8
  /-- `pk_mode` (10_state R33). -/
  pkMode : PkMode
  /-- LASTERR (10_state R37). -/
  lasterr : Word
  /-- ERRSTAT (10_state R38). -/
  errstat : Word
  /-- The output stream: every byte the sink has accepted, in order; the sink's, not the core's (20_memory R57). Log 6. -/
  stream : List Byte
  /-- The model's field: the sink's answers to the writes still to come, `true` for accepted; a write for which the list
  holds no answer is accepted (20_memory R57 "a free input of the step"). Log 5. -/
  sinkAnswers : List Bool
  /-- The model's field: the host's actions still to come, oldest first (70_reset R273). Log 1. -/
  host : List HostAction
  /-- The model's field: the word the host port last gave the host on a read (20_memory R53). Log 13. -/
  hostData : Word
  /-- The model's field: the draw number of the next free value (`Config.unspecified`). Log 16. -/
  draws : Nat
deriving DecidableEq, Repr

/-- Why the machine stops with a fault: never. The spec's faults are ways for a COMMAND to end, recorded in LASTERR and
ERRSTAT, after which the core is ready for the next command (60_exceptions R230, R231); they are next states. -/
inductive Fault where
deriving DecidableEq, Repr

/-- Why a step has no meaning. -/
inductive Refusal where
  /-- Raised by an arm of `exec` whose instruction has no meaning yet; safe: it stops where the hardware goes on. -/
  | notModelled (mnemonic : String)
  /-- Raised by the host port on a host read or write of an address the map does not name (20_memory R56, U8: "a model
  should refuse it rather than pick a result"); safe: it stops where a platform may go on. Log 12. -/
  | unmappedAddress (addr : Nat)
deriving DecidableEq, Repr

/-- A slot after hardware reset: its stores unspecified, its flags 0 (10_state R41). -/
def Slot.reset : Slot where
  bits := []
  nval := []
  val := []
  code := []
  len := []
  lutMin := []
  lutMax := []
  lutPtr := []
  built := false
  lutv := false

/-- The state after hardware reset, at the start of a run (10_state R41; 70_reset R260): nothing in the stores is
specified, every register is 0 and the packer empty and ACTIVE, the output stream is empty. The model's own fields
(`sinkAnswers`, `host`, `hostData`, `draws`) take the values of Log 1, 5, 13 and 16. -/
def State.reset : State where
  slots := #v[Slot.reset, Slot.reset, Slot.reset, Slot.reset]
  coef := []
  dcPred := #v[0, 0, 0, 0]
  pkReg := 0
  pkCnt := 0
  pkMode := .active
  lasterr := 0
  errstat := 0
  stream := []
  sinkAnswers := []
  host := []
  hostData := 0
  draws := 0

end Sys2Proof.Machine
end

