-- ==== Sys2Proof/Machine/Ops.lean ====
section
/-! DEFINITION. The named operations over the stores and registers: reading and writing elements (spec/20_memory.md rules
R50 to R56), the address of an element (rule R51), the fault causes (spec/60_exceptions.md rule R221), and how a command
ends, OK or with a cause recorded (rule R230). -/

namespace Sys2Proof.Machine

/-! ## Stores -/

/-- The specified value at an index, if the store holds one. -/
def Store.find? {w : Nat} : Store w → Nat → Option (BitVec w)
  | [], _ => none
  | (k, v) :: rest, i => if k = i then some v else Store.find? rest i

/-- Write one element (20_memory R54: exactly one whole element), keeping the indices rising. -/
def Store.put {w : Nat} : Store w → Nat → BitVec w → Store w
  | [], i, v => [(i, v)]
  | (k, u) :: rest, i, v =>
    if i < k then (i, v) :: (k, u) :: rest
    else if i = k then (i, v) :: rest
    else (k, u) :: Store.put rest i v

/-- The store that holds the given values at `base`, `base + 1`, ... and nothing else. -/
def Store.block {w : Nat} (base : Nat) : List (BitVec w) → Store w
  | [] => []
  | v :: vs => (base, v) :: Store.block (base + 1) vs

/-- The canonical form of a store over the indices `lo` to `hi - 1`: strictly rising indices in that range. -/
def Store.wf {w : Nat} (lo hi : Nat) : Store w → Bool
  | [] => true
  | (k, _) :: rest => decide (lo ≤ k) && decide (k < hi) && Store.wf (k + 1) hi rest

/-- The value an element shows: the one it holds, or, where it holds none, the free word cut to the element's width
(93_implementation_defined U3, U7). -/
def Store.read {w : Nat} (st : Store w) (i : Nat) (free : Word) : BitVec w :=
  (Store.find? st i).getD (free.setWidth w)

/-- A list of values as a store of `Config.maxSyms` entries, 0 at and past the list's end (40_code_builder R102, R103). -/
def Store.padded {w : Nat} (vs : List (BitVec w)) : Store w :=
  Store.block 0 (vs ++ List.replicate (Config.maxSyms - vs.length) 0)

/-! ## Elements and their host word addresses -/

/-- One host-visible element (20_memory R50). -/
inductive Element where
  | csr (n : Nat)
  | coef (i : Nat)
  | zigzag (k : Nat)
  | bits (s : SlotId) (i : Nat)
  | nval (s : SlotId)
  | lutMin (s : SlotId) (L : Nat)
  | lutMax (s : SlotId) (L : Nat)
  | lutPtr (s : SlotId) (L : Nat)
  | val (s : SlotId) (k : Nat)
  | code (s : SlotId) (k : Nat)
  | len (s : SlotId) (k : Nat)
deriving DecidableEq, Repr

/-- The slot base `B(s)` (20_memory R51). -/
def slotBase (s : SlotId) : Nat := 0x1000 + 0x400 * s.val

/-- The word address of an element (20_memory R51). -/
def Element.addr : Element → Nat
  | .csr n => n
  | .coef i => 0x0040 + i
  | .zigzag k => 0x0080 + k
  | .bits s i => slotBase s + i
  | .nval s => slotBase s + 0x010
  | .lutMin s L => slotBase s + 0x020 + (L - 1)
  | .lutMax s L => slotBase s + 0x030 + (L - 1)
  | .lutPtr s L => slotBase s + 0x040 + (L - 1)
  | .val s k => slotBase s + 0x100 + k
  | .code s k => slotBase s + 0x200 + k
  | .len s k => slotBase s + 0x300 + k

/-! ## Slots and element reads by name -/

/-- The slot of a number. -/
def State.slot (s : State) (n : SlotId) : Slot := s.slots[n.val]

/-- Replace a slot. -/
def State.setSlot (s : State) (n : SlotId) (x : Slot) : State := { s with slots := s.slots.set n.val x }

/-- The free word of an element at this command or host action (`Config.unspecified`). -/
def State.free (s : State) (e : Element) : Word := Config.unspecified s.draws e.addr

/-- `SPEC[n].BITS[i]`. -/
def State.bitsAt (s : State) (n : SlotId) (i : Nat) : BitVec 8 := Store.read (s.slot n).bits i (s.free (.bits n i))

/-- `SPEC[n].NVAL`. -/
def State.nvalAt (s : State) (n : SlotId) : BitVec 16 := Store.read (s.slot n).nval 0 (s.free (.nval n))

/-- `SPEC[n].VAL[k]`. -/
def State.valAt (s : State) (n : SlotId) (k : Nat) : BitVec 16 := Store.read (s.slot n).val k (s.free (.val n k))

/-- `TBL[n].CODE[k]`. -/
def State.codeAt (s : State) (n : SlotId) (k : Nat) : BitVec 16 := Store.read (s.slot n).code k (s.free (.code n k))

/-- `TBL[n].LEN[k]`. -/
def State.lenAt (s : State) (n : SlotId) (k : Nat) : BitVec 8 := Store.read (s.slot n).len k (s.free (.len n k))

/-- `LUT[n].MIN[L]`. -/
def State.lutMinAt (s : State) (n : SlotId) (L : Nat) : Word := Store.read (s.slot n).lutMin L (s.free (.lutMin n L))

/-- `LUT[n].MAX[L]`. -/
def State.lutMaxAt (s : State) (n : SlotId) (L : Nat) : Word := Store.read (s.slot n).lutMax L (s.free (.lutMax n L))

/-- `LUT[n].PTR[L]`. -/
def State.lutPtrAt (s : State) (n : SlotId) (L : Nat) : Word := Store.read (s.slot n).lutPtr L (s.free (.lutPtr n L))

/-- `COEF[i]` (10_state R28). -/
def State.coefAt (s : State) (i : Nat) : BitVec 16 := Store.read s.coef i (s.free (.coef i))

/-- `ZIGZAG[k]` (10_state R29). -/
def zigzagAt (k : Nat) : Nat := Config.zigzag.getD k 0

/-- `dc_pred[c]` (10_state R30). -/
def State.pred (s : State) (c : Comp) : Word := s.dcPred[c.val]

/-- Write `dc_pred[c]`. -/
def State.setPred (s : State) (c : Comp) (v : Word) : State := { s with dcPred := s.dcPred.set c.val v }

/-! ## Fault causes -/

/-- The code of a packer mode in STATUS and in PackerClosed's info (10_state R36, 60_exceptions R221). -/
def PkMode.num : PkMode → Nat
  | .active => 0
  | .flushed => 1
  | .failed => 2

/-- What is wrong with a HuffmanSpec (40_code_builder R106, 60_exceptions R222). -/
inductive SpecDefect where
  /-- Sub-cause 1, V1: the counts do not sum to NVAL. -/
  | countMismatch
  /-- Sub-cause 2, V2: the codes of length `L` do not fit. -/
  | codesDoNotFit (L : Nat)
  /-- Sub-cause 3, V3: NVAL is above 256. -/
  | tooManyValues
  /-- Sub-cause 4, V4: `VAL[k]` is above 255. -/
  | symbolTooLarge (k : Nat)
  /-- Sub-cause 5, V5: `VAL[k]` repeats an earlier value. -/
  | symbolRepeated (k : Nat)
deriving DecidableEq, Repr

/-- The sub-cause number (60_exceptions R222). -/
def SpecDefect.sub : SpecDefect → Nat
  | .countMismatch => 1
  | .codesDoNotFit _ => 2
  | .tooManyValues => 3
  | .symbolTooLarge _ => 4
  | .symbolRepeated _ => 5

/-- The detail: the length, the position, or 0 (60_exceptions R222). -/
def SpecDefect.detail : SpecDefect → Nat
  | .countMismatch => 0
  | .codesDoNotFit L => L
  | .tooManyValues => 0
  | .symbolTooLarge k => k
  | .symbolRepeated k => k

/-- The causes a command can end with (60_exceptions R221). -/
inductive Cause where
  | invalidSpec (d : SpecDefect)
  | invalidCodeLength (length : BitVec 8)
  | outputFailure
  | illegalCommand (w : Word)
  | packerClosed (mode : PkMode)
  | tableNotBuilt (slot : SlotId)
  | symbolNotInTable (slot : SlotId) (sym : Nat)
  | coefRange (k : Nat)
deriving DecidableEq, Repr

/-- The cause code (60_exceptions R221). -/
def Cause.code : Cause → Nat
  | .invalidSpec _ => 1
  | .invalidCodeLength _ => 2
  | .outputFailure => 3
  | .illegalCommand _ => 4
  | .packerClosed _ => 5
  | .tableNotBuilt _ => 6
  | .symbolNotInTable _ _ => 7
  | .coefRange _ => 8

/-- The 24 bits of info (60_exceptions R221). -/
def Cause.info : Cause → BitVec 24
  | .invalidSpec d => BitVec.ofNat 16 d.detail ++ BitVec.ofNat 8 d.sub
  | .invalidCodeLength length => length.setWidth 24
  | .outputFailure => 0
  | .illegalCommand w => w.extractLsb' 8 24
  | .packerClosed mode => BitVec.ofNat 24 mode.num
  | .tableNotBuilt slot => BitVec.ofNat 24 slot.val
  | .symbolNotInTable slot sym => BitVec.ofNat 16 slot.val ++ BitVec.ofNat 8 sym
  | .coefRange k => BitVec.ofNat 24 k

/-! ## How a command ends -/

/-- A command at its end, or a part of one: it ran, or it raised a cause; either way with the state it left
(00_scope R9). -/
inductive Ended where
  | ok (s : State)
  | raised (c : Cause) (s : State)
deriving Repr

/-- Go on where the part before ran; a raise ends the command (00_scope R9, R11). -/
def Ended.andThen (e : Ended) (f : State → Ended) : Ended :=
  match e with
  | .ok s => f s
  | .raised c s => .raised c s

/-- Taking a fault: LASTERR becomes the code and the info, the cause's ERRSTAT bit is set, and control goes nowhere
(60_exceptions R230). There is no return from one (R231). -/
def State.takeFault (s : State) (c : Cause) : State :=
  { s with
    lasterr := c.info ++ BitVec.ofNat 8 c.code
    errstat := s.errstat ||| (1#32 <<< c.code)
    draws := s.draws + 1 }

/-- A command that ends OK clears LASTERR and leaves ERRSTAT (60_exceptions R230). -/
def State.endOk (s : State) : State := { s with lasterr := 0, draws := s.draws + 1 }

/-- The state after the command (60_exceptions R230). -/
def Ended.close : Ended → State
  | .ok s => s.endOk
  | .raised c s => s.takeFault c

/-- Every command ends, OK or with a cause, and the machine goes on (00_scope R9). -/
def finish (e : Ended) : Host.Outcome State Fault Refusal := .next e.close

end Sys2Proof.Machine
end

