-- ==== Sys2Proof/Machine/Flags.lean ====
section
/-! DEFINITION. The flags of the core, all of them (spec/10_state.md rules R33 to R35): setting and clearing `built` and
`lutv`, closing the packer, and the STATUS word that shows them (rule R36). The core has no arithmetic flags (rule R35). -/

namespace Sys2Proof.Machine

/-- Clear `built[n]` and `lutv[n]` (10_state R34, R35). -/
def State.unbuild (s : State) (n : SlotId) : State :=
  s.setSlot n { s.slot n with built := false, lutv := false }

/-- Set `built[n]` (10_state R34). -/
def State.setBuilt (s : State) (n : SlotId) : State := s.setSlot n { s.slot n with built := true }

/-- Set `lutv[n]` (10_state R35). -/
def State.setLutv (s : State) (n : SlotId) : State := s.setSlot n { s.slot n with lutv := true }

/-- The packer fails: `pk_mode` becomes FAILED, `pk_reg` and `pk_cnt` become unspecified (10_state R33, 42_bit_packer R156,
43_block_encoder R185; U6). Log 4. -/
def State.failPacker (s : State) : State :=
  { s with pkMode := .failed, pkReg := s.free (.csr 3), pkCnt := (s.free (.csr 4)).setWidth 8 }

/-- A packer empty and ACTIVE (42_bit_packer R154). -/
def State.resetPacker (s : State) : State := { s with pkReg := 0, pkCnt := 0, pkMode := .active }

/-- The four flags of the slots as bits, slot 0 lowest (10_state R36). -/
def State.slotFlags (s : State) (f : Slot → Bool) : BitVec 4 :=
  BitVec.ofBool (f (s.slot 3)) ++ BitVec.ofBool (f (s.slot 2)) ++ BitVec.ofBool (f (s.slot 1)) ++
    BitVec.ofBool (f (s.slot 0))

/-- STATUS: PK_MODE in bits 1:0, BUILT in 7:4, LUTV in 11:8, the rest 0 (10_state R36). -/
def State.status (s : State) : Word :=
  0#20 ++ s.slotFlags Slot.lutv ++ s.slotFlags Slot.built ++ 0#2 ++ BitVec.ofNat 2 s.pkMode.num

end Sys2Proof.Machine
end

