-- ==== Sys2Proof/Machine/Operands.lean ====
section
/-! DEFINITION. Operand forms: the slot a (class, index) pair names (spec/30_encoding.md rule R78), the category and
magnitude bits of a value (rules R84, R85), and the AC symbol (rule R82). -/

namespace Sys2Proof.Machine

/-- `slot(cls, idx) = 2*cls + idx` (30_encoding R78). -/
def slotOf : Cls → TableIdx → SlotId
  | .dc, idx => ⟨idx.val, by omega⟩
  | .ac, idx => ⟨2 + idx.val, by omega⟩

/-- `cat(v)`: the number of bits needed to represent |v|, 0 for 0 (30_encoding R84). -/
def cat (v : Int) : Nat := if v = 0 then 0 else Nat.log2 v.natAbs + 1

/-- `magbits(v, c)`: v's low c bits when v > 0, v - 1's low c bits in two's complement when v < 0 (30_encoding R85). -/
def magbits (v : Int) (c : Nat) : Nat :=
  if 0 < v then (v % 2 ^ c).toNat else ((v - 1) % 2 ^ c).toNat

/-- The AC symbol `(zero_run << 4) | category` (30_encoding R82). -/
def acSymbol (run c : Nat) : Nat := run <<< 4 ||| c

/-- The AC symbol ZRL, sixteen zeros (30_encoding R82). -/
def zrlSymbol : Nat := 0xF0

/-- The AC symbol end-of-block (30_encoding R82). -/
def eobSymbol : Nat := 0x00

end Sys2Proof.Machine
end

