-- ==== Sys2Proof/Machine/Builder.lean ====
section
/-! DEFINITION. StandardTableSet and CanonicalCodeBuilder: LDSTD and BUILD (spec/40_code_builder.md). -/

namespace Sys2Proof.Machine

/-- The body of LDSTD: the standard spec into `SPEC[n]`, VAL 0 past its end, the flags cleared (40_code_builder R102). -/
def loadSpec (s : State) (n : SlotId) (spec : HuffmanSpec) : State :=
  (s.setSlot n { s.slot n with
    bits := Store.block 0 spec.counts
    nval := Store.block 0 [BitVec.ofNat 16 spec.values.length]
    val := Store.padded spec.values }).unbuild n

/-- LDSTD cls, idx, std (40_code_builder R102). -/
def execLdstd (cls : Cls) (idx : TableIdx) (std : Std) (s : State) : Host.Outcome State Fault Refusal :=
  finish (.ok (loadSpec s (slotOf cls idx) (Config.std cls std)))

/-- Pass 1 from length `L` on: each length as often as its count says, then the sentinel 0 (40_code_builder R104). -/
def pass1From (L : Nat) : List Nat → List Nat
  | [] => [0]
  | c :: counts => List.replicate c L ++ pass1From (L + 1) counts

/-- Pass 1, the length list (40_code_builder R104). -/
def pass1 (counts : List Nat) : List Nat := pass1From 1 counts

/-- Pass 2 from a position on, the running code and the current length given: a symbol of the current length takes the
running code; where a run ends, the code must not exceed 2^si, else the answer is the failing length; then the code is
shifted once per length step up to the next length used (40_code_builder R105). -/
def pass2From (code si : Nat) : List Nat → Except Nat (List Nat)
  | [] => .ok []
  | L :: size =>
    if L = si then (pass2From (code + 1) si size).map (code :: ·)
    else if code > 2 ^ si then .error si
    else if L = 0 then .ok []
    else (pass2From ((code <<< (L - si)) + 1) L size).map ((code <<< (L - si)) :: ·)

/-- Pass 2, the codes; the first symbol's length starts the walk, and an empty list has no codes (40_code_builder R105). -/
def pass2 : List Nat → Except Nat (List Nat)
  | [] => .ok []
  | L :: size => if L = 0 then .ok [] else pass2From 0 L (L :: size)

/-- The smallest position from `k` on whose value is above 255 (40_code_builder R106 V4). -/
def firstAbove (k : Nat) : List Nat → Option Nat
  | [] => none
  | v :: vs => if v > 255 then some k else firstAbove (k + 1) vs

/-- The smallest position from `k` on whose value repeats an earlier one, the earlier values given (40_code_builder R106 V5). -/
def firstRepeat (k : Nat) (seen : List Nat) : List Nat → Option Nat
  | [] => none
  | v :: vs => if seen.contains v then some k else firstRepeat (k + 1) (v :: seen) vs

/-- A CodeEntry table, by position: the code lengths and the codes (10_state R25). -/
structure CodeTable where
  lens : List Nat
  codes : List Nat
deriving DecidableEq, Repr

/-- CanonicalCodeBuilder, a function of the spec alone (40_code_builder R110), with its checks in the order V3, V1, V2, V4,
V5 (R103, R106; 60_exceptions R232). -/
def buildTable (n : Nat) (counts vals : List Nat) : Except SpecDefect CodeTable :=
  if n > Config.maxSyms then .error .tooManyValues
  else if counts.sum ≠ n then .error .countMismatch
  else
    match pass2 (pass1 counts) with
    | .error L => .error (.codesDoNotFit L)
    | .ok codes =>
      match firstAbove 0 vals with
      | some k => .error (.symbolTooLarge k)
      | none =>
        match firstRepeat 0 [] vals with
        | some k => .error (.symbolRepeated k)
        | none => .ok ⟨(pass1 counts).take n, codes⟩

/-- `SPEC[n].BITS[0..15]` as counts. -/
def State.counts (s : State) (n : SlotId) : List Nat := (List.range Config.maxLen).map fun i => (s.bitsAt n i).toNat

/-- `SPEC[n].VAL[0..m-1]` as symbol values. -/
def State.symbols (s : State) (n : SlotId) (m : Nat) : List Nat := (List.range m).map fun k => (s.valAt n k).toNat

/-- Write `TBL[n]`, 0 at and past NVAL (40_code_builder R103). -/
def State.putTable (s : State) (n : SlotId) (t : CodeTable) : State :=
  s.setSlot n { s.slot n with
    code := Store.padded (t.codes.map (BitVec.ofNat 16))
    len := Store.padded (t.lens.map (BitVec.ofNat 8)) }

/-- A BUILD that faults leaves the contents of `TBL[n]` unspecified (40_code_builder R103; U3). Log 3. -/
def State.forgetTable (s : State) (n : SlotId) : State := s.setSlot n { s.slot n with code := [], len := [] }

/-- The body of BUILD: clear the flags, build the table from the spec, write it and set `built` (40_code_builder R103). -/
def buildSlot (s : State) (n : SlotId) : Ended :=
  let m := (s.nvalAt n).toNat
  match buildTable m (s.counts n) (s.symbols n m) with
  | .error d => .raised (.invalidSpec d) ((s.unbuild n).forgetTable n)
  | .ok t => .ok (((s.unbuild n).putTable n t).setBuilt n)

/-- BUILD cls, idx (40_code_builder R103). -/
def execBuild (cls : Cls) (idx : TableIdx) (s : State) : Host.Outcome State Fault Refusal :=
  finish (buildSlot s (slotOf cls idx))

end Sys2Proof.Machine
end

