-- ==== Sys2Proof/Machine/Packer.lean ====
section
/-! DEFINITION. BitPacker: the sink write, byte stuffing, `put_bits`, and the commands PUTBITS, FLUSH and PKRST
(spec/42_bit_packer.md; spec/20_memory.md rule R57). -/

namespace Sys2Proof.Machine

/-- `SinkWrite(b)`: the sink takes the byte, which is appended to the output stream, or fails; then nothing is appended,
the packer fails and OutputFailure is raised (20_memory R57, 42_bit_packer R156). The answer is the next of
`sinkAnswers`. -/
def sinkWrite (b : Byte) (s : State) : Ended :=
  match s.sinkAnswers with
  | false :: rest => .raised .outputFailure { s with sinkAnswers := rest }.failPacker
  | answers => .ok { s with sinkAnswers := answers.tail, stream := s.stream ++ [b] }

/-- `emit_byte(b)`: one finished byte, and 0x00 after 0xFF (42_bit_packer R150). -/
def emitByte (b : Byte) (s : State) : Ended :=
  (sinkWrite b s).andThen fun s => if b = 0xFF then sinkWrite 0x00 s else .ok s

/-- The byte at the top of the packer register, `pk_reg[31:24]`. -/
def State.topByte (s : State) : Byte := s.pkReg.extractLsb' 24 8

/-- The loop of `put_bits` that emits whole bytes, for the given number of them (42_bit_packer R151). -/
def drain : Nat → State → Ended
  | 0, s => .ok s
  | n + 1, s => (emitByte s.topByte { s with pkReg := s.pkReg <<< 8, pkCnt := s.pkCnt - 8 }).andThen (drain n)

/-- `put_bits(code, length)`: mask, merge right below the buffered bits, emit floor((pk_cnt + length) / 8) whole bytes
(42_bit_packer R151). -/
def putBits (code : BitVec 16) (length : Nat) (s : State) : Ended :=
  if length = 0 then .ok s
  else
    let cnt := s.pkCnt.toNat + length
    let m := BitVec.ofNat 32 (code.toNat &&& (2 ^ length - 1))
    drain (cnt / 8) { s with pkReg := s.pkReg ||| (m <<< (32 - cnt)), pkCnt := BitVec.ofNat 8 cnt }

/-- The admission check shared by PUTBITS, FLUSH and ENCBLK: anything but ACTIVE raises PackerClosed (10_state R33,
60_exceptions R226). -/
def whenActive (s : State) (body : Ended) : Ended :=
  if s.pkMode = .active then body else .raised (.packerClosed s.pkMode) s

/-- PUTBITS as a command part: PackerClosed first, then InvalidCodeLength (42_bit_packer R152, 60_exceptions R232). -/
def putbitsCommand (code : BitVec 16) (length : BitVec 8) (s : State) : Ended :=
  whenActive s <|
    if length.toNat > Config.putMax then .raised (.invalidCodeLength length) s else putBits code length.toNat s

/-- PUTBITS code, length (42_bit_packer R152). -/
def execPutbits (code : BitVec 16) (length : BitVec 8) (s : State) : Host.Outcome State Fault Refusal :=
  finish (putbitsCommand code length s)

/-- The end of a FLUSH that went well: the register empty, the packer FLUSHED (42_bit_packer R153). -/
def State.closePacker (s : State) : State := { s with pkReg := 0, pkCnt := 0, pkMode := .flushed }

/-- FLUSH as a command part: the final partial byte where bits are buffered, then FLUSHED (42_bit_packer R153). -/
def flushCommand (s : State) : Ended :=
  whenActive s <|
    (if s.pkCnt = 0 then .ok s else emitByte s.topByte s).andThen fun s => .ok s.closePacker

/-- FLUSH (42_bit_packer R153). -/
def execFlush (s : State) : Host.Outcome State Fault Refusal := finish (flushCommand s)

/-- PKRST, in every mode (42_bit_packer R154). -/
def execPkrst (s : State) : Host.Outcome State Fault Refusal := finish (.ok s.resetPacker)

end Sys2Proof.Machine
end

