-- ==== Sys2Proof/Machine/Encoder.lean ====
section
/-! DEFINITION. BlockEntropyEncoder: ENCBLK and SCANRST (spec/43_block_encoder.md), and the symbol lookup `enc`
(spec/40_code_builder.md rule R111). -/

namespace Sys2Proof.Machine

/-- The position of a symbol in `SPEC[n].VAL[0..NVAL-1]`, the store having 256 entries (40_code_builder R111, where V5 makes it
unique). DESIGN CHOICE where VAL or NVAL was never written, so that ENCBLK reads them anew, under another free value than the
BUILD that checked V5 did: of several positions the lowest is taken, and a position past the built entries can be. Log 22. -/
def State.position (s : State) (n : SlotId) (sym : Nat) : Option Nat :=
  (List.range (Nat.min (s.nvalAt n).toNat Config.maxSyms)).find? fun k => (s.valAt n k).toNat = sym

/-- `enc(n, sym)`: the code and its length, or absent (40_code_builder R111). The length is 0 at a position past the built
entries, which only the choice of Log 22 reaches. -/
def State.enc (s : State) (n : SlotId) (sym : Nat) : Option (BitVec 16 × BitVec 8) :=
  (s.position n sym).map fun k => (s.codeAt n k, s.lenAt n k)

/-- A fault in the body of ENCBLK also fails the packer (43_block_encoder R185). -/
def bodyFault (c : Cause) (s : State) : Ended := .raised c s.failPacker

/-- `emit_sym(n, sym)` (43_block_encoder R181, 60_exceptions R228). DESIGN CHOICE where `enc` gives a length of 0, which R181 rules
out and only a slot built while NVAL was never written reaches: the symbol counts as present, no bits are put, and the command
goes on. Log 22. -/
def emitSym (n : SlotId) (sym : Nat) (s : State) : Ended :=
  match s.enc n sym with
  | none => bodyFault (.symbolNotInTable n sym) s
  | some (code, length) => putBits code length.toNat s

/-- The `c` magnitude bits of a value, nothing for c = 0 (30_encoding R85). -/
def emitMagnitude (v : Int) (c : Nat) (s : State) : Ended := putBits (BitVec.ofNat 16 (magbits v c)) c s

/-- The DC pass: the predictor is updated before anything is emitted (43_block_encoder R182). -/
def dcPass (comp : Comp) (d : SlotId) (s : State) : Ended :=
  let diff := (s.coefAt 0).toInt - (s.pred comp).toInt
  (emitSym d (cat diff) (s.setPred comp ((s.coefAt 0).signExtend 32))).andThen (emitMagnitude diff (cat diff))

/-- The given number of ZRL codes (43_block_encoder R183). -/
def emitZrls (a : SlotId) : Nat → State → Ended
  | 0, s => .ok s
  | n + 1, s => (emitSym a zrlSymbol s).andThen (emitZrls a n)

/-- A nonzero coefficient at scan position `k` after `run` zeros: ZRL for each sixteen, the range check, the symbol, the
magnitude bits (43_block_encoder R183). -/
def emitCoef (a : SlotId) (k run : Nat) (v : Int) (s : State) : Ended :=
  (emitZrls a (run / 16) s).andThen fun s =>
    if cat v > 15 then bodyFault (.coefRange k) s
    else (emitSym a (acSymbol (run % 16) (cat v)) s).andThen (emitMagnitude v (cat v))

/-- The end-of-block step (43_block_encoder R184). -/
def endOfBlock (a : SlotId) (run : Nat) (s : State) : Ended :=
  if run > 0 then emitSym a eobSymbol s else .ok s

/-- The AC pass over the scan positions given, `run` zeros behind it, and the end-of-block step when the scan is complete
(43_block_encoder R183, R184). -/
def acPass (a : SlotId) : List Nat → Nat → State → Ended
  | [], run, s => endOfBlock a run s
  | k :: ks, run, s =>
    let v := (s.coefAt (zigzagAt k)).toInt
    if v = 0 then acPass a ks (run + 1) s else (emitCoef a k run v s).andThen (acPass a ks 0)

/-- The scan positions of the AC pass, 1..63. -/
def acPositions : List Nat := (List.range 63).map (· + 1)

/-- The admission check of a table a command names (60_exceptions R227). -/
def whenBuilt (n : SlotId) (s : State) (body : Ended) : Ended :=
  if (s.slot n).built then body else .raised (.tableNotBuilt n) s

/-- ENCBLK as a command part: the DC table, the AC table, the packer, then the body (43_block_encoder R180). -/
def encblkCommand (comp : Comp) (d a : SlotId) (s : State) : Ended :=
  whenBuilt d s <| whenBuilt a s <| whenActive s <| (dcPass comp d s).andThen (acPass a acPositions 0)

/-- ENCBLK comp, dcidx, acidx (43_block_encoder R180). -/
def execEncblk (comp : Comp) (dcidx acidx : TableIdx) (s : State) : Host.Outcome State Fault Refusal :=
  finish (encblkCommand comp (slotOf .dc dcidx) (slotOf .ac acidx) s)

/-- Clear one predictor where its mask bit is set (43_block_encoder R187). -/
def clearPred (mask : BitVec 4) (s : State) (c : Comp) : State := if mask.getLsbD c.val then s.setPred c 0 else s

/-- SCANRST mask (43_block_encoder R187). -/
def execScanrst (mask : BitVec 4) (s : State) : Host.Outcome State Fault Refusal :=
  finish (.ok ([0, 1, 2, 3].foldl (clearPred mask) s))

end Sys2Proof.Machine
end

