-- ==== Sys2Proof/Machine/Lookup.lean ====
section
/-! DEFINITION. DecoderLookupBuilder: BLDLUT (spec/41_decoder_lookup.md rules R130 to R133). -/

namespace Sys2Proof.Machine

/-- One length's entries of the decoder lookup (10_state R27). -/
structure LutEntry where
  min : Int
  max : Int
  ptr : Int
deriving DecidableEq, Repr

/-- The entries of the lengths whose counts are given, `p` the position of the first symbol of the first of them:
-1, -1, 0 at a length with no codes, else the first code, the last code and `p` less the first code (41_decoder_lookup
R130). DESIGN CHOICE for counts that sum past 256, which only a slot with BITS never written can give here: the positions above
255, which 20_memory R54 says no command forms, read a free code. Log 21. -/
def lutEntries (codeAt : Nat → Nat) (p : Nat) : List Nat → List LutEntry
  | [] => []
  | c :: counts =>
    (if c = 0 then ⟨-1, -1, 0⟩ else ⟨codeAt p, codeAt (p + c - 1), (p : Int) - codeAt p⟩) ::
      lutEntries codeAt (p + c) counts

/-- Write `LUT[n]`, lengths 1..16. -/
def State.putLut (s : State) (n : SlotId) (es : List LutEntry) : State :=
  s.setSlot n { s.slot n with
    lutMin := Store.block 1 (es.map fun e => BitVec.ofInt 32 e.min)
    lutMax := Store.block 1 (es.map fun e => BitVec.ofInt 32 e.max)
    lutPtr := Store.block 1 (es.map fun e => BitVec.ofInt 32 e.ptr) }

/-- BLDLUT on a slot: the table must be built (41_decoder_lookup R130). DESIGN CHOICE: where BITS was never written, BLDLUT reads
it anew, under another free value than the BUILD did, so that the counts need not be the table's. Log 21. -/
def buildLut (s : State) (n : SlotId) : Ended :=
  if (s.slot n).built then
    .ok ((s.putLut n (lutEntries (fun k => (s.codeAt n k).toNat) 0 (s.counts n))).setLutv n)
  else .raised (.tableNotBuilt n) s

/-- BLDLUT cls, idx (41_decoder_lookup R130). -/
def execBldlut (cls : Cls) (idx : TableIdx) (s : State) : Host.Outcome State Fault Refusal :=
  finish (buildLut s (slotOf cls idx))

end Sys2Proof.Machine
end

