-- ==== Sys2Proof/Machine/Dispatch.lean ====
section
/-! DEFINITION. The meaning of each command (spec/00_scope.md rule R8), one arm per constructor. -/

namespace Sys2Proof.Machine

def exec (i : Instr) (s : State) : Host.Outcome State Fault Refusal :=
  match i with
  | .ldstd cls idx std => Sys2Proof.Machine.execLdstd cls idx std s
  | .build cls idx => Sys2Proof.Machine.execBuild cls idx s
  | .bldlut cls idx => Sys2Proof.Machine.execBldlut cls idx s
  | .putbits code length => Sys2Proof.Machine.execPutbits code length s
  | .flush => Sys2Proof.Machine.execFlush s
  | .pkrst => Sys2Proof.Machine.execPkrst s
  | .encblk comp dcidx acidx => Sys2Proof.Machine.execEncblk comp dcidx acidx s
  | .scanrst mask => Sys2Proof.Machine.execScanrst mask s

end Sys2Proof.Machine
end

