-- ==== Sys2Proof/Machine/HostPort.lean ====
section
/-! DEFINITION. What the host does to the core: handing over a command word, reading and writing elements through the flat
word-address map (spec/20_memory.md rules R51 to R56; spec/10_state.md rules R36 to R39), and hardware reset
(spec/70_reset_and_hazards.md rule R260). -/

namespace Sys2Proof.Machine

/-! ## The address map -/

/-- The element at an offset from a slot's base (20_memory R51). -/
def slotElement (n : SlotId) (o : Nat) : Option Element :=
  if o < 0x010 then some (.bits n o)
  else if o = 0x010 then some (.nval n)
  else if o < 0x020 then none
  else if o < 0x030 then some (.lutMin n (o - 0x020 + 1))
  else if o < 0x040 then some (.lutMax n (o - 0x030 + 1))
  else if o < 0x050 then some (.lutPtr n (o - 0x040 + 1))
  else if o < 0x100 then none
  else if o < 0x200 then some (.val n (o - 0x100))
  else if o < 0x300 then some (.code n (o - 0x200))
  else if o < 0x400 then some (.len n (o - 0x300))
  else none

/-- The element at a word address, or nothing where the map names none (20_memory R51, R56). -/
def Element.ofAddr (a : Nat) : Option Element :=
  if a < 0x0010 then some (.csr a)
  else if a < 0x0040 then none
  else if a < 0x0080 then some (.coef (a - 0x0040))
  else if a < 0x00C0 then some (.zigzag (a - 0x0080))
  else if a < 0x1000 then none
  else if a < 0x1400 then slotElement 0 (a - 0x1000)
  else if a < 0x1800 then slotElement 1 (a - 0x1400)
  else if a < 0x1C00 then slotElement 2 (a - 0x1800)
  else if a < 0x2000 then slotElement 3 (a - 0x1C00)
  else none

/-! ## Host reads and writes -/

/-- A control and status register as the host reads it; reserved numbers read 0 (10_state R39). -/
def State.csr (s : State) (n : Nat) : Word :=
  match n with
  | 0 => s.status
  | 1 => s.lasterr
  | 2 => s.errstat
  | 3 => s.pkReg
  | 4 => s.pkCnt.setWidth 32
  | 8 => s.pred 0
  | 9 => s.pred 1
  | 10 => s.pred 2
  | 11 => s.pred 3
  | _ => 0

/-- A host read: unsigned elements zero-extended, signed ones sign-extended (20_memory R53). An element that holds no
specified value shows a free one (U3, U7). -/
def State.hostRead (s : State) : Element → Word
  | .csr n => s.csr n
  | .coef i => (s.coefAt i).signExtend 32
  | .zigzag k => BitVec.ofNat 32 (zigzagAt k)
  | .bits n i => (s.bitsAt n i).setWidth 32
  | .nval n => (s.nvalAt n).setWidth 32
  | .lutMin n L => s.lutMinAt n L
  | .lutMax n L => s.lutMaxAt n L
  | .lutPtr n L => s.lutPtrAt n L
  | .val n k => (s.valAt n k).setWidth 32
  | .code n k => (s.codeAt n k).setWidth 32
  | .len n k => (s.lenAt n k).setWidth 32

/-- A host write: the element takes the word's low bits (20_memory R53); a write to any element of `SPEC[n]` also clears
`built[n]` and `lutv[n]`, whatever the value (R55); a write to a read-only element has no effect (R56). -/
def State.hostWrite (s : State) (e : Element) (w : Word) : State :=
  match e with
  | .coef i => { s with coef := Store.put s.coef i (w.setWidth 16) }
  | .bits n i => (s.setSlot n { s.slot n with bits := Store.put (s.slot n).bits i (w.setWidth 8) }).unbuild n
  | .nval n => (s.setSlot n { s.slot n with nval := Store.put (s.slot n).nval 0 (w.setWidth 16) }).unbuild n
  | .val n k => (s.setSlot n { s.slot n with val := Store.put (s.slot n).val k (w.setWidth 16) }).unbuild n
  | .csr _ => s
  | .zigzag _ => s
  | .lutMin _ _ => s
  | .lutMax _ _ => s
  | .lutPtr _ _ => s
  | .code _ _ => s
  | .len _ _ => s

/-! ## Commands and hardware reset -/

/-- The core takes a command word: the instruction it decodes to, or IllegalCommand, which changes nothing but the error
registers (30_encoding R77, 60_exceptions R225). -/
def runCommand (w : Word) (s : State) : Host.Outcome State Fault Refusal :=
  match decode w with
  | .ok i => exec i s
  | .error _ => finish (.raised (.illegalCommand w) s)

/-- Hardware reset: the core's state is that of rule R41; the sink, the host and the model's counter of free values are not
reset (70_reset R260). Log 11. -/
def State.hardwareReset (s : State) : State :=
  { State.reset with
    stream := s.stream
    sinkAnswers := s.sinkAnswers
    host := s.host
    hostData := s.hostData
    draws := s.draws + 1 }

/-- The bytes the sink would take in a command. -/
def commandBytes (w : Word) (s : State) : List Byte :=
  match runCommand w s with
  | .next t => t.stream.drop s.stream.length
  | .fault _ => []
  | .refused _ => []

/-- The state in which a hardware reset finds the core in the middle of a command, as far as it survives the reset: the
sink has taken a prefix of the command's bytes (70_reset R260; U18). Log 11. -/
def State.abandonCommand (s : State) (w : Word) (taken : Nat) : State :=
  { s with
    stream := s.stream ++ (commandBytes w s).take taken
    sinkAnswers := s.sinkAnswers.drop ((commandBytes w s).take taken).length }

/-- One action of the host (70_reset R273); an access to an unmapped address is refused (20_memory R56, U8). -/
def hostAction (a : HostAction) (s : State) : Host.Outcome State Fault Refusal :=
  match a with
  | .command w => runCommand w s
  | .write addr data =>
    match Element.ofAddr addr with
    | some e => .next { s.hostWrite e data with draws := s.draws + 1 }
    | none => .refused (.unmappedAddress addr)
  | .read addr =>
    match Element.ofAddr addr with
    | some e => .next { s with hostData := s.hostRead e, draws := s.draws + 1 }
    | none => .refused (.unmappedAddress addr)
  | .reset => .next s.hardwareReset
  | .resetDuring w taken => .next (s.abandonCommand w taken).hardwareReset

/-- The host's next action, or an idle core where the host issues nothing more (70_reset R273). -/
def hostTurn (s : State) : Host.Outcome State Fault Refusal :=
  match s.host with
  | [] => .next s
  | a :: rest => hostAction a { s with host := rest }

/-- The state with a command word as the host's very next action. -/
def State.withCommand (s : State) (w : Word) : State := { s with host := .command w :: s.host }

end Sys2Proof.Machine
end

