-- ==== Sys2Proof/Machine/Step.lean ====
section
/-! DEFINITION. One step of the machine: the host's next action, whole (spec/00_scope.md rule R8, spec/20_memory.md rules
R59 and R63, spec/70_reset_and_hazards.md rule R273). -/

namespace Sys2Proof.Machine

/-- One step: the host's next action; an idle core stays as it is. -/
def step (s : State) : Host.Outcome State Fault Refusal := hostTurn s

/-- The state with an instruction placed where `step` takes its next command: the core stores no program (10_state R22), so
the word is the host's very next action. Log 1. -/
def State.withFetchWord (s : State) (nbits w : Nat) : State := s.withCommand (tableWord nbits w)

end Sys2Proof.Machine
end

