-- ==== Sys2Proof/Machine/RefDecoder.lean ====
section
/-! DEFINITION. The reference decode procedure (spec/41_decoder_lookup.md rules R134 to R136). It is no operation of the
core: an external consumer runs it on the unstuffed bits, and the round trip property is stated through it. -/

namespace Sys2Proof.Machine

/-- Drop the 0x00 that follows every 0xFF of the byte stream (30_encoding R87, R90). -/
def unstuff : List Byte → List Byte
  | [] => []
  | [b] => [b]
  | b :: c :: rest => if b = 0xFF ∧ c = 0x00 then b :: unstuff rest else b :: unstuff (c :: rest)

/-- `decode_symbol` with `left` lengths to go, `L` the next of them and `code` the bits read so far: the symbol and the bits
after it, or nothing where no code matches or the bits run out (41_decoder_lookup R134). DESIGN CHOICE where `LUT[n]` is not
valid, its contents without meaning (10_state R27): the loop still answers by whatever MAX and PTR read as, a position below 0
reads `VAL[0]`, and a position above 255 a free value. Log 20. -/
def decodeSymbolFrom (s : State) (n : SlotId) : (left L code : Nat) → List Bool → Option (Nat × List Bool)
  | 0, _, _, _ => none
  | _ + 1, _, _, [] => none
  | left + 1, L, code, b :: rest =>
    let code' := 2 * code + b.toNat
    if (code' : Int) ≤ (s.lutMaxAt n L).toInt then
      some ((s.valAt n ((s.lutPtrAt n L).toInt + code').toNat).toNat, rest)
    else decodeSymbolFrom s n left (L + 1) code' rest

/-- `decode_symbol(n)` (41_decoder_lookup R134). -/
def decodeSymbol (s : State) (n : SlotId) (bits : List Bool) : Option (Nat × List Bool) :=
  decodeSymbolFrom s n Config.maxLen 1 0 bits

/-- The inverse of the magnitude bits (41_decoder_lookup R135). -/
def extend (m c : Nat) : Int :=
  if c = 0 then 0 else if 2 ^ (c - 1) ≤ m then m else (m : Int) - (2 ^ c - 1)

/-- `ReadBits(c)`, most significant first (41_decoder_lookup R135), the bits before it given as a number. -/
def readBits (acc : Nat) : (c : Nat) → List Bool → Option (Nat × List Bool)
  | 0, bits => some (acc, bits)
  | _ + 1, [] => none
  | c + 1, b :: rest => readBits (2 * acc + b.toNat) c rest

/-- Read a signed value of category `c` (41_decoder_lookup R135). -/
def readValue (c : Nat) (bits : List Bool) : Option (Int × List Bool) :=
  (readBits 0 c bits).map fun (m, rest) => (extend m c, rest)

/-- The AC loop of `decode_block` from scan position `k`, with `left` symbols at most to go (41_decoder_lookup R136). A
symbol that would run past position 63, or of category 0 with a run of 1 to 14 (93_implementation_defined U15), was not made
by the core: no result. Log 20. -/
def decodeAc (s : State) (a : SlotId) : (left k : Nat) → List Int → List Bool → Option (List Int × List Bool)
  | 0, k, blk, bits => if k ≤ 63 then none else some (blk, bits)
  | left + 1, k, blk, bits =>
    if k ≤ 63 then
      match decodeSymbol s a bits with
      | none => none
      | some (rs, rest) =>
        if rs % 16 = 0 then
          if rs / 16 = 15 then decodeAc s a left (k + 16) blk rest
          else if rs / 16 = 0 then some (blk, rest)
          else none
        else if k + rs / 16 ≤ 63 then
          match readValue (rs % 16) rest with
          | none => none
          | some (v, rest) =>
            decodeAc s a left (k + rs / 16 + 1) (blk.set (zigzagAt (k + rs / 16)) v) rest
        else none
    else some (blk, bits)

/-- `decode_block(pred, d, a)`: the block in natural order, the new predictor, and the bits after it (41_decoder_lookup
R136). -/
def decodeBlock (s : State) (pred : Int) (d a : SlotId) (bits : List Bool) : Option (List Int × Int × List Bool) :=
  match decodeSymbol s d bits with
  | none => none
  | some (c, rest) =>
    match readValue c rest with
    | none => none
    | some (diff, rest) =>
      (decodeAc s a 63 1 ((List.replicate 64 0).set 0 (pred + diff)) rest).map fun (blk, rest) =>
        (blk, pred + diff, rest)

end Sys2Proof.Machine
end

