-- ==== Sys2Proof/Safety.lean ====
section
/-! DEFINITION. The terms claims are stated in: what an element holds, what stays unchanged, the bits of the output stream,
the pure layout of a block's bits, and the invariants of the machine. -/

namespace Sys2Proof.Machine

/-! ## What an element holds, and frames -/

/-- The host word of the value a store's element holds, nothing where it holds no specified value. A read of an element that
holds a value gives exactly it (20_memory R53). Registers and the constant table are no stores. -/
def State.cell (s : State) : Element → Option Word
  | .csr _ => none
  | .zigzag _ => none
  | .coef i => (Store.find? s.coef i).map (·.signExtend 32)
  | .bits n i => (Store.find? (s.slot n).bits i).map (·.setWidth 32)
  | .nval n => (Store.find? (s.slot n).nval 0).map (·.setWidth 32)
  | .lutMin n L => Store.find? (s.slot n).lutMin L
  | .lutMax n L => Store.find? (s.slot n).lutMax L
  | .lutPtr n L => Store.find? (s.slot n).lutPtr L
  | .val n k => (Store.find? (s.slot n).val k).map (·.setWidth 32)
  | .code n k => (Store.find? (s.slot n).code k).map (·.setWidth 32)
  | .len n k => (Store.find? (s.slot n).len k).map (·.setWidth 32)

/-- The element is one the spec has: its index is in the range of its store (20_memory R50, R51). -/
def Element.InRange : Element → Prop
  | .csr n => n < 16
  | .coef i => i < 64
  | .zigzag k => k < 64
  | .bits _ i => i < 16
  | .nval _ => True
  | .lutMin _ L => 1 ≤ L ∧ L ≤ 16
  | .lutMax _ L => 1 ≤ L ∧ L ≤ 16
  | .lutPtr _ L => 1 ≤ L ∧ L ≤ 16
  | .val _ k => k < 256
  | .code _ k => k < 256
  | .len _ k => k < 256

/-- The element belongs to `SPEC[n]`. -/
def Element.inSpec (n : SlotId) : Element → Bool
  | .bits m _ => m = n
  | .nval m => m = n
  | .val m _ => m = n
  | _ => false

/-- The element belongs to `TBL[n]`. -/
def Element.inTbl (n : SlotId) : Element → Bool
  | .code m _ => m = n
  | .len m _ => m = n
  | _ => false

/-- The element belongs to `LUT[n]`. -/
def Element.inLut (n : SlotId) : Element → Bool
  | .lutMin m _ => m = n
  | .lutMax m _ => m = n
  | .lutPtr m _ => m = n
  | _ => false

/-- Every element of every store holds what it held. -/
def SameStores (s t : State) : Prop := ∀ e, t.cell e = s.cell e

/-- `built` and `lutv` of every slot but those excepted are as they were. -/
def SameFlagsBut (p : SlotId → Prop) (s t : State) : Prop :=
  ∀ m, ¬ p m → (t.slot m).built = (s.slot m).built ∧ (t.slot m).lutv = (s.slot m).lutv

/-- Every predictor but those excepted is as it was. -/
def SamePredsBut (p : Comp → Prop) (s t : State) : Prop := ∀ c, ¬ p c → t.pred c = s.pred c

/-- The packer's registers and mode are as they were. -/
def SamePacker (s t : State) : Prop := t.pkReg = s.pkReg ∧ t.pkCnt = s.pkCnt ∧ t.pkMode = s.pkMode

/-- The sink took nothing and was asked nothing. -/
def SameSink (s t : State) : Prop := t.stream = s.stream ∧ t.sinkAnswers = s.sinkAnswers

/-- The host's side is as it was. -/
def SameHost (s t : State) : Prop := t.host = s.host ∧ t.hostData = s.hostData

/-- A command that ended OK: LASTERR 0, ERRSTAT as it was (60_exceptions R230). -/
def EndedOk (s t : State) : Prop := t.lasterr = 0 ∧ t.errstat = s.errstat

/-- A command that ended with a cause: LASTERR is `code + (info << 8)`, and the cause's bit is set in ERRSTAT
(60_exceptions R230). -/
def EndedWith (c : Cause) (s t : State) : Prop :=
  t.lasterr.toNat = c.code + c.info.toNat * 2 ^ 8 ∧
    ∀ i, t.errstat.getLsbD i = (s.errstat.getLsbD i || decide (i = c.code))

/-- The whole state but the error registers and the draw number is as it was: what an admission fault leaves. -/
def OnlyErrorRegisters (s t : State) : Prop :=
  t = { s with lasterr := t.lasterr, errstat := t.errstat, draws := t.draws }

/-! ## The bits of the output stream -/

/-- The low `n` bits of a number, most significant first (30_encoding R86). -/
def msbBits (n v : Nat) : List Bool := (List.range n).map fun i => v.testBit (n - 1 - i)

/-- The eight bits of a byte, bit 7 first (20_memory R52). -/
def byteBits (b : Byte) : List Bool := msbBits 8 b.toNat

/-- Data bytes with their stuffing: 0x00 after each 0xFF and after no other byte (30_encoding R87). -/
def stuffed (data : List Byte) : List Byte := data.flatMap fun b => if b = 0xFF then [b, 0x00] else [b]

/-- The buffered bits, oldest first: the top `pk_cnt` bits of `pk_reg` (10_state R31). -/
def State.pending (s : State) : List Bool := (List.range s.pkCnt.toNat).map fun i => s.pkReg.getMsbD i

/-- From `s` to `t` exactly these bits entered the packer, in order: the stream grew by whole stuffed data bytes, and the
data bits with the bits still buffered are the bits buffered before and then the new ones (42_bit_packer R155). -/
def Emits (s t : State) (bits : List Bool) : Prop :=
  ∃ data : List Byte, t.stream = s.stream ++ stuffed data ∧
    data.flatMap byteBits ++ t.pending = s.pending ++ bits

/-- The packer's invariant between commands: at most 7 bits buffered and zeros below them (10_state R31, R32). -/
def State.PackerOk (s : State) : Prop :=
  s.pkCnt.toNat ≤ 7 ∧ ∀ i, i < 32 - s.pkCnt.toNat → s.pkReg.getLsbD i = false

/-- The sink accepts every write to come (20_memory R57). -/
def State.SinkAccepts (s : State) : Prop := ∀ a ∈ s.sinkAnswers, a = true

/-! ## The layout of a block's bits -/

/-- Which code word a table has for a symbol. -/
abbrev CodeBook := Nat → Option (List Bool)

/-- The code words of a slot's table (30_encoding R86). For a slot built from never-written VAL or NVAL: Log 22. -/
def State.book (s : State) (n : SlotId) : CodeBook := fun sym =>
  (s.enc n sym).map fun (code, length) => msbBits length.toNat code.toNat

/-- The magnitude bits of a value (30_encoding R85). -/
def magnitudeBits (v : Int) : List Bool := msbBits (cat v) (magbits v (cat v))

/-- The bits of `n` ZRL codes. -/
def zrlBits (ac : CodeBook) : Nat → Option (List Bool)
  | 0 => some []
  | n + 1 =>
    match ac zrlSymbol, zrlBits ac n with
    | some z, some rest => some (z ++ rest)
    | _, _ => none

/-- The bits of the AC coefficients given in scan order, `run` zeros before them: the items, then end-of-block exactly when
zeros trail (30_encoding R89). Nothing where the book lacks a symbol or a category is above 15. -/
def acBits (ac : CodeBook) (run : Nat) : List Int → Option (List Bool)
  | [] => if run > 0 then ac eobSymbol else some []
  | v :: vs =>
    if v = 0 then acBits ac (run + 1) vs
    else if cat v > 15 then none
    else
      match zrlBits ac (run / 16), ac (16 * (run % 16) + cat v), acBits ac 0 vs with
      | some z, some code, some rest => some (z ++ code ++ magnitudeBits v ++ rest)
      | _, _, _ => none

/-- The bits of a block: the DC code of the difference's category, its magnitude bits, the AC part (30_encoding R89). -/
def blockBits (dc ac : CodeBook) (diff : Int) (acs : List Int) : Option (List Bool) :=
  match dc (cat diff), acBits ac 0 acs with
  | some code, some rest => some (code ++ magnitudeBits diff ++ rest)
  | _, _ => none

/-- What a stretch of ENCBLK's body puts: its bits in order, and the cause that ends the command after them, if one does. -/
abbrev Layout := List Bool × Option Cause

/-- Bits put before a layout. -/
def Layout.after (bits : List Bool) (l : Layout) : Layout := (bits ++ l.1, l.2)

/-- A symbol of slot `n` before a layout: its code, or SymbolNotInTable where the book lacks it (43_block_encoder R181). -/
def symLayout (n : SlotId) (book : CodeBook) (sym : Nat) (l : Layout) : Layout :=
  match book sym with
  | none => ([], some (.symbolNotInTable n sym))
  | some code => l.after code

/-- `n` ZRL codes of slot `a` before a layout (43_block_encoder R183). -/
def zrlLayout (a : SlotId) (ac : CodeBook) : Nat → Layout → Layout
  | 0, l => l
  | n + 1, l => symLayout a ac zrlSymbol (zrlLayout a ac n l)

/-- The layout of the AC coefficients from scan position `k` on, `run` zeros before them: ZRL codes, then the range check, then
the symbol and the magnitude bits; end-of-block exactly when zeros trail (43_block_encoder R183, R184). Unlike `acBits` it also
says what is put before a fault, and which fault it is. -/
def acLayout (a : SlotId) (ac : CodeBook) (k run : Nat) : List Int → Layout
  | [] => if run > 0 then symLayout a ac eobSymbol ([], none) else ([], none)
  | v :: vs =>
    if v = 0 then acLayout a ac (k + 1) (run + 1) vs
    else
      zrlLayout a ac (run / 16)
        (if cat v > 15 then ([], some (.coefRange k))
        else symLayout a ac (16 * (run % 16) + cat v) ((acLayout a ac (k + 1) 0 vs).after (magnitudeBits v)))

/-- The AC coefficients in scan order, positions 1..63 (43_block_encoder R183). -/
def State.acScan (s : State) : List Int := acPositions.map fun k => (s.coefAt (zigzagAt k)).toInt

/-- The block in natural order (10_state R28). -/
def State.block (s : State) : List Int := (List.range 64).map fun i => (s.coefAt i).toInt

/-- The DC difference of a component (43_block_encoder R182). -/
def State.diff (s : State) (comp : Comp) : Int := (s.coefAt 0).toInt - (s.pred comp).toInt

/-- The layout of the body of an ENCBLK: the DC symbol and its magnitude bits, then the AC part (43_block_encoder R182 to
R184). -/
def State.blockLayout (s : State) (comp : Comp) (d a : SlotId) : Layout :=
  symLayout d (s.book d) (cat (s.diff comp))
    ((acLayout a (s.book a) 1 0 s.acScan).after (magnitudeBits (s.diff comp)))

/-- The bits a command puts into the packer, as long as the sink takes what this makes it write: none where its admission
fails; a PUTBITS its code's, a FLUSH the zero bits that fill the last byte, an ENCBLK those of its body's layout (42_bit_packer
R152, R153, 43_block_encoder R180). -/
def State.bitsPut (s : State) : Instr → List Bool
  | .ldstd _ _ _ => []
  | .build _ _ => []
  | .bldlut _ _ => []
  | .putbits code length => if s.pkMode = .active ∧ length.toNat ≤ 16 then msbBits length.toNat code.toNat else []
  | .flush => if s.pkMode = .active ∧ s.pkCnt ≠ 0 then List.replicate (8 - s.pkCnt.toNat) false else []
  | .pkrst => []
  | .encblk comp dcidx acidx =>
    if (s.slot (slotOf .dc dcidx)).built ∧ (s.slot (slotOf .ac acidx)).built ∧ s.pkMode = .active then
      (s.blockLayout comp (slotOf .dc dcidx) (slotOf .ac acidx)).1
    else []
  | .scanrst _ => []

/-! ## Canonical codes in closed form -/

/-- `base(L)`: the position of the first symbol of length `L`, `counts` the counts of lengths 1, 2, ... (40_code_builder
R107). -/
def codeBase (counts : List Nat) (L : Nat) : Nat := (counts.take (L - 1)).sum

/-- `first(L)`: the first code of length `L` (40_code_builder R107): first(1) = 0, first(L+1) = 2 * (first(L) + cnt(L)). -/
def codeFirst (counts : List Nat) : Nat → Nat
  | 0 => 0
  | L + 1 => if L = 0 then 0 else 2 * (codeFirst counts L + counts.getD (L - 1) 0)

/-- V2 at a length: its codes fit (40_code_builder R106). -/
def FitsAt (counts : List Nat) (L : Nat) : Prop :=
  counts.getD (L - 1) 0 = 0 ∨ codeFirst counts L + counts.getD (L - 1) 0 ≤ 2 ^ L

/-- A well-formed spec, conditions V1 to V5 (10_state R24, 40_code_builder R106). -/
structure SpecOk (n : Nat) (counts vals : List Nat) : Prop where
  few : n ≤ 256
  sum : counts.sum = n
  fits : ∀ L, 1 ≤ L → L ≤ 16 → FitsAt counts L
  small : ∀ v ∈ vals, v ≤ 255
  distinct : vals.Nodup

/-! ## Slots whose stores are specified -/

/-- Every element of `SPEC[n]` that BUILD reads holds a value. -/
def State.SpecHeld (s : State) (n : SlotId) : Prop :=
  (∀ i, i < 16 → (Store.find? (s.slot n).bits i).isSome) ∧ (Store.find? (s.slot n).nval 0).isSome ∧
    ∀ k, k < (s.nvalAt n).toNat → (Store.find? (s.slot n).val k).isSome

/-- `TBL[n]` is what BUILD writes for some well-formed spec (10_state R26). -/
def Slot.TableOk (x : Slot) : Prop :=
  ∃ n counts vals t, counts.length = 16 ∧ buildTable n counts vals = .ok t ∧
    x.code = Store.padded (t.codes.map (BitVec.ofNat 16)) ∧ x.len = Store.padded (t.lens.map (BitVec.ofNat 8))

/-- `TBL[n]` holds the table BUILD makes of the spec now in `SPEC[n]`: writing that table again changes nothing (10_state R34). -/
def State.TableCurrent (s : State) (n : SlotId) : Prop :=
  ∃ t, buildTable (s.nvalAt n).toNat (s.counts n) (s.symbols n (s.nvalAt n).toNat) = .ok t ∧
    (s.putTable n t).slot n = s.slot n

/-- The slot is ready for use and for validation: its spec is held, its table is the spec's and its lookup is the table's,
so that writing either again changes nothing (10_state R34, R35). At a length with no codes PTR is then 0 (Log 10). -/
def State.SlotReady (s : State) (n : SlotId) : Prop :=
  s.SpecHeld n ∧ (s.slot n).built = true ∧
    ∃ t, buildTable (s.nvalAt n).toNat (s.counts n) (s.symbols n (s.nvalAt n).toNat) = .ok t ∧
      (s.putTable n t).slot n = s.slot n ∧
      (s.putLut n (lutEntries (fun k => t.codes.getD k 0) 0 (s.counts n))).slot n = s.slot n

/-! ## Invariants -/

/-- The stores of a slot are in canonical form (20_memory R50, R54). -/
def Slot.wf (x : Slot) : Bool :=
  Store.wf 0 16 x.bits && Store.wf 0 1 x.nval && Store.wf 0 256 x.val && Store.wf 0 256 x.code &&
    Store.wf 0 256 x.len && Store.wf 1 17 x.lutMin && Store.wf 1 17 x.lutMax && Store.wf 1 17 x.lutPtr

/-- All of memory is in canonical form: every store's indices rise strictly within its index range (20_memory R50). -/
def Memory.wf (s : State) : Bool :=
  (s.slot 0).wf && (s.slot 1).wf && (s.slot 2).wf && (s.slot 3).wf && Store.wf 0 64 s.coef

/-- The predictors hold coefficients (10_state R30). -/
def State.PredsInRange (s : State) : Prop :=
  ∀ c, -32768 ≤ (s.pred c).toInt ∧ (s.pred c).toInt ≤ 32767

/-- The invariant of the machine, kept by every step: memory canonical; the packer's invariant while ACTIVE (42_bit_packer
R155); a built slot's table comes from a well-formed spec (10_state R26), and from the spec the slot holds now (R34); lutv
implies built, and then the lookup is that of the table the slot holds now (R35); predictors in range (R30); ERRSTAT has only
bits 1..8, LASTERR a cause 0..8 (R37, R38). The two clauses that name the spec a slot holds speak of a spec all of whose read
elements hold a value: a BUILD of a spec that was never written reads free values (Log 2), which nothing can name again. -/
structure State.Inv (s : State) : Prop where
  memory : Memory.wf s = true
  packer : s.pkMode = .active → s.PackerOk
  tables : ∀ n, (s.slot n).built = true → (s.slot n).TableOk
  current : ∀ n, (s.slot n).built = true → s.SpecHeld n → s.TableCurrent n
  lookup : ∀ n, (s.slot n).lutv = true → (s.slot n).built = true
  looked : ∀ n, (s.slot n).lutv = true → s.SpecHeld n → s.SlotReady n
  preds : s.PredsInRange
  errstat : ∀ i, s.errstat.getLsbD i = true → 1 ≤ i ∧ i ≤ 8
  lasterr : (s.lasterr.extractLsb' 0 8).toNat ≤ 8

end Sys2Proof.Machine
end

