-- ==== Sys2Proof/Certificates/Slice0/Obligations.lean ====
section
/-! DEFINITION. What is to be proved of the core, one statement per definition. Each docstring names the rules of spec/ it
rests on. No statement rests on a value of `Config.unspecified` or on the answers the sink gives, but where it says so. -/

open Sys2Proof Sys2Proof.Machine

/-! ## Encoding -/

/-- Every command's word decodes to that command: no field of the encoding is dropped (30_encoding R71 to R75, R78). -/
def Obligations.DecodeOfEncode : Prop := ∀ i : Instr, decode (encode i) = .ok i

/-- Every word that decodes is the word of the command it decodes to: a command has one word (30_encoding R71 to R77). -/
def Obligations.EncodeOfDecode : Prop := ∀ (w : Word) (i : Instr), decode w = .ok i → encode i = w

/-- A word is a command exactly when it matches a row of the opcode map, and then it is that row's command and no other's
(30_encoding R76, R77). -/
def Obligations.LegalWordsAreTheOpcodeMap : Prop := ∀ w : Word,
  ((∃ i, decode w = .ok i) ↔ wellFormedWord w = true) ∧
    ∀ i, decode w = .ok i → ∀ r ∈ opcodeRows, (w &&& r.mask = r.value ↔ r.mnemonic = i.mnemonic)

/-- The words of the spec's assembler table (30_encoding R79). -/
def Obligations.CommandWordFormulas : Prop :=
  (∀ cls idx std, encode (.ldstd cls idx std) =
    BitVec.ofNat 32 (0x10000000 + cls.num * 2 ^ 27 + idx.val * 2 ^ 26 + std.num * 2 ^ 25)) ∧
  (∀ cls idx, encode (.build cls idx) = BitVec.ofNat 32 (0x20000000 + cls.num * 2 ^ 27 + idx.val * 2 ^ 26)) ∧
  (∀ cls idx, encode (.bldlut cls idx) = BitVec.ofNat 32 (0x30000000 + cls.num * 2 ^ 27 + idx.val * 2 ^ 26)) ∧
  (∀ code length, encode (.putbits code length) =
    BitVec.ofNat 32 (0x40000000 + length.toNat * 2 ^ 16 + code.toNat)) ∧
  encode .flush = 0x50000000 ∧ encode .pkrst = 0x60000000 ∧
  (∀ comp d a, encode (.encblk comp d a) =
    BitVec.ofNat 32 (0x70000000 + comp.val * 2 ^ 26 + d.val * 2 ^ 25 + a.val * 2 ^ 24)) ∧
  (∀ mask, encode (.scanrst mask) = BitVec.ofNat 32 (0x80000000 + mask.toNat * 2 ^ 24))

/-- Words written out from the spec decode to the commands they stand for (30_encoding R71 to R77; 95_test_vectors 4.1). -/
def Obligations.SpecWordsDecode : Prop :=
  decode 0x1E000000 = .ok (.ldstd .ac 1 .chr) ∧ decode 0x24000000 = .ok (.build .dc 1) ∧
  decode 0x38000000 = .ok (.bldlut .ac 0) ∧ decode 0x400901FF = .ok (.putbits 0x1FF 9) ∧
  decode 0x50000000 = .ok .flush ∧ decode 0x60000000 = .ok .pkrst ∧
  decode 0x7D000000 = .ok (.encblk 3 0 1) ∧ decode 0x82000000 = .ok (.scanrst 2)

/-! ## Steps, endings and recording -/

/-- When the host's next action is a command word that decodes, the step is that instruction on the state without the action;
nothing else is added around it (00_scope R8, 20_memory R59). The list of host actions is the model's own (Log 1). -/
def Obligations.StepRunsTheDecodedCommand : Prop := ∀ (s : State) (w : Word) (rest : List HostAction) (i : Instr),
  s.host = .command w :: rest → decode w = .ok i → step s = exec i { s with host := rest }

/-- An illegal word raises IllegalCommand with info w[31:8] and changes nothing else (30_encoding R77, 60_exceptions R225). -/
def Obligations.IllegalCommandChangesNothingElse : Prop := ∀ (s : State) (w : Word) (rest : List HostAction),
  s.host = .command w :: rest → wellFormedWord w = false →
    ∃ t, step s = .next t ∧ t.lasterr = (w &&& 0xFFFFFF00) ||| 0x04 ∧
      (∀ i, t.errstat.getLsbD i = (s.errstat.getLsbD i || decide (i = 4))) ∧
      OnlyErrorRegisters { s with host := rest } t

/-- The shared end of every command: a raised cause leaves LASTERR = code + (info << 8) and sets its ERRSTAT bit, an OK end
clears LASTERR and leaves ERRSTAT, and either way the core goes on (60_exceptions R230). -/
def Obligations.FaultsAreRecorded : Prop :=
  (∀ (c : Cause) (s : State), ∃ t, finish (.raised c s) = .next t ∧ EndedWith c s t ∧ OnlyErrorRegisters s t) ∧
  ∀ s : State, ∃ t, finish (.ok s) = .next t ∧ EndedOk s t ∧ OnlyErrorRegisters s t

/-- Every command of every state ends in a next state, OK or with a recorded cause 1..8 (00_scope R9). -/
def Obligations.EveryCommandEnds : Prop := ∀ (i : Instr) (s : State),
  ∃ t, exec i s = .next t ∧ (EndedOk s t ∨ ∃ c : Cause, EndedWith c s t ∧ 1 ≤ c.code ∧ c.code ≤ 8)

/-- A step stops in one case only, a host access to an address the map does not name; it never faults (00_scope R9,
20_memory R56). Refusing that access is the model's choice (Log 12). -/
def Obligations.OnlyUnmappedAccessStops : Prop := ∀ s : State,
  (∃ t, step s = .next t) ∨
    ∃ a rest, step s = .refused (.unmappedAddress a) ∧ Element.ofAddr a = none ∧
      (s.host = .read a :: rest ∨ ∃ data, s.host = .write a data :: rest)

/-! ## LDSTD -/

/-- LDSTD puts the standard spec into the slot, 0 past its values, clears the slot's flags and ends OK (40_code_builder
R102). What the standard specs hold is presumed (Log 8); nothing here rests on it. -/
def Obligations.LdstdLoadsTheStandardSpec : Prop := ∀ (cls : Cls) (idx : TableIdx) (std : Std) (s : State),
  ∃ t, exec (.ldstd cls idx std) s = .next t ∧ EndedOk s t ∧
    (∀ i, i < 16 → t.cell (.bits (slotOf cls idx) i) = some (((Config.std cls std).counts.getD i 0).setWidth 32)) ∧
    t.cell (.nval (slotOf cls idx)) = some (BitVec.ofNat 32 (Config.std cls std).values.length) ∧
    (∀ k, k < (Config.std cls std).values.length →
      t.cell (.val (slotOf cls idx) k) = some (((Config.std cls std).values.getD k 0).setWidth 32)) ∧
    (∀ k, (Config.std cls std).values.length ≤ k → k < 256 → t.cell (.val (slotOf cls idx) k) = some 0) ∧
    (t.slot (slotOf cls idx)).built = false ∧ (t.slot (slotOf cls idx)).lutv = false

/-- LDSTD changes nothing outside its slot's spec and flags: TBL and LUT keep what they hold (40_code_builder R102). -/
def Obligations.LdstdFrame : Prop := ∀ (cls : Cls) (idx : TableIdx) (std : Std) (s t : State),
  exec (.ldstd cls idx std) s = .next t →
    (∀ e, e.inSpec (slotOf cls idx) = false → t.cell e = s.cell e) ∧
    SameFlagsBut (· = slotOf cls idx) s t ∧ SamePredsBut (fun _ => False) s t ∧ SamePacker s t ∧ SameSink s t ∧
    SameHost s t

/-! ## BUILD -/

/-- BUILD of a well-formed spec ends OK and writes the canonical codes in closed form: the symbol at base(L) + j has length L
and code first(L) + j; entries at and past NVAL are 0; built is set and lutv cleared (40_code_builder R103, R107). -/
def Obligations.BuildAssignsCanonicalCodes : Prop := ∀ (cls : Cls) (idx : TableIdx) (s : State),
  SpecOk (s.nvalAt (slotOf cls idx)).toNat (s.counts (slotOf cls idx))
      (s.symbols (slotOf cls idx) (s.nvalAt (slotOf cls idx)).toNat) →
    ∃ t, exec (.build cls idx) s = .next t ∧ EndedOk s t ∧
      (t.slot (slotOf cls idx)).built = true ∧ (t.slot (slotOf cls idx)).lutv = false ∧
      (∀ L j, 1 ≤ L → L ≤ 16 → j < (s.counts (slotOf cls idx)).getD (L - 1) 0 →
        t.cell (.len (slotOf cls idx) (codeBase (s.counts (slotOf cls idx)) L + j)) = some (BitVec.ofNat 32 L) ∧
        t.cell (.code (slotOf cls idx) (codeBase (s.counts (slotOf cls idx)) L + j)) =
          some (BitVec.ofNat 32 (codeFirst (s.counts (slotOf cls idx)) L + j))) ∧
      ∀ k, (s.nvalAt (slotOf cls idx)).toNat ≤ k → k < 256 →
        t.cell (.len (slotOf cls idx) k) = some 0 ∧ t.cell (.code (slotOf cls idx) k) = some 0

/-- BUILD reports the first defect in the order V3, V1, V2 (smallest length), V4 (smallest position), V5 (smallest position
that repeats an earlier value) (40_code_builder R106, 60_exceptions R222, R232). -/
def Obligations.BuildReportsTheFirstDefect : Prop := ∀ (cls : Cls) (idx : TableIdx) (s : State) (m : Nat)
    (counts vals : List Nat),
  m = (s.nvalAt (slotOf cls idx)).toNat → counts = s.counts (slotOf cls idx) →
  vals = s.symbols (slotOf cls idx) m →
    ∃ t, exec (.build cls idx) s = .next t ∧
      (m > 256 → EndedWith (.invalidSpec .tooManyValues) s t) ∧
      (m ≤ 256 → counts.sum ≠ m → EndedWith (.invalidSpec .countMismatch) s t) ∧
      (m ≤ 256 → counts.sum = m →
        (∀ L, 1 ≤ L → L ≤ 16 → ¬ FitsAt counts L → (∀ L', 1 ≤ L' → L' < L → FitsAt counts L') →
          EndedWith (.invalidSpec (.codesDoNotFit L)) s t) ∧
        ((∀ L, 1 ≤ L → L ≤ 16 → FitsAt counts L) →
          (∀ k, k < vals.length → vals.getD k 0 > 255 → (∀ j, j < k → vals.getD j 0 ≤ 255) →
            EndedWith (.invalidSpec (.symbolTooLarge k)) s t) ∧
          ((∀ v ∈ vals, v ≤ 255) → ∀ k, k < vals.length → (vals.take k).Nodup →
            vals.getD k 0 ∈ vals.take k → EndedWith (.invalidSpec (.symbolRepeated k)) s t)))

/-- A BUILD that is refused leaves the slot unbuilt and the contents of its table unspecified (60_exceptions R222,
40_code_builder R103). Every element of the table is then unspecified, the model's reading of U3 (Log 3). -/
def Obligations.FailedBuildLeavesSlotUnusable : Prop := ∀ (cls : Cls) (idx : TableIdx) (s : State),
  ¬ SpecOk (s.nvalAt (slotOf cls idx)).toNat (s.counts (slotOf cls idx))
      (s.symbols (slotOf cls idx) (s.nvalAt (slotOf cls idx)).toNat) →
    ∃ t, exec (.build cls idx) s = .next t ∧ (∃ d, EndedWith (.invalidSpec d) s t) ∧
      (t.slot (slotOf cls idx)).built = false ∧ (t.slot (slotOf cls idx)).lutv = false ∧
      ∀ e, e.inTbl (slotOf cls idx) = true → t.cell e = none

/-- BUILD changes nothing outside its slot's table and flags, whether it ends OK or not (40_code_builder R103, R110). -/
def Obligations.BuildFrame : Prop := ∀ (cls : Cls) (idx : TableIdx) (s t : State),
  exec (.build cls idx) s = .next t →
    (∀ e, e.inTbl (slotOf cls idx) = false → t.cell e = s.cell e) ∧
    SameFlagsBut (· = slotOf cls idx) s t ∧ SamePredsBut (fun _ => False) s t ∧ SamePacker s t ∧ SameSink s t ∧
    SameHost s t

/-- BUILD is a function of the spec alone: slots that read equal specs end alike and get equal tables and flags, in whatever
states; it writes nothing outside its slot and the error registers, calls no sink write, and cannot raise OutputFailure
(40_code_builder R110). -/
def Obligations.BuildDependsOnTheSpecAlone : Prop := ∀ (cls cls' : Cls) (idx idx' : TableIdx) (s s' : State),
  s'.nvalAt (slotOf cls' idx') = s.nvalAt (slotOf cls idx) →
  s'.counts (slotOf cls' idx') = s.counts (slotOf cls idx) →
  s'.symbols (slotOf cls' idx') (s.nvalAt (slotOf cls idx)).toNat =
    s.symbols (slotOf cls idx) (s.nvalAt (slotOf cls idx)).toNat →
    ∃ t t', exec (.build cls idx) s = .next t ∧ exec (.build cls' idx') s' = .next t' ∧ t'.lasterr = t.lasterr ∧
      (t'.slot (slotOf cls' idx')).built = (t.slot (slotOf cls idx)).built ∧
      (t'.slot (slotOf cls' idx')).lutv = (t.slot (slotOf cls idx)).lutv ∧
      (∀ k, t'.cell (.code (slotOf cls' idx') k) = t.cell (.code (slotOf cls idx) k) ∧
        t'.cell (.len (slotOf cls' idx') k) = t.cell (.len (slotOf cls idx) k)) ∧
      (∀ e, e.inTbl (slotOf cls idx) = false → t.cell e = s.cell e) ∧
      SameFlagsBut (· = slotOf cls idx) s t ∧ SamePredsBut (fun _ => False) s t ∧ SamePacker s t ∧ SameSink s t ∧
      SameHost s t ∧ t.lasterr.extractLsb' 0 8 ≠ 3

/-- A table built from a spec is canonical and prefix-free: lengths 1..16 in non-decreasing order, codes within their length,
equal lengths get consecutive codes, and no code is the first bits of a later one (10_state R26, 40_code_builder R108). -/
def Obligations.BuiltTableIsPrefixFree : Prop := ∀ x : Slot, x.TableOk →
  ∃ lens codes : List Nat, lens.length ≤ 256 ∧ codes.length = lens.length ∧
    (∀ k, k < 256 → Store.find? x.len k = some (BitVec.ofNat 8 (lens.getD k 0)) ∧
      Store.find? x.code k = some (BitVec.ofNat 16 (codes.getD k 0))) ∧
    (∀ k, k < lens.length → 1 ≤ lens.getD k 0 ∧ lens.getD k 0 ≤ 16 ∧ codes.getD k 0 < 2 ^ lens.getD k 0) ∧
    (∀ k, k + 1 < lens.length → lens.getD k 0 ≤ lens.getD (k + 1) 0 ∧
      (lens.getD k 0 = lens.getD (k + 1) 0 → codes.getD (k + 1) 0 = codes.getD k 0 + 1)) ∧
    ∀ j k, j < k → k < lens.length → codes.getD k 0 >>> (lens.getD k 0 - lens.getD j 0) ≠ codes.getD j 0

/-! ## BLDLUT -/

/-- BLDLUT of a built slot ends OK, sets lutv, and writes for each length -1, -1, 0 where the length has no codes, else the
code at the length's first position, the code at its last, and the first position less the first code (41_decoder_lookup
R130, R132). The 0 of PTR at a length with no codes is a choice, the spec's decision D12 (Log 10). For a slot built from
never-written BITS it is the model's choice that the counts are read anew and that a CODE past 255 is a free value (Log 21). -/
def Obligations.BldlutWritesEveryLength : Prop := ∀ (cls : Cls) (idx : TableIdx) (s : State) (n : SlotId)
    (counts : List Nat),
  n = slotOf cls idx → counts = s.counts n → (s.slot n).built = true →
    ∃ t, exec (.bldlut cls idx) s = .next t ∧ EndedOk s t ∧ (t.slot n).lutv = true ∧ (t.slot n).built = true ∧
      ∀ L, 1 ≤ L → L ≤ 16 →
        if counts.getD (L - 1) 0 = 0 then
          t.cell (.lutMin n L) = some (BitVec.ofInt 32 (-1)) ∧ t.cell (.lutMax n L) = some (BitVec.ofInt 32 (-1)) ∧
            t.cell (.lutPtr n L) = some 0
        else
          t.cell (.lutMin n L) = some ((s.codeAt n (codeBase counts L)).setWidth 32) ∧
          t.cell (.lutMax n L) = some ((s.codeAt n (codeBase counts L + counts.getD (L - 1) 0 - 1)).setWidth 32) ∧
          t.cell (.lutPtr n L) =
            some (BitVec.ofInt 32 ((codeBase counts L : Int) - (s.codeAt n (codeBase counts L)).toNat))

/-- BLDLUT of a slot that is not built raises TableNotBuilt with the slot and changes nothing but the error registers
(41_decoder_lookup R130, 60_exceptions R227). -/
def Obligations.BldlutNeedsABuiltTable : Prop := ∀ (cls : Cls) (idx : TableIdx) (s : State),
  (s.slot (slotOf cls idx)).built = false →
    ∃ t, exec (.bldlut cls idx) s = .next t ∧ EndedWith (.tableNotBuilt (slotOf cls idx)) s t ∧
      OnlyErrorRegisters s t

/-- BLDLUT changes nothing outside its slot's lookup and lutv (41_decoder_lookup R130). -/
def Obligations.BldlutFrame : Prop := ∀ (cls : Cls) (idx : TableIdx) (s t : State),
  exec (.bldlut cls idx) s = .next t →
    (∀ e, e.inLut (slotOf cls idx) = false → t.cell e = s.cell e) ∧
    SameFlagsBut (· = slotOf cls idx) s t ∧ (∀ m, (t.slot m).built = (s.slot m).built) ∧
    SamePredsBut (fun _ => False) s t ∧ SamePacker s t ∧ SameSink s t ∧ SameHost s t

/-- LDSTD or a host's spec, then BUILD and BLDLUT: from a slot whose held spec is well formed the two commands leave it ready
for encoding and for the reference decoder (70_reset R262, 10_state R34, R35). PTR = 0 at a length with no codes is a choice,
the spec's decision D12 (Log 10). -/
def Obligations.BuildThenBldlutMakesTheSlotReady : Prop := ∀ (cls : Cls) (idx : TableIdx) (s : State) (n : SlotId),
  n = slotOf cls idx → s.SpecHeld n →
  SpecOk (s.nvalAt n).toNat (s.counts n) (s.symbols n (s.nvalAt n).toNat) →
    ∃ t u, exec (.build cls idx) s = .next t ∧ exec (.bldlut cls idx) t = .next u ∧ u.SlotReady n ∧
      (u.slot n).lutv = true

/-! ## PUTBITS, FLUSH, PKRST -/

/-- PUTBITS of at most 16 bits on an ACTIVE packer, the sink accepting: it ends OK, exactly the code's low bits enter the
stream, most significant first, and at most 7 bits stay buffered over zeros (42_bit_packer R151, R152, R155). -/
def Obligations.PutbitsEntersItsBits : Prop := ∀ (code : BitVec 16) (length : BitVec 8) (s : State),
  s.pkMode = .active → s.PackerOk → s.SinkAccepts → length.toNat ≤ 16 →
    ∃ t, exec (.putbits code length) s = .next t ∧ EndedOk s t ∧ t.pkMode = .active ∧ t.PackerOk ∧
      Emits s t (msbBits length.toNat code.toNat)

/-- PUTBITS with length 0 on an ACTIVE packer changes nothing but LASTERR, whatever the code (42_bit_packer R152). -/
def Obligations.PutbitsOfNoBitsIsANoop : Prop := ∀ (code : BitVec 16) (s : State), s.pkMode = .active →
  ∃ t, exec (.putbits code 0) s = .next t ∧ EndedOk s t ∧ OnlyErrorRegisters s t

/-- PUTBITS checks the packer first and the length second; either fault changes nothing but the error registers
(42_bit_packer R152, 60_exceptions R223, R226, R232). -/
def Obligations.PutbitsAdmission : Prop := ∀ (code : BitVec 16) (length : BitVec 8) (s : State),
  ∃ t, exec (.putbits code length) s = .next t ∧
    (s.pkMode ≠ .active → EndedWith (.packerClosed s.pkMode) s t ∧ OnlyErrorRegisters s t) ∧
    (s.pkMode = .active → length.toNat > 16 → EndedWith (.invalidCodeLength length) s t ∧ OnlyErrorRegisters s t)

/-- FLUSH on an ACTIVE packer, the sink accepting: no byte where nothing is buffered, else one byte whose top bits are the
buffered ones and whose low bits are 0 (so never 0xFF, never stuffed); the packer is then empty and FLUSHED (42_bit_packer
R153, 30_encoding R88). The zero fill is the spec's decision D8 (Log 9). -/
def Obligations.FlushWritesTheFinalByte : Prop := ∀ s : State, s.pkMode = .active → s.PackerOk → s.SinkAccepts →
  ∃ t, exec .flush s = .next t ∧ EndedOk s t ∧ t.pkReg = 0 ∧ t.pkCnt = 0 ∧ t.pkMode = .flushed ∧
    (s.pkCnt = 0 → t.stream = s.stream) ∧
    (s.pkCnt ≠ 0 → ∃ b : Byte, t.stream = s.stream ++ [b] ∧
      byteBits b = s.pending ++ List.replicate (8 - s.pkCnt.toNat) false)

/-- FLUSH on a packer that is not ACTIVE raises PackerClosed and changes nothing but the error registers (42_bit_packer
R153, 60_exceptions R226). -/
def Obligations.FlushNeedsAnActivePacker : Prop := ∀ s : State, s.pkMode ≠ .active →
  ∃ t, exec .flush s = .next t ∧ EndedWith (.packerClosed s.pkMode) s t ∧ OnlyErrorRegisters s t

/-- PKRST ends OK in every mode with the packer empty and ACTIVE, and writes nothing to the sink (42_bit_packer R154). -/
def Obligations.PkrstReopensThePacker : Prop := ∀ s : State,
  decode 0x60000000 = .ok .pkrst ∧
  ∃ t, exec .pkrst s = .next t ∧ EndedOk s t ∧ t.pkReg = 0 ∧ t.pkCnt = 0 ∧ t.pkMode = .active ∧ SameSink s t ∧
    SameStores s t ∧ SameFlagsBut (fun _ => False) s t ∧ SamePredsBut (fun _ => False) s t ∧ SameHost s t

/-- PUTBITS, FLUSH and PKRST change no store, no slot flag, no predictor and nothing of the host's (42_bit_packer R152 to
R154). -/
def Obligations.PackerCommandsFrame : Prop := ∀ (i : Instr) (s t : State),
  ((∃ code length, i = .putbits code length) ∨ i = .flush ∨ i = .pkrst) → exec i s = .next t →
    SameStores s t ∧ SameFlagsBut (fun _ => False) s t ∧ SamePredsBut (fun _ => False) s t ∧ SameHost s t

/-- A byte the sink refuses, any byte of any command: `bytes` are those the command writes where every one is accepted. The
first refused, the n-th, ends the command with OutputFailure and the packer FAILED, the bytes before it stay, it is not
appended, and no further byte is attempted; where all are accepted, the answers beyond them are not asked for and change
nothing. Then three cases spelled out: a refused first byte of PUTBITS and of FLUSH, and a refused stuffing byte, after which a
0xFF stays bare (42_bit_packer R150, R156, 60_exceptions R224). The list of the sink's answers is the model's own (Log 5). -/
def Obligations.SinkRefusalFailsThePacker : Prop :=
  (∀ (i : Instr) (s u : State), exec i { s with sinkAnswers := [] } = .next u →
    ∃ bytes, u.stream = s.stream ++ bytes ∧
      (∀ n rest, n < bytes.length → s.sinkAnswers = List.replicate n true ++ false :: rest →
        ∃ t, exec i s = .next t ∧ EndedWith .outputFailure s t ∧ t.pkMode = .failed ∧
          t.stream = s.stream ++ bytes.take n ∧ t.sinkAnswers = rest) ∧
      ((∀ a ∈ s.sinkAnswers.take bytes.length, a = true) →
        exec i s = .next { u with sinkAnswers := s.sinkAnswers.drop bytes.length })) ∧
  (∀ (code : BitVec 16) (length : BitVec 8) (s : State) (rest : List Bool),
    s.pkMode = .active → length.toNat ≤ 16 → 8 ≤ s.pkCnt.toNat + length.toNat → length ≠ 0 →
    s.sinkAnswers = false :: rest →
      ∃ t, exec (.putbits code length) s = .next t ∧ EndedWith .outputFailure s t ∧ t.pkMode = .failed ∧
        t.stream = s.stream ∧ t.sinkAnswers = rest) ∧
  (∀ (s : State) (rest : List Bool), s.pkMode = .active → s.pkCnt ≠ 0 → s.sinkAnswers = false :: rest →
    ∃ t, exec .flush s = .next t ∧ EndedWith .outputFailure s t ∧ t.pkMode = .failed ∧ t.stream = s.stream ∧
      t.sinkAnswers = rest) ∧
  ∀ (s : State) (rest : List Bool), s.pkMode = .active → s.pkCnt = 0 → s.pkReg = 0 →
    s.sinkAnswers = true :: false :: rest →
      ∃ t, exec (.putbits 0xFF 8) s = .next t ∧ EndedWith .outputFailure s t ∧ t.pkMode = .failed ∧
        t.stream = s.stream ++ [0xFF] ∧ t.sinkAnswers = rest

/-- What any command adds to the stream is data bytes, with 0x00 after each 0xFF and after no other of them; only where the
sink refused a stuffing byte, and the command ended with OutputFailure, is the last data byte a bare 0xFF. From a state that
meets the invariant the data bytes are the bits buffered before and then the bits the command puts, in order and from their
start, so that the 0x00 bytes are added to them and carry none; on an ACTIVE packer with the sink accepting they are all of
those bits that fill whole bytes (30_encoding R87, R88, 42_bit_packer R150, R152, R153, R155, 43_block_encoder R180 to R184).
The bits a FLUSH puts are its zero fill, which is a choice, the spec's decision D8 (Log 9). For a slot built from never-written
VAL or NVAL, which entry a symbol of an ENCBLK has is the model's choice (Log 22). -/
def Obligations.EveryCommandStuffsItsBytes : Prop := ∀ (i : Instr) (s t : State), exec i s = .next t →
  ∃ data,
    (t.stream = s.stream ++ stuffed data ∨ t.lasterr = 3 ∧ t.pkMode = .failed ∧
      ∃ whole, data = whole ++ [0xFF] ∧ t.stream = s.stream ++ stuffed whole ++ [0xFF]) ∧
    (s.Inv → data.flatMap byteBits <+: s.pending ++ s.bitsPut i) ∧
    (s.Inv → s.pkMode = .active → s.SinkAccepts →
      t.stream = s.stream ++ stuffed data ∧ data.length = (s.pkCnt.toNat + (s.bitsPut i).length) / 8)

/-! ## ENCBLK and SCANRST -/

/-- ENCBLK on two built slots and an ACTIVE packer, the sink accepting: when the tables hold every symbol the block needs and
no AC category is above 15, it ends OK, exactly the bits of the block's layout enter the stream, and the predictor becomes
COEF[0] (43_block_encoder R180 to R184, 30_encoding R89). For a slot built from never-written VAL or NVAL, which entry a symbol
has is the model's choice (Log 22). -/
def Obligations.EncblkEmitsTheBlock : Prop := ∀ (comp : Comp) (dcidx acidx : TableIdx) (s : State) (bits : List Bool),
  (s.slot (slotOf .dc dcidx)).built = true → (s.slot (slotOf .ac acidx)).built = true →
  (s.slot (slotOf .dc dcidx)).TableOk → (s.slot (slotOf .ac acidx)).TableOk →
  s.pkMode = .active → s.PackerOk → s.SinkAccepts → s.PredsInRange →
  blockBits (s.book (slotOf .dc dcidx)) (s.book (slotOf .ac acidx)) (s.diff comp) s.acScan = some bits →
    ∃ t, exec (.encblk comp dcidx acidx) s = .next t ∧ EndedOk s t ∧ t.pkMode = .active ∧ t.PackerOk ∧
      Emits s t bits ∧ t.pred comp = (s.coefAt 0).signExtend 32

/-- DOC's all-zero block: DC code of category 0, end-of-block, no ZRL (43_block_encoder R188 (a)). For a slot built from
never-written VAL or NVAL, which entry a symbol has is the model's choice (Log 22). -/
def Obligations.EncblkOfTheZeroBlock : Prop := ∀ (comp : Comp) (dcidx acidx : TableIdx) (s : State)
    (c0 c1 : BitVec 16) (l0 l1 : BitVec 8),
  (s.slot (slotOf .dc dcidx)).built = true → (s.slot (slotOf .ac acidx)).built = true →
  s.pkMode = .active → s.PackerOk → s.SinkAccepts → s.pred comp = 0 → (∀ i, i < 64 → s.coefAt i = 0) →
  s.enc (slotOf .dc dcidx) 0 = some (c0, l0) → s.enc (slotOf .ac acidx) 0 = some (c1, l1) →
  l0.toNat ≤ 16 → l1.toNat ≤ 16 →
    ∃ t, exec (.encblk comp dcidx acidx) s = .next t ∧ EndedOk s t ∧
      Emits s t (msbBits l0.toNat c0.toNat ++ msbBits l1.toNat c1.toNat)

/-- ENCBLK's admission, in order: the DC slot, the AC slot, the packer; each fault changes nothing but the error registers, so
the predictor is not updated (43_block_encoder R180, 60_exceptions R226, R227, R232). -/
def Obligations.EncblkAdmission : Prop := ∀ (comp : Comp) (dcidx acidx : TableIdx) (s : State) (d a : SlotId),
  d = slotOf .dc dcidx → a = slotOf .ac acidx →
    ∃ t, exec (.encblk comp dcidx acidx) s = .next t ∧
      ((s.slot d).built = false → EndedWith (.tableNotBuilt d) s t ∧ OnlyErrorRegisters s t) ∧
      ((s.slot d).built = true → (s.slot a).built = false →
        EndedWith (.tableNotBuilt a) s t ∧ OnlyErrorRegisters s t) ∧
      ((s.slot d).built = true → (s.slot a).built = true → s.pkMode ≠ .active →
        EndedWith (.packerClosed s.pkMode) s t ∧ OnlyErrorRegisters s t)

/-- A DC category the table lacks: SymbolNotInTable with the slot and the symbol, no byte written, the packer FAILED, the
predictor already updated (43_block_encoder R181, R182, R185, 60_exceptions R228). For a slot built from never-written VAL or
NVAL, which entry a symbol has is the model's choice (Log 22). -/
def Obligations.EncblkMissingDcSymbol : Prop := ∀ (comp : Comp) (dcidx acidx : TableIdx) (s : State) (d : SlotId),
  d = slotOf .dc dcidx → (s.slot d).built = true → (s.slot (slotOf .ac acidx)).built = true → s.pkMode = .active →
  s.enc d (cat (s.diff comp)) = none →
    ∃ t, exec (.encblk comp dcidx acidx) s = .next t ∧
      EndedWith (.symbolNotInTable d (cat (s.diff comp))) s t ∧ t.pkMode = .failed ∧ SameSink s t ∧
      t.pred comp = (s.coefAt 0).signExtend 32

/-- The first nonzero AC coefficient, after `r` zeros: from 16 zeros on, a missing ZRL raises SymbolNotInTable with 0xF0, before
the range check; then -32768 raises CoefRange at its scan position, before any lookup; then a run/category symbol the table
lacks raises SymbolNotInTable with it. A block with no nonzero AC coefficient, where the table lacks end-of-block, raises
SymbolNotInTable with 0x00 (43_block_encoder R183, R184, R185, 60_exceptions R228, R229, R232). For a slot built from
never-written VAL or NVAL, which entry a symbol has is the model's choice (Log 22). -/
def Obligations.EncblkFirstCoefficientFaults : Prop := ∀ (comp : Comp) (dcidx acidx : TableIdx) (s : State) (a : SlotId)
    (dc : BitVec 16 × BitVec 8),
  a = slotOf .ac acidx → (s.slot (slotOf .dc dcidx)).built = true → (s.slot a).built = true → s.pkMode = .active →
  s.SinkAccepts → s.enc (slotOf .dc dcidx) (cat (s.diff comp)) = some dc →
    ∃ t, exec (.encblk comp dcidx acidx) s = .next t ∧
      (∀ (r : Nat) (v : Int), r < 63 → (∀ j, j < r → s.acScan.getD j 0 = 0) → s.acScan.getD r 0 = v → v ≠ 0 →
        (16 ≤ r → s.enc a 0xF0 = none → EndedWith (.symbolNotInTable a 0xF0) s t ∧ t.pkMode = .failed) ∧
        (r < 16 ∨ (s.enc a 0xF0).isSome →
          (v = -32768 → EndedWith (.coefRange (r + 1)) s t ∧ t.pkMode = .failed) ∧
          (v ≠ -32768 → s.enc a (16 * (r % 16) + cat v) = none →
            EndedWith (.symbolNotInTable a (16 * (r % 16) + cat v)) s t ∧ t.pkMode = .failed))) ∧
      ((∀ j, j < 63 → s.acScan.getD j 0 = 0) → s.enc a 0x00 = none →
        EndedWith (.symbolNotInTable a 0x00) s t ∧ t.pkMode = .failed)

/-- A fault in the body of ENCBLK: its cause is OutputFailure, SymbolNotInTable or CoefRange, the predictor already holds
COEF[0], the bytes accepted stay, and the packer is FAILED. Where the sink accepts, the command ends at the first fault the
body reaches, at whatever coefficient or at the end of the block, with that fault's cause, and OK where it reaches none
(43_block_encoder R181 to R185, 60_exceptions R228, R229, R232). For a slot built from never-written VAL or NVAL, which entry a
symbol has is the model's choice (Log 22). -/
def Obligations.EncblkBodyFaultFailsThePacker : Prop := ∀ (comp : Comp) (dcidx acidx : TableIdx) (s : State),
  (s.slot (slotOf .dc dcidx)).built = true → (s.slot (slotOf .ac acidx)).built = true → s.pkMode = .active →
    ∃ t, exec (.encblk comp dcidx acidx) s = .next t ∧ t.pred comp = (s.coefAt 0).signExtend 32 ∧
      (∃ bytes, t.stream = s.stream ++ bytes) ∧
      (t.lasterr ≠ 0 → t.pkMode = .failed ∧
        ∃ c : Cause, EndedWith c s t ∧ (c.code = 3 ∨ c.code = 7 ∨ c.code = 8)) ∧
      (s.SinkAccepts →
        match (s.blockLayout comp (slotOf .dc dcidx) (slotOf .ac acidx)).2 with
        | none => EndedOk s t ∧ t.pkMode = .active
        | some c => EndedWith c s t ∧ t.pkMode = .failed)

/-- ENCBLK changes no store, COEF among them, no slot flag, no predictor but its component's, and nothing of the host's
(43_block_encoder R180). -/
def Obligations.EncblkFrame : Prop := ∀ (comp : Comp) (dcidx acidx : TableIdx) (s t : State),
  exec (.encblk comp dcidx acidx) s = .next t →
    SameStores s t ∧ SameFlagsBut (fun _ => False) s t ∧ SamePredsBut (· = comp) s t ∧ SameHost s t

/-- SCANRST clears exactly the predictors its mask selects, ends OK in every packer mode, and changes nothing else
(43_block_encoder R187). -/
def Obligations.ScanrstClearsTheSelectedPredictors : Prop := ∀ (mask : BitVec 4) (s : State),
  decode (BitVec.ofNat 32 (0x80000000 + mask.toNat * 2 ^ 24)) = .ok (.scanrst mask) ∧
  ∃ t, exec (.scanrst mask) s = .next t ∧ EndedOk s t ∧
    (∀ c : Comp, t.pred c = if mask.getLsbD c.val then 0 else s.pred c) ∧
    SameStores s t ∧ SameFlagsBut (fun _ => False) s t ∧ SamePacker s t ∧ SameSink s t ∧ SameHost s t

/-! ## Categories, magnitude bits and the reference decoder -/

/-- `cat(v)` is 0 for 0 and else the one c >= 1 with 2^(c-1) <= |v| < 2^c (30_encoding R84). -/
def Obligations.CategoryIsTheBitLength : Prop := cat 0 = 0 ∧ ∀ v : Int, v ≠ 0 →
  1 ≤ cat v ∧ 2 ^ (cat v - 1) ≤ v.natAbs ∧ v.natAbs < 2 ^ cat v ∧
    ∀ c, 1 ≤ c → 2 ^ (c - 1) ≤ v.natAbs → v.natAbs < 2 ^ c → c = cat v

/-- Magnitude bits: the value itself for a positive one, 2^c - 1 - |v| for a negative one, so the top bit tells the sign
(30_encoding R85). -/
def Obligations.MagnitudeBitsTellTheSign : Prop := ∀ v : Int, v ≠ 0 →
  (0 < v → (magbits v (cat v) : Int) = v ∧ 2 ^ (cat v - 1) ≤ magbits v (cat v)) ∧
  (v < 0 → (magbits v (cat v) : Int) = 2 ^ cat v - 1 - v.natAbs ∧ magbits v (cat v) < 2 ^ (cat v - 1))

/-- `Extend` recovers every value from its category and magnitude bits (41_decoder_lookup R135). -/
def Obligations.ExtendUndoesMagnitudeBits : Prop := ∀ v : Int, extend (magbits v (cat v)) (cat v) = v

/-- Decoding a code word of a ready slot gives its symbol back and consumes exactly the word (41_decoder_lookup R134,
40_code_builder R108). -/
def Obligations.DecodingACodeGivesItsSymbol : Prop := ∀ (s : State) (n : SlotId) (sym : Nat) (code : BitVec 16)
    (length : BitVec 8) (rest : List Bool),
  s.SlotReady n → s.enc n sym = some (code, length) →
    decodeSymbol s n (msbBits length.toNat code.toNat ++ rest) = some (sym, rest)

/-- DOC's round trip: the bits an ENCBLK that ends OK enters decode to the block, with the predictor continued
(41_decoder_lookup R136). The reference decoder is no part of the core (Log 20). -/
def Obligations.BlockRoundTrip : Prop := ∀ (comp : Comp) (dcidx acidx : TableIdx) (s : State),
  s.SlotReady (slotOf .dc dcidx) → s.SlotReady (slotOf .ac acidx) →
  s.pkMode = .active → s.PackerOk → s.SinkAccepts → s.PredsInRange →
    ∃ t, exec (.encblk comp dcidx acidx) s = .next t ∧
      (t.lasterr = 0 → ∃ bits, Emits s t bits ∧ ∀ rest,
        decodeBlock s (s.pred comp).toInt (slotOf .dc dcidx) (slotOf .ac acidx) (bits ++ rest) =
          some (s.block, (s.coefAt 0).toInt, rest))

/-! ## The host port -/

/-- What the host writes to COEF or SPEC it reads back cut to the element's width, sign-extended for COEF and zero-extended
for the others; a write to COEF has no side effect: no other element, no flag, no register, and not the host's last read word
changes (20_memory R51, R53, R55). -/
def Obligations.HostReadsBackItsWrites : Prop := ∀ (s : State) (e : Element) (data : Word) (rest : List HostAction),
  s.host = .write e.addr data :: .read e.addr :: rest → Element.ofAddr e.addr = some e →
    ∃ t u, step s = .next t ∧ step t = .next u ∧
      ((∃ i, e = .coef i) → (∀ e', e' ≠ e → t.cell e' = s.cell e') ∧ SameFlagsBut (fun _ => False) s t ∧
        SamePredsBut (fun _ => False) s t ∧ SamePacker s t ∧ SameSink s t ∧ t.lasterr = s.lasterr ∧
        t.errstat = s.errstat ∧ t.hostData = s.hostData ∧ t.host = .read e.addr :: rest) ∧
      ((∃ i, e = .coef i) → u.hostData = (data.extractLsb' 0 16).signExtend 32) ∧
      ((∃ n i, e = .bits n i) → u.hostData = (data.extractLsb' 0 8).setWidth 32) ∧
      ((∃ n, e = .nval n) → u.hostData = (data.extractLsb' 0 16).setWidth 32) ∧
      ((∃ n k, e = .val n k) → u.hostData = (data.extractLsb' 0 16).setWidth 32)

/-- A host write to any element of SPEC[n] clears built and lutv of slot n, whatever the value, and changes no other element,
no other flag and nothing else of the core (20_memory R55). -/
def Obligations.SpecWritesUnbuildTheSlot : Prop := ∀ (s : State) (n : SlotId) (e : Element) (data : Word)
    (rest : List HostAction),
  s.host = .write e.addr data :: rest → Element.ofAddr e.addr = some e → e.inSpec n = true →
    ∃ t, step s = .next t ∧ (t.slot n).built = false ∧ (t.slot n).lutv = false ∧
      (∀ e', e' ≠ e → t.cell e' = s.cell e') ∧ SameFlagsBut (· = n) s t ∧ SamePredsBut (fun _ => False) s t ∧
      SamePacker s t ∧ SameSink s t ∧ t.lasterr = s.lasterr ∧ t.errstat = s.errstat ∧ t.hostData = s.hostData ∧
      t.host = rest

/-- A host read of a mapped element gives its word and has no side effect on the core: the value an element of a store holds,
the registers of the core by number, 0 for a reserved number (20_memory R53, R55, 10_state R39). -/
def Obligations.HostReadsHaveNoSideEffect : Prop := ∀ (s : State) (a : Nat) (e : Element) (rest : List HostAction),
  s.host = .read a :: rest → Element.ofAddr a = some e →
    ∃ t, step s = .next t ∧ t = { s with host := rest, hostData := t.hostData, draws := t.draws } ∧
      (∀ v, s.cell e = some v → t.hostData = v) ∧
      (e = .csr 0 → t.hostData = s.status) ∧ (e = .csr 1 → t.hostData = s.lasterr) ∧
      (e = .csr 2 → t.hostData = s.errstat) ∧ (e = .csr 3 → t.hostData = s.pkReg) ∧
      (e = .csr 4 → t.hostData = s.pkCnt.setWidth 32) ∧ (∀ c : Comp, e = .csr (8 + c.val) → t.hostData = s.pred c) ∧
      (∀ n, (n = 5 ∨ n = 6 ∨ n = 7 ∨ 12 ≤ n) → e = .csr n → t.hostData = 0) ∧
      ∀ k, e = .zigzag k → t.hostData = BitVec.ofNat 32 (Config.zigzag.getD k 0)

/-- A host write to a read-only element, a register, ZIGZAG, TBL or LUT, has no effect (20_memory R56, 10_state R39). -/
def Obligations.ReadOnlyWritesHaveNoEffect : Prop := ∀ (s : State) (a : Nat) (e : Element) (data : Word)
    (rest : List HostAction),
  s.host = .write a data :: rest → Element.ofAddr a = some e →
  (∀ n, e.inSpec n = false) → (∀ i, e ≠ .coef i) →
    ∃ t, step s = .next t ∧ t = { s with host := rest, draws := t.draws }

/-- The address map names exactly the spec's elements, each at its own address and at no other; the ranges are spelled out
(20_memory R51). -/
def Obligations.AddressMapIsExact : Prop :=
  (∀ a e, Element.ofAddr a = some e ↔ e.InRange ∧ e.addr = a) ∧
  (∀ i, i < 16 → Element.ofAddr i = some (.csr i)) ∧
  (∀ i, i < 64 → Element.ofAddr (0x40 + i) = some (.coef i) ∧ Element.ofAddr (0x80 + i) = some (.zigzag i)) ∧
  ∀ n : SlotId,
    Element.ofAddr (slotBase n + 0x10) = some (.nval n) ∧
    (∀ i, i < 16 → Element.ofAddr (slotBase n + i) = some (.bits n i)) ∧
    (∀ L, 1 ≤ L → L ≤ 16 → Element.ofAddr (slotBase n + 0x20 + (L - 1)) = some (.lutMin n L) ∧
      Element.ofAddr (slotBase n + 0x30 + (L - 1)) = some (.lutMax n L) ∧
      Element.ofAddr (slotBase n + 0x40 + (L - 1)) = some (.lutPtr n L)) ∧
    ∀ k, k < 256 → Element.ofAddr (slotBase n + 0x100 + k) = some (.val n k) ∧
      Element.ofAddr (slotBase n + 0x200 + k) = some (.code n k) ∧
      Element.ofAddr (slotBase n + 0x300 + k) = some (.len n k)

/-- STATUS, register number 0, read-only, shows the packer's mode in bits 1:0, built[s] in bit 4+s, lutv[s] in bit 8+s, and 0
elsewhere (10_state R36). -/
def Obligations.StatusShowsTheFlags : Prop := ∀ s : State,
  Element.ofAddr 0 = some (.csr 0) ∧ s.hostRead (.csr 0) = s.status ∧ (∀ w, s.hostWrite (.csr 0) w = s) ∧
  (s.status.extractLsb' 0 2).toNat = s.pkMode.num ∧
  (∀ n : SlotId, s.status.getLsbD (4 + n.val) = (s.slot n).built ∧ s.status.getLsbD (8 + n.val) = (s.slot n).lutv) ∧
  ∀ i, (i = 2 ∨ i = 3 ∨ 12 ≤ i) → s.status.getLsbD i = false

/-! ## Reset -/

/-- Hardware reset between commands: every store unspecified, every flag and register at its reset value, the sink's bytes
kept (10_state R41, 70_reset R260). The sink's bytes and the host's actions are no part of the core (Log 11). -/
def Obligations.HardwareResetLeavesTheResetState : Prop := ∀ (s : State) (rest : List HostAction),
  s.host = .reset :: rest →
    ∃ t, step s = .next t ∧ (∀ e, t.cell e = none) ∧ (∀ n, (t.slot n).built = false ∧ (t.slot n).lutv = false) ∧
      (∀ c, t.pred c = 0) ∧ t.pkReg = 0 ∧ t.pkCnt = 0 ∧ t.pkMode = .active ∧ t.lasterr = 0 ∧ t.errstat = 0 ∧
      t.stream = s.stream ∧ t.host = rest

/-- Hardware reset in the middle of a command: the same reset state, and the sink holds some prefix of the bytes the abandoned
command would have written (70_reset R260). How many bytes the sink took is the host action's own field, the model's choice
(Log 11). -/
def Obligations.ResetDuringACommandKeepsAPrefix : Prop := ∀ (s : State) (w : Word) (taken : Nat)
    (rest : List HostAction),
  s.host = .resetDuring w taken :: rest →
    ∃ t u, step s = .next t ∧ runCommand w { s with host := rest } = .next u ∧
      (∃ bytes after, t.stream = s.stream ++ bytes ∧ u.stream = t.stream ++ after ∧ bytes.length ≤ taken) ∧
      (∀ e, t.cell e = none) ∧ (∀ n, (t.slot n).built = false ∧ (t.slot n).lutv = false) ∧ (∀ c, t.pred c = 0) ∧
      t.pkReg = 0 ∧ t.pkCnt = 0 ∧ t.pkMode = .active ∧ t.lasterr = 0 ∧ t.errstat = 0

/-- The state after reset meets the invariant of the machine (10_state R41). -/
def Obligations.ResetMeetsTheInvariant : Prop := State.reset.Inv

/-! ## Rules of the whole machine -/

/-- Every step keeps the invariant: memory canonical, the ACTIVE packer within its bounds, built slots holding the table of
the spec they hold now, lutv implying built and a lookup of that table, predictors within a coefficient's range, error
registers within their codes (10_state R26, R30 to R32, R34, R35, R37, R38, 42_bit_packer R155). Memory's canonical form is the
model's own (Log 14), and PTR = 0 at a length with no codes a choice (Log 10). -/
def Obligations.EveryStepKeepsTheInvariant : Prop := ∀ s t : State, s.Inv → step s = .next t → t.Inv

/-- The output stream only grows (20_memory R57, R59). The stream is the sink's (Log 6). -/
def Obligations.TheStreamOnlyGrows : Prop := ∀ s t : State, step s = .next t → ∃ bytes, t.stream = s.stream ++ bytes

/-- ERRSTAT is sticky, only hardware reset clears a bit, and no command's behaviour depends on it (10_state R38). -/
def Obligations.ErrstatIsStickyAndUnread : Prop :=
  (∀ (s t : State) (i : Nat), step s = .next t → s.errstat.getLsbD i = true → t.errstat.getLsbD i = false →
    (∃ rest, s.host = .reset :: rest) ∨ ∃ w taken rest, s.host = .resetDuring w taken :: rest) ∧
  ∀ (i : Instr) (s : State) (x : Word), ∃ t y, exec i s = .next t ∧
    exec i { s with errstat := x } = .next { t with errstat := y }

/-- A packer that is not ACTIVE becomes so by PKRST and hardware reset only (10_state R33, 60_exceptions R226). -/
def Obligations.OnlyPkrstAndResetReopenThePacker : Prop := ∀ s t : State, step s = .next t → s.pkMode ≠ .active →
  t.pkMode = .active →
    (∃ w rest, s.host = .command w :: rest ∧ decode w = .ok .pkrst) ∨ (∃ rest, s.host = .reset :: rest) ∨
      ∃ w taken rest, s.host = .resetDuring w taken :: rest

/-- `built[n]` becomes 1 only by a BUILD of slot n that ends OK (10_state R34). -/
def Obligations.OnlyBuildSetsBuilt : Prop := ∀ (s t : State) (n : SlotId), step s = .next t →
  (s.slot n).built = false → (t.slot n).built = true →
    t.lasterr = 0 ∧ ∃ w rest cls idx, s.host = .command w :: rest ∧ decode w = .ok (.build cls idx) ∧
      slotOf cls idx = n

/-- Who writes the stores: SPEC the host and LDSTD, TBL only BUILD, LUT only BLDLUT, COEF only the host, each its own slot;
else only hardware reset (10_state R20, R25, R27, R28). -/
def Obligations.StoresAreWrittenByTheirOwners : Prop := ∀ (s t : State) (e : Element), step s = .next t →
  t.cell e ≠ s.cell e →
    (∃ rest, s.host = .reset :: rest) ∨ (∃ w taken rest, s.host = .resetDuring w taken :: rest) ∨
    (∃ data rest, s.host = .write e.addr data :: rest ∧ ((∃ n, e.inSpec n = true) ∨ ∃ i, e = .coef i)) ∨
    ∃ w rest i, s.host = .command w :: rest ∧ decode w = .ok i ∧
      ((∃ cls idx std, i = .ldstd cls idx std ∧ e.inSpec (slotOf cls idx) = true) ∨
        (∃ cls idx, i = .build cls idx ∧ e.inTbl (slotOf cls idx) = true) ∨
        ∃ cls idx, i = .bldlut cls idx ∧ e.inLut (slotOf cls idx) = true)

/-- No command reads the registers of a FAILED packer: whatever they hold, everything else of the next state is the same
(10_state R33; 93_implementation_defined U6; Log 4). -/
def Obligations.FailedPackerRegistersAreUnread : Prop := ∀ (i : Instr) (s : State) (r : Word) (c : BitVec 8),
  s.pkMode = .failed → ∃ t r' c', exec i s = .next t ∧
    exec i { s with pkReg := r, pkCnt := c } = .next { t with pkReg := r', pkCnt := c' }
end

