-- ==== Sys2Proof/Laws/State.lean ====
section
/-! SUPPORT. The small lemmas of the state's updates: one per field per update, then what each update does to the slots and
the predictors. -/

namespace Sys2Proof.Machine

variable (s : State)

/-! ## One lemma per field per update -/

@[simp] theorem State.setSlot_slots (n : SlotId) (x : Slot) : (s.setSlot n x).slots = s.slots.set n.val x := rfl
@[simp] theorem State.setSlot_coef (n : SlotId) (x : Slot) : (s.setSlot n x).coef = s.coef := rfl
@[simp] theorem State.setSlot_dcPred (n : SlotId) (x : Slot) : (s.setSlot n x).dcPred = s.dcPred := rfl
@[simp] theorem State.setSlot_pkReg (n : SlotId) (x : Slot) : (s.setSlot n x).pkReg = s.pkReg := rfl
@[simp] theorem State.setSlot_pkCnt (n : SlotId) (x : Slot) : (s.setSlot n x).pkCnt = s.pkCnt := rfl
@[simp] theorem State.setSlot_pkMode (n : SlotId) (x : Slot) : (s.setSlot n x).pkMode = s.pkMode := rfl
@[simp] theorem State.setSlot_lasterr (n : SlotId) (x : Slot) : (s.setSlot n x).lasterr = s.lasterr := rfl
@[simp] theorem State.setSlot_errstat (n : SlotId) (x : Slot) : (s.setSlot n x).errstat = s.errstat := rfl
@[simp] theorem State.setSlot_stream (n : SlotId) (x : Slot) : (s.setSlot n x).stream = s.stream := rfl
@[simp] theorem State.setSlot_sinkAnswers (n : SlotId) (x : Slot) : (s.setSlot n x).sinkAnswers = s.sinkAnswers := rfl
@[simp] theorem State.setSlot_host (n : SlotId) (x : Slot) : (s.setSlot n x).host = s.host := rfl
@[simp] theorem State.setSlot_hostData (n : SlotId) (x : Slot) : (s.setSlot n x).hostData = s.hostData := rfl
@[simp] theorem State.setSlot_draws (n : SlotId) (x : Slot) : (s.setSlot n x).draws = s.draws := rfl

@[simp] theorem State.setPred_slots (c : Comp) (v : Word) : (s.setPred c v).slots = s.slots := rfl
@[simp] theorem State.setPred_coef (c : Comp) (v : Word) : (s.setPred c v).coef = s.coef := rfl
@[simp] theorem State.setPred_dcPred (c : Comp) (v : Word) : (s.setPred c v).dcPred = s.dcPred.set c.val v := rfl
@[simp] theorem State.setPred_pkReg (c : Comp) (v : Word) : (s.setPred c v).pkReg = s.pkReg := rfl
@[simp] theorem State.setPred_pkCnt (c : Comp) (v : Word) : (s.setPred c v).pkCnt = s.pkCnt := rfl
@[simp] theorem State.setPred_pkMode (c : Comp) (v : Word) : (s.setPred c v).pkMode = s.pkMode := rfl
@[simp] theorem State.setPred_lasterr (c : Comp) (v : Word) : (s.setPred c v).lasterr = s.lasterr := rfl
@[simp] theorem State.setPred_errstat (c : Comp) (v : Word) : (s.setPred c v).errstat = s.errstat := rfl
@[simp] theorem State.setPred_stream (c : Comp) (v : Word) : (s.setPred c v).stream = s.stream := rfl
@[simp] theorem State.setPred_sinkAnswers (c : Comp) (v : Word) : (s.setPred c v).sinkAnswers = s.sinkAnswers := rfl
@[simp] theorem State.setPred_host (c : Comp) (v : Word) : (s.setPred c v).host = s.host := rfl
@[simp] theorem State.setPred_hostData (c : Comp) (v : Word) : (s.setPred c v).hostData = s.hostData := rfl
@[simp] theorem State.setPred_draws (c : Comp) (v : Word) : (s.setPred c v).draws = s.draws := rfl

@[simp] theorem State.unbuild_coef (n : SlotId) : (s.unbuild n).coef = s.coef := rfl
@[simp] theorem State.unbuild_dcPred (n : SlotId) : (s.unbuild n).dcPred = s.dcPred := rfl
@[simp] theorem State.unbuild_pkReg (n : SlotId) : (s.unbuild n).pkReg = s.pkReg := rfl
@[simp] theorem State.unbuild_pkCnt (n : SlotId) : (s.unbuild n).pkCnt = s.pkCnt := rfl
@[simp] theorem State.unbuild_pkMode (n : SlotId) : (s.unbuild n).pkMode = s.pkMode := rfl
@[simp] theorem State.unbuild_lasterr (n : SlotId) : (s.unbuild n).lasterr = s.lasterr := rfl
@[simp] theorem State.unbuild_errstat (n : SlotId) : (s.unbuild n).errstat = s.errstat := rfl
@[simp] theorem State.unbuild_stream (n : SlotId) : (s.unbuild n).stream = s.stream := rfl
@[simp] theorem State.unbuild_sinkAnswers (n : SlotId) : (s.unbuild n).sinkAnswers = s.sinkAnswers := rfl
@[simp] theorem State.unbuild_host (n : SlotId) : (s.unbuild n).host = s.host := rfl
@[simp] theorem State.unbuild_hostData (n : SlotId) : (s.unbuild n).hostData = s.hostData := rfl
@[simp] theorem State.unbuild_draws (n : SlotId) : (s.unbuild n).draws = s.draws := rfl

@[simp] theorem State.setBuilt_coef (n : SlotId) : (s.setBuilt n).coef = s.coef := rfl
@[simp] theorem State.setBuilt_dcPred (n : SlotId) : (s.setBuilt n).dcPred = s.dcPred := rfl
@[simp] theorem State.setBuilt_pkReg (n : SlotId) : (s.setBuilt n).pkReg = s.pkReg := rfl
@[simp] theorem State.setBuilt_pkCnt (n : SlotId) : (s.setBuilt n).pkCnt = s.pkCnt := rfl
@[simp] theorem State.setBuilt_pkMode (n : SlotId) : (s.setBuilt n).pkMode = s.pkMode := rfl
@[simp] theorem State.setBuilt_lasterr (n : SlotId) : (s.setBuilt n).lasterr = s.lasterr := rfl
@[simp] theorem State.setBuilt_errstat (n : SlotId) : (s.setBuilt n).errstat = s.errstat := rfl
@[simp] theorem State.setBuilt_stream (n : SlotId) : (s.setBuilt n).stream = s.stream := rfl
@[simp] theorem State.setBuilt_sinkAnswers (n : SlotId) : (s.setBuilt n).sinkAnswers = s.sinkAnswers := rfl
@[simp] theorem State.setBuilt_host (n : SlotId) : (s.setBuilt n).host = s.host := rfl
@[simp] theorem State.setBuilt_hostData (n : SlotId) : (s.setBuilt n).hostData = s.hostData := rfl
@[simp] theorem State.setBuilt_draws (n : SlotId) : (s.setBuilt n).draws = s.draws := rfl

@[simp] theorem State.setLutv_coef (n : SlotId) : (s.setLutv n).coef = s.coef := rfl
@[simp] theorem State.setLutv_dcPred (n : SlotId) : (s.setLutv n).dcPred = s.dcPred := rfl
@[simp] theorem State.setLutv_pkReg (n : SlotId) : (s.setLutv n).pkReg = s.pkReg := rfl
@[simp] theorem State.setLutv_pkCnt (n : SlotId) : (s.setLutv n).pkCnt = s.pkCnt := rfl
@[simp] theorem State.setLutv_pkMode (n : SlotId) : (s.setLutv n).pkMode = s.pkMode := rfl
@[simp] theorem State.setLutv_lasterr (n : SlotId) : (s.setLutv n).lasterr = s.lasterr := rfl
@[simp] theorem State.setLutv_errstat (n : SlotId) : (s.setLutv n).errstat = s.errstat := rfl
@[simp] theorem State.setLutv_stream (n : SlotId) : (s.setLutv n).stream = s.stream := rfl
@[simp] theorem State.setLutv_sinkAnswers (n : SlotId) : (s.setLutv n).sinkAnswers = s.sinkAnswers := rfl
@[simp] theorem State.setLutv_host (n : SlotId) : (s.setLutv n).host = s.host := rfl
@[simp] theorem State.setLutv_hostData (n : SlotId) : (s.setLutv n).hostData = s.hostData := rfl
@[simp] theorem State.setLutv_draws (n : SlotId) : (s.setLutv n).draws = s.draws := rfl

@[simp] theorem State.putTable_coef (n : SlotId) (t : CodeTable) : (s.putTable n t).coef = s.coef := rfl
@[simp] theorem State.putTable_dcPred (n : SlotId) (t : CodeTable) : (s.putTable n t).dcPred = s.dcPred := rfl
@[simp] theorem State.putTable_pkReg (n : SlotId) (t : CodeTable) : (s.putTable n t).pkReg = s.pkReg := rfl
@[simp] theorem State.putTable_pkCnt (n : SlotId) (t : CodeTable) : (s.putTable n t).pkCnt = s.pkCnt := rfl
@[simp] theorem State.putTable_pkMode (n : SlotId) (t : CodeTable) : (s.putTable n t).pkMode = s.pkMode := rfl
@[simp] theorem State.putTable_lasterr (n : SlotId) (t : CodeTable) : (s.putTable n t).lasterr = s.lasterr := rfl
@[simp] theorem State.putTable_errstat (n : SlotId) (t : CodeTable) : (s.putTable n t).errstat = s.errstat := rfl
@[simp] theorem State.putTable_stream (n : SlotId) (t : CodeTable) : (s.putTable n t).stream = s.stream := rfl
@[simp] theorem State.putTable_sinkAnswers (n : SlotId) (t : CodeTable) : (s.putTable n t).sinkAnswers = s.sinkAnswers := rfl
@[simp] theorem State.putTable_host (n : SlotId) (t : CodeTable) : (s.putTable n t).host = s.host := rfl
@[simp] theorem State.putTable_hostData (n : SlotId) (t : CodeTable) : (s.putTable n t).hostData = s.hostData := rfl
@[simp] theorem State.putTable_draws (n : SlotId) (t : CodeTable) : (s.putTable n t).draws = s.draws := rfl

@[simp] theorem State.forgetTable_coef (n : SlotId) : (s.forgetTable n).coef = s.coef := rfl
@[simp] theorem State.forgetTable_dcPred (n : SlotId) : (s.forgetTable n).dcPred = s.dcPred := rfl
@[simp] theorem State.forgetTable_pkReg (n : SlotId) : (s.forgetTable n).pkReg = s.pkReg := rfl
@[simp] theorem State.forgetTable_pkCnt (n : SlotId) : (s.forgetTable n).pkCnt = s.pkCnt := rfl
@[simp] theorem State.forgetTable_pkMode (n : SlotId) : (s.forgetTable n).pkMode = s.pkMode := rfl
@[simp] theorem State.forgetTable_lasterr (n : SlotId) : (s.forgetTable n).lasterr = s.lasterr := rfl
@[simp] theorem State.forgetTable_errstat (n : SlotId) : (s.forgetTable n).errstat = s.errstat := rfl
@[simp] theorem State.forgetTable_stream (n : SlotId) : (s.forgetTable n).stream = s.stream := rfl
@[simp] theorem State.forgetTable_sinkAnswers (n : SlotId) : (s.forgetTable n).sinkAnswers = s.sinkAnswers := rfl
@[simp] theorem State.forgetTable_host (n : SlotId) : (s.forgetTable n).host = s.host := rfl
@[simp] theorem State.forgetTable_hostData (n : SlotId) : (s.forgetTable n).hostData = s.hostData := rfl
@[simp] theorem State.forgetTable_draws (n : SlotId) : (s.forgetTable n).draws = s.draws := rfl

@[simp] theorem State.putLut_coef (n : SlotId) (es : List LutEntry) : (s.putLut n es).coef = s.coef := rfl
@[simp] theorem State.putLut_dcPred (n : SlotId) (es : List LutEntry) : (s.putLut n es).dcPred = s.dcPred := rfl
@[simp] theorem State.putLut_pkReg (n : SlotId) (es : List LutEntry) : (s.putLut n es).pkReg = s.pkReg := rfl
@[simp] theorem State.putLut_pkCnt (n : SlotId) (es : List LutEntry) : (s.putLut n es).pkCnt = s.pkCnt := rfl
@[simp] theorem State.putLut_pkMode (n : SlotId) (es : List LutEntry) : (s.putLut n es).pkMode = s.pkMode := rfl
@[simp] theorem State.putLut_lasterr (n : SlotId) (es : List LutEntry) : (s.putLut n es).lasterr = s.lasterr := rfl
@[simp] theorem State.putLut_errstat (n : SlotId) (es : List LutEntry) : (s.putLut n es).errstat = s.errstat := rfl
@[simp] theorem State.putLut_stream (n : SlotId) (es : List LutEntry) : (s.putLut n es).stream = s.stream := rfl
@[simp] theorem State.putLut_sinkAnswers (n : SlotId) (es : List LutEntry) : (s.putLut n es).sinkAnswers = s.sinkAnswers := rfl
@[simp] theorem State.putLut_host (n : SlotId) (es : List LutEntry) : (s.putLut n es).host = s.host := rfl
@[simp] theorem State.putLut_hostData (n : SlotId) (es : List LutEntry) : (s.putLut n es).hostData = s.hostData := rfl
@[simp] theorem State.putLut_draws (n : SlotId) (es : List LutEntry) : (s.putLut n es).draws = s.draws := rfl

@[simp] theorem State.failPacker_slots : (s.failPacker).slots = s.slots := rfl
@[simp] theorem State.failPacker_coef : (s.failPacker).coef = s.coef := rfl
@[simp] theorem State.failPacker_dcPred : (s.failPacker).dcPred = s.dcPred := rfl
@[simp] theorem State.failPacker_pkReg : (s.failPacker).pkReg = s.free (.csr 3) := rfl
@[simp] theorem State.failPacker_pkCnt : (s.failPacker).pkCnt = (s.free (.csr 4)).setWidth 8 := rfl
@[simp] theorem State.failPacker_pkMode : (s.failPacker).pkMode = .failed := rfl
@[simp] theorem State.failPacker_lasterr : (s.failPacker).lasterr = s.lasterr := rfl
@[simp] theorem State.failPacker_errstat : (s.failPacker).errstat = s.errstat := rfl
@[simp] theorem State.failPacker_stream : (s.failPacker).stream = s.stream := rfl
@[simp] theorem State.failPacker_sinkAnswers : (s.failPacker).sinkAnswers = s.sinkAnswers := rfl
@[simp] theorem State.failPacker_host : (s.failPacker).host = s.host := rfl
@[simp] theorem State.failPacker_hostData : (s.failPacker).hostData = s.hostData := rfl
@[simp] theorem State.failPacker_draws : (s.failPacker).draws = s.draws := rfl

@[simp] theorem State.resetPacker_slots : (s.resetPacker).slots = s.slots := rfl
@[simp] theorem State.resetPacker_coef : (s.resetPacker).coef = s.coef := rfl
@[simp] theorem State.resetPacker_dcPred : (s.resetPacker).dcPred = s.dcPred := rfl
@[simp] theorem State.resetPacker_pkReg : (s.resetPacker).pkReg = 0 := rfl
@[simp] theorem State.resetPacker_pkCnt : (s.resetPacker).pkCnt = 0 := rfl
@[simp] theorem State.resetPacker_pkMode : (s.resetPacker).pkMode = .active := rfl
@[simp] theorem State.resetPacker_lasterr : (s.resetPacker).lasterr = s.lasterr := rfl
@[simp] theorem State.resetPacker_errstat : (s.resetPacker).errstat = s.errstat := rfl
@[simp] theorem State.resetPacker_stream : (s.resetPacker).stream = s.stream := rfl
@[simp] theorem State.resetPacker_sinkAnswers : (s.resetPacker).sinkAnswers = s.sinkAnswers := rfl
@[simp] theorem State.resetPacker_host : (s.resetPacker).host = s.host := rfl
@[simp] theorem State.resetPacker_hostData : (s.resetPacker).hostData = s.hostData := rfl
@[simp] theorem State.resetPacker_draws : (s.resetPacker).draws = s.draws := rfl

@[simp] theorem State.closePacker_slots : (s.closePacker).slots = s.slots := rfl
@[simp] theorem State.closePacker_coef : (s.closePacker).coef = s.coef := rfl
@[simp] theorem State.closePacker_dcPred : (s.closePacker).dcPred = s.dcPred := rfl
@[simp] theorem State.closePacker_pkReg : (s.closePacker).pkReg = 0 := rfl
@[simp] theorem State.closePacker_pkCnt : (s.closePacker).pkCnt = 0 := rfl
@[simp] theorem State.closePacker_pkMode : (s.closePacker).pkMode = .flushed := rfl
@[simp] theorem State.closePacker_lasterr : (s.closePacker).lasterr = s.lasterr := rfl
@[simp] theorem State.closePacker_errstat : (s.closePacker).errstat = s.errstat := rfl
@[simp] theorem State.closePacker_stream : (s.closePacker).stream = s.stream := rfl
@[simp] theorem State.closePacker_sinkAnswers : (s.closePacker).sinkAnswers = s.sinkAnswers := rfl
@[simp] theorem State.closePacker_host : (s.closePacker).host = s.host := rfl
@[simp] theorem State.closePacker_hostData : (s.closePacker).hostData = s.hostData := rfl
@[simp] theorem State.closePacker_draws : (s.closePacker).draws = s.draws := rfl

@[simp] theorem State.endOk_slots : (s.endOk).slots = s.slots := rfl
@[simp] theorem State.endOk_coef : (s.endOk).coef = s.coef := rfl
@[simp] theorem State.endOk_dcPred : (s.endOk).dcPred = s.dcPred := rfl
@[simp] theorem State.endOk_pkReg : (s.endOk).pkReg = s.pkReg := rfl
@[simp] theorem State.endOk_pkCnt : (s.endOk).pkCnt = s.pkCnt := rfl
@[simp] theorem State.endOk_pkMode : (s.endOk).pkMode = s.pkMode := rfl
@[simp] theorem State.endOk_lasterr : (s.endOk).lasterr = 0 := rfl
@[simp] theorem State.endOk_errstat : (s.endOk).errstat = s.errstat := rfl
@[simp] theorem State.endOk_stream : (s.endOk).stream = s.stream := rfl
@[simp] theorem State.endOk_sinkAnswers : (s.endOk).sinkAnswers = s.sinkAnswers := rfl
@[simp] theorem State.endOk_host : (s.endOk).host = s.host := rfl
@[simp] theorem State.endOk_hostData : (s.endOk).hostData = s.hostData := rfl
@[simp] theorem State.endOk_draws : (s.endOk).draws = s.draws + 1 := rfl

@[simp] theorem State.takeFault_slots (c : Cause) : (s.takeFault c).slots = s.slots := rfl
@[simp] theorem State.takeFault_coef (c : Cause) : (s.takeFault c).coef = s.coef := rfl
@[simp] theorem State.takeFault_dcPred (c : Cause) : (s.takeFault c).dcPred = s.dcPred := rfl
@[simp] theorem State.takeFault_pkReg (c : Cause) : (s.takeFault c).pkReg = s.pkReg := rfl
@[simp] theorem State.takeFault_pkCnt (c : Cause) : (s.takeFault c).pkCnt = s.pkCnt := rfl
@[simp] theorem State.takeFault_pkMode (c : Cause) : (s.takeFault c).pkMode = s.pkMode := rfl
@[simp] theorem State.takeFault_lasterr (c : Cause) : (s.takeFault c).lasterr = c.info ++ BitVec.ofNat 8 c.code := rfl
@[simp] theorem State.takeFault_errstat (c : Cause) : (s.takeFault c).errstat = s.errstat ||| (1#32 <<< c.code) := rfl
@[simp] theorem State.takeFault_stream (c : Cause) : (s.takeFault c).stream = s.stream := rfl
@[simp] theorem State.takeFault_sinkAnswers (c : Cause) : (s.takeFault c).sinkAnswers = s.sinkAnswers := rfl
@[simp] theorem State.takeFault_host (c : Cause) : (s.takeFault c).host = s.host := rfl
@[simp] theorem State.takeFault_hostData (c : Cause) : (s.takeFault c).hostData = s.hostData := rfl
@[simp] theorem State.takeFault_draws (c : Cause) : (s.takeFault c).draws = s.draws + 1 := rfl

@[simp] theorem State.hardwareReset_slots : (s.hardwareReset).slots = State.reset.slots := rfl
@[simp] theorem State.hardwareReset_coef : (s.hardwareReset).coef = State.reset.coef := rfl
@[simp] theorem State.hardwareReset_dcPred : (s.hardwareReset).dcPred = State.reset.dcPred := rfl
@[simp] theorem State.hardwareReset_pkReg : (s.hardwareReset).pkReg = State.reset.pkReg := rfl
@[simp] theorem State.hardwareReset_pkCnt : (s.hardwareReset).pkCnt = State.reset.pkCnt := rfl
@[simp] theorem State.hardwareReset_pkMode : (s.hardwareReset).pkMode = State.reset.pkMode := rfl
@[simp] theorem State.hardwareReset_lasterr : (s.hardwareReset).lasterr = State.reset.lasterr := rfl
@[simp] theorem State.hardwareReset_errstat : (s.hardwareReset).errstat = State.reset.errstat := rfl
@[simp] theorem State.hardwareReset_stream : (s.hardwareReset).stream = s.stream := rfl
@[simp] theorem State.hardwareReset_sinkAnswers : (s.hardwareReset).sinkAnswers = s.sinkAnswers := rfl
@[simp] theorem State.hardwareReset_host : (s.hardwareReset).host = s.host := rfl
@[simp] theorem State.hardwareReset_hostData : (s.hardwareReset).hostData = s.hostData := rfl
@[simp] theorem State.hardwareReset_draws : (s.hardwareReset).draws = s.draws + 1 := rfl

@[simp] theorem State.withCommand_slots (w : Word) : (s.withCommand w).slots = s.slots := rfl
@[simp] theorem State.withCommand_coef (w : Word) : (s.withCommand w).coef = s.coef := rfl
@[simp] theorem State.withCommand_dcPred (w : Word) : (s.withCommand w).dcPred = s.dcPred := rfl
@[simp] theorem State.withCommand_pkReg (w : Word) : (s.withCommand w).pkReg = s.pkReg := rfl
@[simp] theorem State.withCommand_pkCnt (w : Word) : (s.withCommand w).pkCnt = s.pkCnt := rfl
@[simp] theorem State.withCommand_pkMode (w : Word) : (s.withCommand w).pkMode = s.pkMode := rfl
@[simp] theorem State.withCommand_lasterr (w : Word) : (s.withCommand w).lasterr = s.lasterr := rfl
@[simp] theorem State.withCommand_errstat (w : Word) : (s.withCommand w).errstat = s.errstat := rfl
@[simp] theorem State.withCommand_stream (w : Word) : (s.withCommand w).stream = s.stream := rfl
@[simp] theorem State.withCommand_sinkAnswers (w : Word) : (s.withCommand w).sinkAnswers = s.sinkAnswers := rfl
@[simp] theorem State.withCommand_host (w : Word) : (s.withCommand w).host = .command w :: s.host := rfl
@[simp] theorem State.withCommand_hostData (w : Word) : (s.withCommand w).hostData = s.hostData := rfl
@[simp] theorem State.withCommand_draws (w : Word) : (s.withCommand w).draws = s.draws := rfl

@[simp] theorem loadSpec_coef (n : SlotId) (h : HuffmanSpec) : (loadSpec s n h).coef = s.coef := rfl
@[simp] theorem loadSpec_dcPred (n : SlotId) (h : HuffmanSpec) : (loadSpec s n h).dcPred = s.dcPred := rfl
@[simp] theorem loadSpec_pkReg (n : SlotId) (h : HuffmanSpec) : (loadSpec s n h).pkReg = s.pkReg := rfl
@[simp] theorem loadSpec_pkCnt (n : SlotId) (h : HuffmanSpec) : (loadSpec s n h).pkCnt = s.pkCnt := rfl
@[simp] theorem loadSpec_pkMode (n : SlotId) (h : HuffmanSpec) : (loadSpec s n h).pkMode = s.pkMode := rfl
@[simp] theorem loadSpec_lasterr (n : SlotId) (h : HuffmanSpec) : (loadSpec s n h).lasterr = s.lasterr := rfl
@[simp] theorem loadSpec_errstat (n : SlotId) (h : HuffmanSpec) : (loadSpec s n h).errstat = s.errstat := rfl
@[simp] theorem loadSpec_stream (n : SlotId) (h : HuffmanSpec) : (loadSpec s n h).stream = s.stream := rfl
@[simp] theorem loadSpec_sinkAnswers (n : SlotId) (h : HuffmanSpec) : (loadSpec s n h).sinkAnswers = s.sinkAnswers := rfl
@[simp] theorem loadSpec_host (n : SlotId) (h : HuffmanSpec) : (loadSpec s n h).host = s.host := rfl
@[simp] theorem loadSpec_hostData (n : SlotId) (h : HuffmanSpec) : (loadSpec s n h).hostData = s.hostData := rfl
@[simp] theorem loadSpec_draws (n : SlotId) (h : HuffmanSpec) : (loadSpec s n h).draws = s.draws := rfl

/-! ## Slots and predictors -/

/-- Reading a slot after replacing one. -/
theorem State.slot_setSlot (n m : SlotId) (x : Slot) :
    (s.setSlot n x).slot m = if m = n then x else s.slot m := by
  simp only [State.slot, State.setSlot, Vector.getElem_set, Fin.ext_iff, eq_comm]

@[simp] theorem State.slot_setSlot_self (n : SlotId) (x : Slot) : (s.setSlot n x).slot n = x := by
  simp [State.slot_setSlot]

theorem State.slot_setSlot_ne {n m : SlotId} (h : m ≠ n) (x : Slot) : (s.setSlot n x).slot m = s.slot m := by
  simp [State.slot_setSlot, h]

/-- Two states with the same slots have the same slot of each number. -/
theorem State.slot_congr {s t : State} (h : t.slots = s.slots) (n : SlotId) : t.slot n = s.slot n := by
  simp only [State.slot, h]

theorem State.slot_unbuild (n m : SlotId) :
    (s.unbuild n).slot m = if m = n then { s.slot n with built := false, lutv := false } else s.slot m :=
  State.slot_setSlot s n m _

theorem State.slot_setBuilt (n m : SlotId) :
    (s.setBuilt n).slot m = if m = n then { s.slot n with built := true } else s.slot m :=
  State.slot_setSlot s n m _

theorem State.slot_setLutv (n m : SlotId) :
    (s.setLutv n).slot m = if m = n then { s.slot n with lutv := true } else s.slot m :=
  State.slot_setSlot s n m _

theorem State.slot_putTable (n m : SlotId) (t : CodeTable) :
    (s.putTable n t).slot m = if m = n then { s.slot n with
      code := Store.padded (t.codes.map (BitVec.ofNat 16))
      len := Store.padded (t.lens.map (BitVec.ofNat 8)) } else s.slot m :=
  State.slot_setSlot s n m _

theorem State.slot_forgetTable (n m : SlotId) :
    (s.forgetTable n).slot m = if m = n then { s.slot n with code := [], len := [] } else s.slot m :=
  State.slot_setSlot s n m _

theorem State.slot_putLut (n m : SlotId) (es : List LutEntry) :
    (s.putLut n es).slot m = if m = n then { s.slot n with
      lutMin := Store.block 1 (es.map fun e => BitVec.ofInt 32 e.min)
      lutMax := Store.block 1 (es.map fun e => BitVec.ofInt 32 e.max)
      lutPtr := Store.block 1 (es.map fun e => BitVec.ofInt 32 e.ptr) } else s.slot m :=
  State.slot_setSlot s n m _

theorem slot_loadSpec (n m : SlotId) (h : HuffmanSpec) :
    (loadSpec s n h).slot m = if m = n then { s.slot n with
      bits := Store.block 0 h.counts
      nval := Store.block 0 [BitVec.ofNat 16 h.values.length]
      val := Store.padded h.values
      built := false
      lutv := false } else s.slot m := by
  unfold loadSpec
  rw [State.slot_unbuild]
  split <;> simp_all [State.slot_setSlot]

@[simp] theorem State.slot_setPred (m : SlotId) (c : Comp) (v : Word) : (s.setPred c v).slot m = s.slot m := rfl
@[simp] theorem State.slot_failPacker (m : SlotId) : (s.failPacker).slot m = s.slot m := rfl
@[simp] theorem State.slot_resetPacker (m : SlotId) : (s.resetPacker).slot m = s.slot m := rfl
@[simp] theorem State.slot_closePacker (m : SlotId) : (s.closePacker).slot m = s.slot m := rfl
@[simp] theorem State.slot_endOk (m : SlotId) : (s.endOk).slot m = s.slot m := rfl
@[simp] theorem State.slot_takeFault (m : SlotId) (c : Cause) : (s.takeFault c).slot m = s.slot m := rfl
@[simp] theorem State.slot_withCommand (m : SlotId) (w : Word) : (s.withCommand w).slot m = s.slot m := rfl

/-- Reading a predictor after writing one. -/
theorem State.pred_setPred (c d : Comp) (v : Word) :
    (s.setPred c v).pred d = if d = c then v else s.pred d := by
  simp only [State.pred, State.setPred, Vector.getElem_set, Fin.ext_iff, eq_comm]

@[simp] theorem State.pred_setSlot (c : Comp) (n : SlotId) (x : Slot) : (s.setSlot n x).pred c = s.pred c := rfl
@[simp] theorem State.pred_unbuild (c : Comp) (n : SlotId) : (s.unbuild n).pred c = s.pred c := rfl
@[simp] theorem State.pred_failPacker (c : Comp) : (s.failPacker).pred c = s.pred c := rfl
@[simp] theorem State.pred_resetPacker (c : Comp) : (s.resetPacker).pred c = s.pred c := rfl
@[simp] theorem State.pred_closePacker (c : Comp) : (s.closePacker).pred c = s.pred c := rfl
@[simp] theorem State.pred_endOk (c : Comp) : (s.endOk).pred c = s.pred c := rfl
@[simp] theorem State.pred_takeFault (c : Comp) (e : Cause) : (s.takeFault e).pred c = s.pred c := rfl
@[simp] theorem State.pred_withCommand (c : Comp) (w : Word) : (s.withCommand w).pred c = s.pred c := rfl

/-! ## The slots after hardware reset -/

/-- Every slot of the reset state is the reset slot. -/
@[simp] theorem State.slot_reset (m : SlotId) : State.reset.slot m = Slot.reset := by
  fin_cases m <;> rfl

@[simp] theorem State.slot_hardwareReset (m : SlotId) : s.hardwareReset.slot m = Slot.reset :=
  State.slot_reset m

/-- Every predictor of the reset state is 0. -/
@[simp] theorem State.pred_reset (c : Comp) : State.reset.pred c = 0 := by
  fin_cases c <;> rfl

@[simp] theorem State.pred_hardwareReset (c : Comp) : s.hardwareReset.pred c = 0 :=
  State.pred_reset c

end Sys2Proof.Machine
end

