-- ==== Sys2Proof/Laws/Store.lean ====
section
/-! SUPPORT. What the store operations do: reading after writing, the canonical form kept by every operation, and that two
canonical stores which show the same values are equal. -/

namespace Sys2Proof.Machine

variable {w : Nat}

/-- A read after a write to the same index gives the value written; every other index shows what it showed. -/
theorem Store.find?_put (st : Store w) (i j : Nat) (v : BitVec w) :
    Store.find? (Store.put st i v) j = if j = i then some v else Store.find? st j := by
  induction st with
  | nil => simp [Store.put, Store.find?, eq_comm]
  | cons c rest ih =>
    obtain ⟨k, u⟩ := c
    simp only [Store.put]
    split_ifs <;> simp only [Store.find?] <;> (try simp only [ih]) <;> split_ifs <;> first | rfl | omega

/-- A block shows its values from its base on and nothing else. -/
theorem Store.find?_block (base j : Nat) (vs : List (BitVec w)) :
    Store.find? (Store.block base vs) j = if base ≤ j then vs[j - base]? else none := by
  induction vs generalizing base with
  | nil => simp [Store.block, Store.find?]
  | cons v vs ih =>
    simp only [Store.block, Store.find?, ih]
    by_cases h : base = j
    · simp [h]
    · by_cases hj : base ≤ j
      · obtain ⟨d, hd⟩ : ∃ d, j - base = d + 1 := ⟨j - base - 1, by omega⟩
        simp [h, hj, hd, show base + 1 ≤ j by omega, show j - (base + 1) = d by omega]
      · simp [h, hj, show ¬ base + 1 ≤ j by omega]

/-- A padded list shows its values, then 0 up to the store's size. -/
theorem Store.find?_padded (vs : List (BitVec w)) (h : vs.length ≤ 256) (j : Nat) :
    Store.find? (Store.padded vs) j = if j < 256 then some (vs.getD j 0) else none := by
  rw [Store.padded, Store.find?_block, if_pos (Nat.zero_le j), Nat.sub_zero, List.getElem?_append]
  simp only [Config.maxSyms, List.getElem?_replicate, List.getD_eq_getElem?_getD]
  split_ifs with h1 h2 h3 <;> first | omega | simp_all

/-- The canonical form from a later index on is canonical from an earlier one. -/
theorem Store.wf_mono {lo lo' hi : Nat} (h : lo' ≤ lo) {st : Store w} (hw : Store.wf lo hi st = true) :
    Store.wf lo' hi st = true := by
  cases st with
  | nil => rfl
  | cons c rest =>
    simp only [Store.wf, Bool.and_eq_true, decide_eq_true_eq] at *
    exact ⟨⟨by omega, hw.1.2⟩, hw.2⟩

/-- A write within the index range keeps the canonical form. -/
theorem Store.wf_put {lo hi i : Nat} {st : Store w} (hw : Store.wf lo hi st = true) (hlo : lo ≤ i) (hhi : i < hi)
    (v : BitVec w) : Store.wf lo hi (Store.put st i v) = true := by
  induction st generalizing lo with
  | nil => simp [Store.put, Store.wf, hlo, hhi]
  | cons c rest ih =>
    obtain ⟨k, u⟩ := c
    simp only [Store.wf, Bool.and_eq_true, decide_eq_true_eq] at hw
    simp only [Store.put]
    split_ifs with h1 h2
    · simp only [Store.wf, Bool.and_eq_true, decide_eq_true_eq]
      exact ⟨⟨hlo, hhi⟩, ⟨h1, hw.1.2⟩, hw.2⟩
    · subst h2
      simp only [Store.wf, Bool.and_eq_true, decide_eq_true_eq]
      exact ⟨⟨hlo, hhi⟩, hw.2⟩
    · simp only [Store.wf, Bool.and_eq_true, decide_eq_true_eq]
      exact ⟨hw.1, ih hw.2 (by omega)⟩

/-- A block within the index range is canonical. -/
theorem Store.wf_block {lo hi base : Nat} (vs : List (BitVec w)) (hlo : lo ≤ base) (hhi : base + vs.length ≤ hi) :
    Store.wf lo hi (Store.block base vs) = true := by
  induction vs generalizing lo base with
  | nil => rfl
  | cons v vs ih =>
    simp only [List.length_cons] at hhi
    simp only [Store.block, Store.wf, Bool.and_eq_true, decide_eq_true_eq]
    exact ⟨⟨hlo, by omega⟩, ih (Nat.le_refl _) (by omega)⟩

/-- A padded list is canonical over the 256 indices. -/
theorem Store.wf_padded (vs : List (BitVec w)) (h : vs.length ≤ 256) : Store.wf 0 256 (Store.padded vs) = true := by
  refine Store.wf_block _ (Nat.le_refl 0) ?_
  simp only [List.length_append, List.length_replicate, Config.maxSyms]
  omega

/-- A canonical store shows nothing below its range. -/
theorem Store.find?_eq_none_of_lt {lo hi j : Nat} {st : Store w} (hw : Store.wf lo hi st = true) (h : j < lo) :
    Store.find? st j = none := by
  induction st generalizing lo with
  | nil => rfl
  | cons c rest ih =>
    obtain ⟨k, u⟩ := c
    simp only [Store.wf, Bool.and_eq_true, decide_eq_true_eq] at hw
    rw [Store.find?, if_neg (by omega)]
    exact ih hw.2 (by omega)

/-- A canonical store shows nothing at or past the end of its range. -/
theorem Store.find?_eq_none_of_le {lo hi j : Nat} {st : Store w} (hw : Store.wf lo hi st = true) (h : hi ≤ j) :
    Store.find? st j = none := by
  induction st generalizing lo with
  | nil => rfl
  | cons c rest ih =>
    obtain ⟨k, u⟩ := c
    simp only [Store.wf, Bool.and_eq_true, decide_eq_true_eq] at hw
    rw [Store.find?, if_neg (by omega)]
    exact ih hw.2

/-- Two canonical stores that show the same values are equal: equal memories are equal data. -/
theorem Store.ext_find? {lo lo' hi hi' : Nat} {st st' : Store w} (hw : Store.wf lo hi st = true)
    (hw' : Store.wf lo' hi' st' = true) (h : ∀ j, Store.find? st j = Store.find? st' j) : st = st' := by
  induction st generalizing lo lo' st' with
  | nil =>
    cases st' with
    | nil => rfl
    | cons c rest => simpa [Store.find?] using h c.1
  | cons c rest ih =>
    cases st' with
    | nil => simpa [Store.find?] using h c.1
    | cons c' rest' =>
      obtain ⟨k, u⟩ := c
      obtain ⟨k', u'⟩ := c'
      simp only [Store.wf, Bool.and_eq_true, decide_eq_true_eq] at hw hw'
      have hk : k = k' := by
        rcases Nat.lt_trichotomy k k' with hlt | heq | hgt
        · have := h k
          rw [Store.find?, if_pos rfl, Store.find?, if_neg (by omega),
            Store.find?_eq_none_of_lt hw'.2 (by omega)] at this
          exact absurd this (by simp)
        · exact heq
        · have := h k'
          rw [Store.find?, if_neg (by omega), Store.find?, if_pos rfl,
            Store.find?_eq_none_of_lt hw.2 (by omega)] at this
          exact absurd this (by simp)
      subst hk
      have hu : u = u' := by simpa [Store.find?] using h k
      subst hu
      congr 1
      refine ih hw.2 hw'.2 fun j => ?_
      by_cases hj : k = j
      · rw [Store.find?_eq_none_of_lt hw.2 (by omega), Store.find?_eq_none_of_lt hw'.2 (by omega)]
      · simpa [Store.find?, hj] using h j

/-- An element that holds a value shows it, whatever the free word. -/
theorem Store.read_of_find? {st : Store w} {i : Nat} {v : BitVec w} (h : Store.find? st i = some v) (free : Word) :
    Store.read st i free = v := by
  rw [Store.read, h, Option.getD_some]

end Sys2Proof.Machine
end

