-- ==== Sys2Proof/Laws/Builder.lean ====
section
/-! SUPPORT. The two passes of CanonicalCodeBuilder in closed form (spec/40_code_builder.md rules R104, R105, R107): length by
length, a run of consecutive codes that starts where the lengths before it end. -/

namespace Sys2Proof.Machine

/-- The codes of lengths `L`, `L + 1`, ... whose counts are given, `first` the first code of length `L`; the failing length
where a length's codes do not fit (40_code_builder R107). -/
def canonical (L first : Nat) : List Nat → Except Nat (List Nat)
  | [] => .ok []
  | c :: counts =>
    if c = 0 then canonical (L + 1) (2 * first) counts
    else if 2 ^ L < first + c then .error L
    else (canonical (L + 1) (2 * (first + c)) counts).map (List.range' first c ++ ·)

theorem Except.map_map' {ε α β γ : Type} (f : α → β) (g : β → γ) (x : Except ε α) :
    (x.map f).map g = x.map fun a => g (f a) := by cases x <;> rfl

/-- A run of symbols of the current length takes consecutive codes. -/
theorem pass2From_replicate (code si c : Nat) (rest : List Nat) :
    pass2From code si (List.replicate c si ++ rest) =
      (pass2From (code + c) si rest).map (List.range' code c ++ ·) := by
  induction c generalizing code with
  | zero => cases h : pass2From code si rest <;> simp [h, Except.map]
  | succ c ih =>
    rw [List.replicate_succ, List.cons_append, pass2From, if_pos rfl, ih, Except.map_map']
    rw [show code + (c + 1) = code + 1 + c by omega]
    congr 1

/-- Pass 2 past the end of a run whose codes fit goes on with the first code of the next length. -/
theorem pass2From_pass1From {code si L : Nat} (h0 : 1 ≤ si) (hL : si < L) (h : code ≤ 2 ^ si) (counts : List Nat) :
    pass2From code si (pass1From L counts) = canonical L (code * 2 ^ (L - si)) counts := by
  induction counts generalizing code si L with
  | nil =>
    simp only [pass1From, pass2From, canonical]
    split_ifs <;> first | omega | rfl
  | cons c counts ih =>
    obtain ⟨d, hd⟩ : ∃ d, L - si = d + 1 := ⟨L - si - 1, by omega⟩
    cases c with
    | zero =>
      simp only [pass1From, List.replicate_zero, List.nil_append, canonical, if_true]
      rw [ih h0 (by omega) h, show L + 1 - si = (L - si) + 1 by omega, Nat.pow_succ]
      congr 1
      ring
    | succ c =>
      simp only [pass1From, List.replicate_succ, List.cons_append, pass2From, canonical]
      rw [if_neg (by omega), if_neg (by omega), if_neg (by omega), if_neg (by omega), pass2From_replicate,
        Except.map_map', Nat.shiftLeft_eq]
      have hlen : List.range' (code * 2 ^ (L - si)) (c + 1) =
          code * 2 ^ (L - si) :: List.range' (code * 2 ^ (L - si) + 1) c := rfl
      rw [hlen]
      by_cases hf : 2 ^ L < code * 2 ^ (L - si) + (c + 1)
      · rw [if_pos hf]
        have : ∀ cs : List Nat, ∀ L', L < L' → 2 ^ L < code * 2 ^ (L - si) + 1 + c →
            pass2From (code * 2 ^ (L - si) + 1 + c) L (pass1From L' cs) = .error L := by
          intro cs
          induction cs with
          | nil =>
            intro L' _ hb
            simp only [pass1From, pass2From]
            rw [if_neg (by omega), if_pos (by omega)]
          | cons c' cs ih' =>
            intro L' hl hb
            cases c' with
            | zero => simpa [pass1From] using ih' (L' + 1) (by omega) hb
            | succ c' =>
              simp only [pass1From, List.replicate_succ, List.cons_append, pass2From]
              rw [if_neg (by omega), if_pos (by omega)]
        rw [this counts (L + 1) (by omega) (by omega)]
        rfl
      · rw [if_neg hf, ih (by omega) (by omega) (by omega)]
        rw [show L + 1 - L = 1 by omega, Nat.pow_one, show (code * 2 ^ (L - si) + 1 + c) * 2 =
          2 * (code * 2 ^ (L - si) + (c + 1)) by ring]
        rfl

theorem pass2_pass1From {L : Nat} (hL : 1 ≤ L) (counts : List Nat) :
    pass2 (pass1From L counts) = canonical L 0 counts := by
  induction counts generalizing L with
  | nil => rfl
  | cons c counts ih =>
    cases c with
    | zero => simpa [pass1From, canonical] using ih (L := L + 1) (by omega)
    | succ c =>
      have h := pass2From_replicate 0 L (c + 1) (pass1From (L + 1) counts)
      simp only [pass1From]
      simp only [List.replicate_succ, List.cons_append] at h ⊢
      simp only [pass2]
      rw [if_neg (by omega), h]
      simp only [canonical]
      rw [if_neg (by omega)]
      by_cases hf : 2 ^ L < 0 + (c + 1)
      · rw [if_pos hf]
        have : ∀ cs : List Nat, ∀ L', L < L' → pass2From (0 + (c + 1)) L (pass1From L' cs) = .error L := by
          intro cs
          induction cs with
          | nil =>
            intro L' _
            simp only [pass1From, pass2From]
            rw [if_neg (by omega), if_pos (by omega)]
          | cons c' cs ih' =>
            intro L' hl
            cases c' with
            | zero => simpa [pass1From] using ih' (L' + 1) (by omega)
            | succ c' =>
              simp only [pass1From, List.replicate_succ, List.cons_append, pass2From]
              rw [if_neg (by omega), if_pos (by omega)]
        rw [this counts (L + 1) (by omega)]
        rfl
      · rw [if_neg hf, pass2From_pass1From hL (by omega) (by omega), show L + 1 - L = 1 by omega, Nat.pow_one,
          Nat.mul_comm]

/-- The two passes in closed form: canonical codes from length 1 and code 0 (40_code_builder R107). -/
theorem pass2_pass1 (counts : List Nat) : pass2 (pass1 counts) = canonical 1 0 counts :=
  pass2_pass1From (Nat.le_refl 1) counts

/-- Pass 1 lists a length per symbol and the sentinel (40_code_builder R104). -/
theorem length_pass1From (L : Nat) (counts : List Nat) : (pass1From L counts).length = counts.sum + 1 := by
  induction counts generalizing L with
  | nil => rfl
  | cons c counts ih => simp [pass1From, ih]; omega

/-- Codes that fit are one per symbol. -/
theorem length_of_canonical {L first : Nat} {counts codes : List Nat} (h : canonical L first counts = .ok codes) :
    codes.length = counts.sum := by
  induction counts generalizing L first codes with
  | nil =>
    cases h
    rfl
  | cons c counts ih =>
    simp only [canonical] at h
    split_ifs at h with h0 h1
    · simp [ih h, h0]
    · cases hr : canonical (L + 1) (2 * (first + c)) counts with
      | error e =>
        rw [hr] at h
        cases h
      | ok rest =>
        rw [hr] at h
        cases h
        simp [ih hr]

/-- What a successful build means: the checks hold, the lengths are pass 1's and the codes are canonical (40_code_builder
R103, R106). -/
theorem buildTable_ok {n : Nat} {counts vals : List Nat} {t : CodeTable} (h : buildTable n counts vals = .ok t) :
    n ≤ 256 ∧ counts.sum = n ∧ t.lens = (pass1 counts).take n ∧ canonical 1 0 counts = .ok t.codes ∧
      firstAbove 0 vals = none ∧ firstRepeat 0 [] vals = none := by
  unfold buildTable at h
  rw [pass2_pass1] at h
  unfold Config.maxSyms at h
  split_ifs at h with h1 h2
  cases hc : canonical 1 0 counts with
  | error e =>
    rw [hc] at h
    cases h
  | ok codes =>
    rw [hc] at h
    simp only at h
    cases ha : firstAbove 0 vals with
    | some k =>
      rw [ha] at h
      cases h
    | none =>
      rw [ha] at h
      simp only at h
      cases hr : firstRepeat 0 [] vals with
      | some k =>
        rw [hr] at h
        cases h
      | none =>
        rw [hr] at h
        cases h
        exact ⟨by omega, by omega, rfl, rfl, rfl, rfl⟩

/-- A built table has at most 256 lengths and codes. -/
theorem buildTable_length {n : Nat} {counts vals : List Nat} {t : CodeTable} (h : buildTable n counts vals = .ok t) :
    t.lens.length = n ∧ t.codes.length = n := by
  obtain ⟨_, hs, hl, hc, _, _⟩ := buildTable_ok h
  refine ⟨?_, by rw [length_of_canonical hc, hs]⟩
  rw [hl, List.length_take, pass1, length_pass1From]
  omega

end Sys2Proof.Machine
end

