-- ==== Sys2Proof/Laws/Packer.lean ====
section
/-! SUPPORT. What the packer's procedures do: what they can change, what the output stream gains, how they end, and, on an
accepting sink, that `put_bits` enters exactly the code's bits (spec/42_bit_packer.md). -/

namespace Sys2Proof.Machine

/-! ## Frames and endings -/

/-- The state a command part leaves, ended OK or raised. -/
def Ended.state : Ended → State
  | .ok s => s
  | .raised _ s => s

@[simp] theorem Ended.state_ok (s : State) : (Ended.ok s).state = s := rfl
@[simp] theorem Ended.state_raised (c : Cause) (s : State) : (Ended.raised c s).state = s := rfl
@[simp] theorem Ended.andThen_ok (s : State) (f : State → Ended) : (Ended.ok s).andThen f = f s := rfl
@[simp] theorem Ended.andThen_raised (c : Cause) (s : State) (f : State → Ended) :
    (Ended.raised c s).andThen f = .raised c s := rfl

/-- Only the packer and the sink's side differ. -/
def PackerFrame (s t : State) : Prop :=
  t = { s with
    pkReg := t.pkReg, pkCnt := t.pkCnt, pkMode := t.pkMode, stream := t.stream, sinkAnswers := t.sinkAnswers }

theorem PackerFrame.refl (s : State) : PackerFrame s s := rfl

theorem PackerFrame.trans {s t u : State} (h : PackerFrame s t) (h' : PackerFrame t u) : PackerFrame s u := by
  unfold PackerFrame at *
  rw [h] at h'
  exact h'

/-- What a part that writes through the packer can do (42_bit_packer R150, R151, R156; 43_block_encoder R185): it changes
the packer and the sink's side only. Ended OK it leaves the mode and adds whole stuffed data bytes to the stream. Raised it
leaves the packer FAILED, its registers unspecified, and the bytes accepted before stand: whole stuffed data bytes, but for
an OutputFailure at a stuffing byte, which ends them in a bare 0xFF. -/
inductive PackerPart (s : State) : Ended → Prop where
  | ok (t : State) (frame : PackerFrame s t) (mode : t.pkMode = s.pkMode)
      (bytes : ∃ data, t.stream = s.stream ++ stuffed data) : PackerPart s (.ok t)
  | raised (c : Cause) (t : State) (frame : PackerFrame s t) (mode : t.pkMode = .failed)
      (reg : t.pkReg = s.free (.csr 3)) (cnt : t.pkCnt = (s.free (.csr 4)).setWidth 8)
      (cause : c = .outputFailure ∨ (∃ n sym, c = .symbolNotInTable n sym) ∨ ∃ k, c = .coefRange k)
      (bytes : ∃ data, t.stream = s.stream ++ stuffed data ∨
        (c = .outputFailure ∧ t.stream = s.stream ++ stuffed data ++ [0xFF])) : PackerPart s (.raised c t)

theorem stuffed_append (a b : List Byte) : stuffed (a ++ b) = stuffed a ++ stuffed b := by
  simp [stuffed]

@[simp] theorem stuffed_nil : stuffed [] = [] := rfl

theorem PackerFrame.draws {s t : State} (h : PackerFrame s t) : t.draws = s.draws := by rw [h]

theorem PackerFrame.free {s t : State} (h : PackerFrame s t) (e : Element) : t.free e = s.free e := by
  simp [State.free, h.draws]

theorem PackerPart.refl (s : State) : PackerPart s (.ok s) :=
  .ok s (.refl s) rfl ⟨[], by simp⟩

/-- Parts in sequence are a part. -/
theorem PackerPart.andThen {s : State} {e : Ended} {f : State → Ended} (h : PackerPart s e)
    (hf : ∀ t, PackerPart t (f t)) : PackerPart s (e.andThen f) := by
  cases h with
  | raised c t fr m r n c' b => exact .raised c t fr m r n c' b
  | ok t fr m b =>
    obtain ⟨d, hd⟩ := b
    simp only [Ended.andThen_ok]
    cases ht : f t with
    | ok u =>
      have h2 := ht ▸ hf t
      cases h2 with
      | ok _ fr' m' b' =>
        obtain ⟨d', hd'⟩ := b'
        exact .ok u (fr.trans fr') (m'.trans m) ⟨d ++ d', by simp [hd', hd, stuffed_append]⟩
    | raised c u =>
      have h2 := ht ▸ hf t
      cases h2 with
      | raised _ _ fr' m' r' n' c' b' =>
        obtain ⟨d', hd'⟩ := b'
        refine .raised c u (fr.trans fr') m' (r'.trans (fr.free _)) (n'.trans (by rw [fr.free])) c' ⟨d ++ d', ?_⟩
        simpa [hd, stuffed_append] using hd'

/-- A byte handed to the sink and refused fails the packer; accepted, it joins the stream (20_memory R57). -/
theorem sinkWrite_eq (b : Byte) (s : State) :
    sinkWrite b s =
      if s.sinkAnswers.head? = some false then
        .raised .outputFailure { s with sinkAnswers := s.sinkAnswers.tail }.failPacker
      else .ok { s with sinkAnswers := s.sinkAnswers.tail, stream := s.stream ++ [b] } := by
  unfold sinkWrite
  rcases h : s.sinkAnswers with _ | ⟨_ | _, rest⟩ <;> simp

/-- One byte with its stuffing is a packer part. -/
theorem emitByte_part (b : Byte) (s : State) : PackerPart s (emitByte b s) := by
  unfold emitByte
  rw [sinkWrite_eq]
  by_cases h : s.sinkAnswers.head? = some false
  · rw [if_pos h]
    exact .raised _ _ rfl rfl rfl rfl (.inl rfl) ⟨[], .inl (by simp)⟩
  · rw [if_neg h, Ended.andThen_ok]
    by_cases hb : b = 0xFF
    · subst hb
      rw [if_pos rfl, sinkWrite_eq]
      split_ifs
      · exact .raised _ _ rfl rfl rfl rfl (.inl rfl) ⟨[], .inr ⟨rfl, by simp⟩⟩
      · exact .ok _ rfl rfl ⟨[0xFF], by simp [stuffed]⟩
    · rw [if_neg hb]
      exact .ok _ rfl rfl ⟨[b], by simp only [stuffed, List.flatMap_cons, if_neg hb]; rfl⟩

/-- Moving bits within the register before a part changes nothing the part's summary speaks of. -/
theorem PackerPart.of_registers {s : State} {e : Ended} (r : Word) (n : BitVec 8)
    (h : PackerPart { s with pkReg := r, pkCnt := n } e) : PackerPart s e := by
  cases h with
  | ok t fr m b => exact .ok t (by unfold PackerFrame at *; exact fr) m b
  | raised c t fr m r n c' b => exact .raised c t (by unfold PackerFrame at *; exact fr) m r n c' b

/-- Emitting whole bytes is a packer part. -/
theorem drain_part (n : Nat) (s : State) : PackerPart s (drain n s) := by
  induction n generalizing s with
  | zero => exact .refl s
  | succ n ih => exact .of_registers _ _ ((emitByte_part _ _).andThen ih)

/-- `put_bits` is a packer part. -/
theorem putBits_part (code : BitVec 16) (length : Nat) (s : State) : PackerPart s (putBits code length s) := by
  unfold putBits
  split_ifs
  · exact .refl s
  · exact .of_registers _ _ (drain_part _ _)

/-! ## Bits, most significant first -/

@[simp] theorem length_msbBits (n v : Nat) : (msbBits n v).length = n := by simp [msbBits]

theorem getElem_msbBits {n v i : Nat} (h : i < (msbBits n v).length) :
    (msbBits n v)[i] = v.testBit (n - 1 - i) := by simp [msbBits]

@[simp] theorem length_pending (s : State) : s.pending.length = s.pkCnt.toNat := by simp [State.pending]

theorem getElem_pending {s : State} {i : Nat} (h : i < s.pending.length) : s.pending[i] = s.pkReg.getMsbD i := by
  simp [State.pending]

/-- The register holds exactly these bits, oldest at the top, zeros below; the count is theirs. -/
structure Holds (s : State) (bits : List Bool) : Prop where
  cnt : s.pkCnt.toNat = bits.length
  few : bits.length < 32
  reg : ∀ i, i < 32 → s.pkReg.getMsbD i = bits.getD i false

/-- The invariant of the packer is that it holds its pending bits, at most 7 of them. -/
theorem State.PackerOk.holds {s : State} (h : s.PackerOk) : Holds s s.pending := by
  obtain ⟨hc, hz⟩ := h
  refine ⟨by simp, by simp; omega, fun i hi => ?_⟩
  by_cases hlt : i < s.pkCnt.toNat
  · simp [State.pending, List.getD_eq_getElem?_getD, List.getElem?_map, List.getElem?_range hlt]
  · rw [List.getD_eq_getElem?_getD, List.getElem?_eq_none (by simpa using Nat.le_of_not_lt hlt)]
    have := hz (31 - i) (by omega)
    rw [BitVec.getMsbD_eq_getLsbD, show 32 - 1 - i = 31 - i from rfl, this]
    simp

theorem Holds.pending {s : State} {bits : List Bool} (h : Holds s bits) : s.pending = bits := by
  have hf := h.few
  refine List.ext_getElem (by simp [h.cnt]) fun i h1 h2 => ?_
  rw [getElem_pending, h.reg i (by omega), List.getD_eq_getElem?_getD, List.getElem?_eq_getElem h2]
  rfl

theorem Holds.packerOk {s : State} {bits : List Bool} (h : Holds s bits) (h7 : bits.length ≤ 7) : s.PackerOk := by
  refine ⟨by rw [h.cnt]; exact h7, fun i hi => ?_⟩
  rw [h.cnt] at hi
  have := h.reg (31 - i) (by omega)
  rw [BitVec.getMsbD_eq_getLsbD, List.getD_eq_getElem?_getD, List.getElem?_eq_none (by omega)] at this
  simpa [show 31 - (31 - i) = i by omega, show 31 - i < 32 by omega, show i < 32 by omega] using this

/-- The top byte's bits are the eight oldest. -/
theorem Holds.byteBits_topByte {s : State} {bits : List Bool} (h : Holds s bits) (h8 : 8 ≤ bits.length) :
    byteBits s.topByte = bits.take 8 := by
  refine List.ext_getElem (by simp [byteBits]; omega) fun i h1 h2 => ?_
  have hi : i < 8 := by simpa [byteBits] using h1
  have := h.reg i (by omega)
  rw [List.getD_eq_getElem?_getD, List.getElem?_eq_getElem (by omega), Option.getD_some] at this
  rw [List.getElem_take, ← this]
  simp only [byteBits, getElem_msbBits, State.topByte, BitVec.testBit_toNat, BitVec.getLsbD_extractLsb',
    BitVec.getMsbD_eq_getLsbD]
  simp [show 7 - i < 8 by omega, show i < 32 by omega, show 24 + (7 - i) = 31 - i by omega]

/-- Shifting a byte out leaves the rest. -/
theorem Holds.shift {s : State} {bits : List Bool} (h : Holds s bits) (h8 : 8 ≤ bits.length) :
    Holds { s with pkReg := s.pkReg <<< 8, pkCnt := s.pkCnt - 8 } (bits.drop 8) := by
  have hc := h.cnt
  have hf := h.few
  refine ⟨?_, by simp; omega, fun i hi => ?_⟩
  · have : (8#8).toNat ≤ s.pkCnt.toNat := by simp; omega
    simp [BitVec.toNat_sub_of_le this, hc]
  · have := h.reg (i + 8)
    simp only [BitVec.getMsbD_shiftLeft]
    by_cases hi8 : i + 8 < 32
    · rw [this hi8]
      simp [List.getD_eq_getElem?_getD, Nat.add_comm]
    · rw [BitVec.getMsbD_of_ge _ _ (by omega)]
      rw [List.getD_eq_getElem?_getD, List.getElem?_eq_none (by simp; omega)]
      rfl

/-- A byte that was taken joined the stream with its stuffing and left the register alone. -/
theorem emitByte_of_ok {b : Byte} {s t : State} (h : emitByte b s = .ok t) :
    t.stream = s.stream ++ stuffed [b] ∧ t.pkReg = s.pkReg ∧ t.pkCnt = s.pkCnt := by
  unfold emitByte at h
  rw [sinkWrite_eq] at h
  by_cases h1 : s.sinkAnswers.head? = some false
  · rw [if_pos h1] at h
    exact absurd h (by simp)
  · rw [if_neg h1, Ended.andThen_ok] at h
    by_cases hb : b = 0xFF
    · subst hb
      rw [if_pos rfl, sinkWrite_eq] at h
      split_ifs at h
      cases h
      exact ⟨by simp [stuffed], rfl, rfl⟩
    · rw [if_neg hb] at h
      cases h
      exact ⟨by simp only [stuffed, List.flatMap_cons, if_neg hb]; rfl, rfl, rfl⟩

/-- The loop of `put_bits`, ended OK, has emitted the oldest whole bytes and keeps the rest. -/
theorem drain_of_ok {n : Nat} {s t : State} {bits : List Bool} (h : Holds s bits) (hn : 8 * n ≤ bits.length)
    (ht : drain n s = .ok t) :
    Holds t (bits.drop (8 * n)) ∧
      ∃ data, t.stream = s.stream ++ stuffed data ∧ data.flatMap byteBits = bits.take (8 * n) := by
  induction n generalizing s bits with
  | zero =>
    cases ht
    exact ⟨by simpa using h, [], by simp, by simp⟩
  | succ n ih =>
    have h8 : 8 ≤ bits.length := by omega
    have hs := h.shift h8
    rw [drain] at ht
    cases he : emitByte s.topByte { s with pkReg := s.pkReg <<< 8, pkCnt := s.pkCnt - 8 } with
    | raised c u => rw [he] at ht; exact absurd ht (by simp)
    | ok u =>
      rw [he, Ended.andThen_ok] at ht
      obtain ⟨hstr, hr, hc⟩ := emitByte_of_ok he
      have hu : Holds u (bits.drop 8) := ⟨by rw [hc]; exact hs.cnt, hs.few, by rw [hr]; exact hs.reg⟩
      obtain ⟨hh, data, hts, hdata⟩ := ih hu (by simp; omega) ht
      rw [show 8 * (n + 1) = 8 + 8 * n by omega]
      refine ⟨by rw [← List.drop_drop]; exact hh, s.topByte :: data, ?_, ?_⟩
      · rw [hts, hstr, List.append_assoc, ← stuffed_append]
        rfl
      · rw [List.flatMap_cons, hdata, h.byteBits_topByte h8, List.take_add]

/-- Merging masked code bits right below the buffered ones appends them. -/
theorem Holds.merge {s : State} {bits : List Bool} (h : Holds s bits) (code : BitVec 16) {length : Nat}
    (hl : bits.length + length < 32) (h16 : length ≤ 16) :
    Holds { s with
      pkReg := s.pkReg ||| (BitVec.ofNat 32 (code.toNat &&& (2 ^ length - 1)) <<< (32 - (s.pkCnt.toNat + length)))
      pkCnt := BitVec.ofNat 8 (s.pkCnt.toNat + length) } (bits ++ msbBits length code.toNat) := by
  have hc := h.cnt
  refine ⟨?_, by simp; omega, fun i hi => ?_⟩
  · simp only [BitVec.toNat_ofNat, List.length_append, length_msbBits, hc]
    omega
  · rw [BitVec.getMsbD_or, h.reg i hi, hc, List.getD_eq_getElem?_getD, List.getD_eq_getElem?_getD,
      BitVec.getMsbD_eq_getLsbD, BitVec.getLsbD_shiftLeft, BitVec.getLsbD_ofNat, Nat.testBit_and,
      Nat.testBit_two_pow_sub_one]
    by_cases h1 : i < bits.length
    · rw [List.getElem?_append_left h1]
      simp [show ¬ (32 - 1 - i - (32 - (bits.length + length)) < length) by omega]
    · rw [List.getElem?_append_right (by omega), List.getElem?_eq_none (by omega : bits.length ≤ i)]
      by_cases h2 : i - bits.length < length
      · rw [List.getElem?_eq_getElem (by simpa using h2), getElem_msbBits]
        simp [hi, show 31 - i < 32 by omega, show ¬ 31 - i < 32 - (bits.length + length) by omega,
          show 31 - i - (32 - (bits.length + length)) = length - 1 - (i - bits.length) by omega,
          show length - 1 - (i - bits.length) < 32 by omega, show length - 1 - (i - bits.length) < length by omega]
      · rw [List.getElem?_eq_none (by simp; omega)]
        simp [show 31 - i < 32 - (bits.length + length) by omega]

/-- `put_bits` that ended OK: exactly the code's low `length` bits entered, most significant first, and the packer's
invariant holds again (42_bit_packer R151, R155). -/
theorem putBits_of_ok {s t : State} {code : BitVec 16} {length : Nat} (hp : s.PackerOk) (h16 : length ≤ 16)
    (h : putBits code length s = .ok t) : Emits s t (msbBits length code.toNat) ∧ t.PackerOk := by
  by_cases h0 : length = 0
  · subst h0
    rw [putBits, if_pos rfl] at h
    cases h
    exact ⟨⟨[], by simp, by simp [msbBits]⟩, hp⟩
  · have hc := hp.1
    have hh := hp.holds.merge code (length := length) (by simp; omega) h16
    simp only [putBits, if_neg h0] at h
    obtain ⟨hhold, data, hstr, hdata⟩ := drain_of_ok hh (by simp; omega) h
    exact ⟨⟨data, hstr, by rw [hdata, hhold.pending, List.take_append_drop]⟩, hhold.packerOk (by simp; omega)⟩

/-! ## An accepting sink -/

theorem head?_ne_false {l : List Bool} (h : ∀ a ∈ l, a = true) : ¬ l.head? = some false := fun hc => by
  simpa using h false (List.mem_of_mem_head? hc)

theorem tail_true {l : List Bool} (h : ∀ a ∈ l, a = true) : ∀ a ∈ l.tail, a = true :=
  fun a ha => h a (List.mem_of_mem_tail ha)

/-- On an accepting sink a byte is taken. -/
theorem emitByte_accepts {s : State} (h : s.SinkAccepts) (b : Byte) :
    ∃ t, emitByte b s = .ok t ∧ t.SinkAccepts := by
  unfold emitByte
  rw [sinkWrite_eq, if_neg (head?_ne_false h), Ended.andThen_ok]
  by_cases hb : b = 0xFF
  · rw [if_pos hb, sinkWrite_eq, if_neg (head?_ne_false (tail_true h))]
    exact ⟨_, rfl, tail_true (tail_true h)⟩
  · rw [if_neg hb]
    exact ⟨_, rfl, tail_true h⟩

/-- On an accepting sink the loop of `put_bits` ends OK. -/
theorem drain_accepts {s : State} (h : s.SinkAccepts) (n : Nat) : ∃ t, drain n s = .ok t ∧ t.SinkAccepts := by
  induction n generalizing s with
  | zero => exact ⟨s, rfl, h⟩
  | succ n ih =>
    obtain ⟨t, ht, ha⟩ :=
      emitByte_accepts (s := { s with pkReg := s.pkReg <<< 8, pkCnt := s.pkCnt - 8 }) h s.topByte
    obtain ⟨u, hu, hua⟩ := ih ha
    exact ⟨u, by rw [drain, ht, Ended.andThen_ok, hu], hua⟩

/-- On an accepting sink `put_bits` ends OK. -/
theorem putBits_accepts {s : State} (h : s.SinkAccepts) (code : BitVec 16) (length : Nat) :
    ∃ t, putBits code length s = .ok t ∧ t.SinkAccepts := by
  unfold putBits
  split_ifs
  · exact ⟨s, rfl, h⟩
  · simp only []
    refine drain_accepts ?_ _
    exact h

/-- Emitting in sequence emits the bits in sequence. -/
theorem Emits.trans {s t u : State} {a b : List Bool} (h : Emits s t a) (h' : Emits t u b) : Emits s u (a ++ b) := by
  obtain ⟨d, hs, hb⟩ := h
  obtain ⟨d', hs', hb'⟩ := h'
  refine ⟨d ++ d', by rw [hs', hs, stuffed_append, List.append_assoc], ?_⟩
  rw [List.flatMap_append, List.append_assoc, hb', ← List.append_assoc, hb, List.append_assoc]

end Sys2Proof.Machine
end

