-- ==== Sys2Proof/Laws/Encoder.lean ====
section
/-! SUPPORT. What the block encoder's procedures do (spec/43_block_encoder.md): every part of the body is a packer part, the
DC pass one that first writes the predictor, and a symbol the table has enters with its code's bits. -/

namespace Sys2Proof.Machine

/-- A body fault fails the packer and writes nothing (43_block_encoder R185). -/
theorem bodyFault_part {c : Cause} (h : (∃ n sym, c = .symbolNotInTable n sym) ∨ ∃ k, c = .coefRange k) (s : State) :
    PackerPart s (bodyFault c s) :=
  .raised c _ rfl rfl rfl rfl (.inr h) ⟨[], .inl (by simp)⟩

theorem emitSym_part (n : SlotId) (sym : Nat) (s : State) : PackerPart s (emitSym n sym s) := by
  unfold emitSym
  cases s.enc n sym with
  | none => exact bodyFault_part (.inl ⟨n, sym, rfl⟩) s
  | some e => exact putBits_part e.1 e.2.toNat s

theorem emitMagnitude_part (v : Int) (c : Nat) (s : State) : PackerPart s (emitMagnitude v c s) :=
  putBits_part _ _ s

theorem emitZrls_part (a : SlotId) (n : Nat) (s : State) : PackerPart s (emitZrls a n s) := by
  induction n generalizing s with
  | zero => exact .refl s
  | succ n ih => exact (emitSym_part a zrlSymbol s).andThen ih

theorem emitCoef_part (a : SlotId) (k run : Nat) (v : Int) (s : State) : PackerPart s (emitCoef a k run v s) := by
  refine (emitZrls_part a (run / 16) s).andThen fun t => ?_
  split_ifs
  · exact bodyFault_part (.inr ⟨k, rfl⟩) t
  · exact (emitSym_part a _ t).andThen (emitMagnitude_part v _)

theorem endOfBlock_part (a : SlotId) (run : Nat) (s : State) : PackerPart s (endOfBlock a run s) := by
  unfold endOfBlock
  split_ifs
  · exact emitSym_part a eobSymbol s
  · exact .refl s

theorem acPass_part (a : SlotId) (ks : List Nat) (run : Nat) (s : State) : PackerPart s (acPass a ks run s) := by
  induction ks generalizing run s with
  | nil => exact endOfBlock_part a run s
  | cons k ks ih =>
    simp only [acPass]
    split_ifs
    · exact ih (run + 1) s
    · exact (emitCoef_part a k run _ s).andThen (ih 0)

/-- The body of ENCBLK is a packer part of the state whose predictor is already updated (43_block_encoder R182). -/
theorem encblkBody_part (comp : Comp) (d a : SlotId) (s : State) :
    PackerPart (s.setPred comp ((s.coefAt 0).signExtend 32)) ((dcPass comp d s).andThen (acPass a acPositions 0)) :=
  ((emitSym_part d _ _).andThen (emitMagnitude_part _ _)).andThen (acPass_part a acPositions 0)

/-- A packer part reads the same elements as before: the stores and the draw number are untouched. -/
theorem PackerFrame.enc {s t : State} (h : PackerFrame s t) (n : SlotId) (sym : Nat) : t.enc n sym = s.enc n sym := by
  rw [h]
  rfl

theorem PackerFrame.coefAt {s t : State} (h : PackerFrame s t) (i : Nat) : t.coefAt i = s.coefAt i := by
  rw [h]
  rfl

/-- A present symbol with a length of at most 16, put OK, entered with its code's bits (43_block_encoder R181). -/
theorem emitSym_of_ok {s t : State} {n : SlotId} {sym : Nat} {code : BitVec 16} {length : BitVec 8}
    (he : s.enc n sym = some (code, length)) (h16 : length.toNat ≤ 16) (hp : s.PackerOk)
    (h : emitSym n sym s = .ok t) : Emits s t (msbBits length.toNat code.toNat) ∧ t.PackerOk := by
  unfold emitSym at h
  rw [he] at h
  exact putBits_of_ok hp h16 h

/-- A present symbol is put OK on an accepting sink. -/
theorem emitSym_accepts {s : State} {n : SlotId} {sym : Nat} {e : BitVec 16 × BitVec 8} (he : s.enc n sym = some e)
    (ha : s.SinkAccepts) : ∃ t, emitSym n sym s = .ok t ∧ t.SinkAccepts := by
  unfold emitSym
  rw [he]
  exact putBits_accepts ha e.1 e.2.toNat

/-- ENCBLK has one of these ends: a table not built, a closed packer, or the end of its body (43_block_encoder R180). -/
theorem encblkCommand_cases (comp : Comp) (d a : SlotId) (s : State) :
    ((s.slot d).built = false ∧ encblkCommand comp d a s = .raised (.tableNotBuilt d) s) ∨
    ((s.slot d).built = true ∧ (s.slot a).built = false ∧ encblkCommand comp d a s = .raised (.tableNotBuilt a) s) ∨
    ((s.slot d).built = true ∧ (s.slot a).built = true ∧ s.pkMode ≠ .active ∧
      encblkCommand comp d a s = .raised (.packerClosed s.pkMode) s) ∨
    ((s.slot d).built = true ∧ (s.slot a).built = true ∧ s.pkMode = .active ∧
      encblkCommand comp d a s = (dcPass comp d s).andThen (acPass a acPositions 0)) := by
  unfold encblkCommand whenBuilt whenActive
  cases (s.slot d).built <;> cases (s.slot a).built <;> by_cases h : s.pkMode = .active <;> simp [h]

/-- PUTBITS has one of these ends (42_bit_packer R152). -/
theorem putbitsCommand_cases (code : BitVec 16) (length : BitVec 8) (s : State) :
    (s.pkMode ≠ .active ∧ putbitsCommand code length s = .raised (.packerClosed s.pkMode) s) ∨
    (s.pkMode = .active ∧ 16 < length.toNat ∧ putbitsCommand code length s = .raised (.invalidCodeLength length) s) ∨
    (s.pkMode = .active ∧ length.toNat ≤ 16 ∧ putbitsCommand code length s = putBits code length.toNat s) := by
  unfold putbitsCommand whenActive Config.putMax
  by_cases h : s.pkMode = .active <;> by_cases h16 : 16 < length.toNat <;> simp [h, h16]
  omega

/-- FLUSH has one of these ends (42_bit_packer R153). -/
theorem flushCommand_cases (s : State) :
    (s.pkMode ≠ .active ∧ flushCommand s = .raised (.packerClosed s.pkMode) s) ∨
    (s.pkMode = .active ∧ s.pkCnt = 0 ∧ flushCommand s = .ok s.closePacker) ∨
    (s.pkMode = .active ∧ s.pkCnt ≠ 0 ∧
      flushCommand s = (emitByte s.topByte s).andThen fun t => .ok t.closePacker) := by
  unfold flushCommand whenActive
  by_cases h : s.pkMode = .active
  · by_cases h0 : s.pkCnt = 0
    · exact .inr (.inl ⟨h, h0, by rw [if_pos h, if_pos h0, Ended.andThen_ok]⟩)
    · exact .inr (.inr ⟨h, h0, by rw [if_pos h, if_neg h0]⟩)
  · exact .inl ⟨h, by rw [if_neg h]⟩

end Sys2Proof.Machine
end

