-- ==== Sys2Proof/Laws/Layout.lean ====
section
/-! SUPPORT. On a sink that accepts, the block encoder's procedures put exactly what the layout says and end as it says, a
fault included (spec/43_block_encoder.md rules R181 to R185, spec/42_bit_packer.md rule R155). -/

namespace Sys2Proof.Machine

/-- From `s` to `t` the stream grew by stuffed data bytes, the buffered bits and then these bits, all but what is left of them
short of a whole byte. -/
def Wrote (s t : State) (bits : List Bool) : Prop :=
  ∃ data rest, t.stream = s.stream ++ stuffed data ∧ data.flatMap byteBits ++ rest = s.pending ++ bits ∧ rest.length ≤ 7

theorem Emits.wrote {s t : State} {bits : List Bool} (h : Emits s t bits) (ht : t.PackerOk) : Wrote s t bits := by
  obtain ⟨data, hs, hb⟩ := h
  exact ⟨data, t.pending, hs, hb, by simpa using ht.1⟩

/-- Bits emitted and then bits written are bits written. -/
theorem Emits.then_wrote {s t u : State} {a b : List Bool} (h : Emits s t a) (h' : Wrote t u b) : Wrote s u (a ++ b) := by
  obtain ⟨data, hs, hb⟩ := h
  obtain ⟨data', rest, hs', hb', h7⟩ := h'
  refine ⟨data ++ data', rest, by rw [hs', hs, stuffed_append, List.append_assoc], ?_, h7⟩
  rw [List.flatMap_append, List.append_assoc, hb', ← List.append_assoc, hb, List.append_assoc]

/-- The end of a part that a layout's cause, or none, ends. -/
def endedBy : Option Cause → State → Ended
  | none, t => .ok t
  | some c, t => .raised c t

/-- The part ends as the layout says, changes the packer and the sink's side only, and, where `sizes` holds and the packer was
within its bounds, has put the layout's bits. -/
def Follows (sizes : Prop) (s : State) (l : Layout) (e : Ended) : Prop :=
  ∃ t, e = endedBy l.2 t ∧ PackerFrame s t ∧ t.pkMode = l.2.elim s.pkMode (fun _ => .failed) ∧
    (sizes → s.PackerOk → Wrote s t l.1)

theorem Follows.nothing (sizes : Prop) (s : State) : Follows sizes s ([], none) (.ok s) :=
  ⟨s, rfl, .refl s, rfl, fun _ hp => ⟨[], s.pending, by simp, by simp, by simpa using hp.1⟩⟩

theorem Follows.fault (sizes : Prop) (c : Cause) (s : State) : Follows sizes s ([], some c) (bodyFault c s) :=
  ⟨s.failPacker, rfl, rfl, rfl, fun _ hp => ⟨[], s.pending, by simp [State.failPacker], by simp, by simpa using hp.1⟩⟩

/-- Layouts that agree in their end, and in their bits where the sizes hold, are followed alike. -/
theorem Follows.congr {sizes : Prop} {s : State} {l l' : Layout} {e : Ended} (h : Follows sizes s l e) (h2 : l.2 = l'.2)
    (h1 : sizes → l.1 = l'.1) : Follows sizes s l' e := by
  obtain ⟨t, he, hf, hm, hw⟩ := h
  exact ⟨t, h2 ▸ he, hf, h2 ▸ hm, fun hs hp => h1 hs ▸ hw hs hp⟩

/-- `put_bits` before a part that follows a layout. -/
theorem Follows.put {sizes : Prop} {s : State} {l : Layout} {code : BitVec 16} {length : Nat} {f : State → Ended}
    (ha : s.SinkAccepts) (h16 : sizes → length ≤ 16)
    (hf : ∀ t, PackerFrame s t → t.SinkAccepts → Follows sizes t l (f t)) :
    Follows sizes s (l.after (msbBits length code.toNat)) ((putBits code length s).andThen f) := by
  obtain ⟨t, ht, hta⟩ := putBits_accepts ha code length
  have hpart := putBits_part code length s
  rw [ht] at hpart
  cases hpart with
  | ok _ fr mode _ =>
    obtain ⟨u, he, hu, hm, hw⟩ := hf t fr hta
    refine ⟨u, by rw [ht, Ended.andThen_ok, he]; rfl, fr.trans hu, by rw [hm, mode]; rfl, fun hs hp => ?_⟩
    obtain ⟨hem, hpt⟩ := putBits_of_ok hp (h16 hs) ht
    exact hem.then_wrote (hw hs hpt)

/-- Every length the slot's table gives is at most 16. -/
def State.ShortCodes (s : State) (n : SlotId) : Prop := ∀ sym c l, s.enc n sym = some (c, l) → l.toNat ≤ 16

theorem PackerFrame.book {s t : State} (h : PackerFrame s t) (n : SlotId) : t.book n = s.book n := by
  funext sym
  rw [State.book, State.book, h.enc]

theorem PackerFrame.shortCodes {s t : State} (h : PackerFrame s t) {n : SlotId} (hs : s.ShortCodes n) : t.ShortCodes n :=
  fun sym c l he => hs sym c l (by rw [← h.enc]; exact he)

/-- A symbol before a part that follows a layout (43_block_encoder R181). -/
theorem Follows.sym {sizes : Prop} {s : State} {l : Layout} {n : SlotId} {sym : Nat} {f : State → Ended}
    (ha : s.SinkAccepts) (h16 : sizes → s.ShortCodes n)
    (hf : ∀ t, PackerFrame s t → t.SinkAccepts → Follows sizes t l (f t)) :
    Follows sizes s (symLayout n (s.book n) sym l) ((emitSym n sym s).andThen f) := by
  unfold symLayout emitSym State.book
  cases he : s.enc n sym with
  | none => exact Follows.fault sizes _ s
  | some e => exact Follows.put ha (fun hs => h16 hs sym e.1 e.2 he) hf

theorem magbits_lt (v : Int) (c : Nat) : magbits v c < 2 ^ c := by
  have hp : (0 : Int) < 2 ^ c := by positivity
  unfold magbits
  split_ifs <;> rw [Int.toNat_lt (Int.emod_nonneg _ hp.ne')] <;> exact_mod_cast Int.emod_lt_of_pos _ hp

/-- Magnitude bits of at most 16 lose nothing as a code. -/
theorem magbits_code {v : Int} {c : Nat} (h : c ≤ 16) : (BitVec.ofNat 16 (magbits v c)).toNat = magbits v c :=
  Nat.mod_eq_of_lt (lt_of_lt_of_le (magbits_lt v c) (Nat.pow_le_pow_right (by omega) h))

/-- The AC symbol as a sum (30_encoding R82). -/
theorem acSymbol_eq (run : Nat) {c : Nat} (h : c ≤ 15) : acSymbol run c = 16 * run + c := by
  rw [acSymbol, ← Nat.shiftLeft_add_eq_or_of_lt (by omega), Nat.shiftLeft_eq, Nat.mul_comm]

/-- Magnitude bits before a part that follows a layout (30_encoding R85). -/
theorem Follows.magnitude {sizes : Prop} {s : State} {l : Layout} {v : Int} {f : State → Ended} (ha : s.SinkAccepts)
    (h16 : sizes → cat v ≤ 16) (hf : ∀ t, PackerFrame s t → t.SinkAccepts → Follows sizes t l (f t)) :
    Follows sizes s (l.after (magnitudeBits v)) ((emitMagnitude v (cat v) s).andThen f) :=
  (Follows.put ha h16 hf).congr rfl fun hs => by
    rw [magbits_code (h16 hs)]
    rfl

theorem Ended.andThen_assoc (e : Ended) (f g : State → Ended) :
    (e.andThen f).andThen g = e.andThen fun s => (f s).andThen g := by
  cases e <;> rfl

theorem Ended.andThen_ok_right (e : Ended) : e.andThen .ok = e := by cases e <;> rfl

/-- ZRL codes before a part that follows a layout. -/
theorem Follows.zrls {sizes : Prop} {a : SlotId} {l : Layout} {f : State → Ended} (n : Nat) :
    ∀ {s : State}, s.SinkAccepts → (sizes → s.ShortCodes a) →
      (∀ t, PackerFrame s t → t.SinkAccepts → Follows sizes t l (f t)) →
      Follows sizes s (zrlLayout a (s.book a) n l) ((emitZrls a n s).andThen f) := by
  induction n with
  | zero => exact fun {s} ha _ hf => hf s (.refl s) ha
  | succ n ih =>
    intro s ha h16 hf
    rw [emitZrls, Ended.andThen_assoc]
    refine Follows.sym ha h16 fun t ht hta => ?_
    rw [← ht.book a]
    exact ih hta (fun hs => ht.shortCodes (h16 hs)) fun u hu => hf u (ht.trans hu)

/-- The AC pass over the scan positions from `k` on follows the layout of their coefficients (43_block_encoder R183, R184). -/
theorem acPass_follows {sizes : Prop} {a : SlotId} (n : Nat) :
    ∀ (k run : Nat) {s : State}, s.SinkAccepts → (sizes → s.ShortCodes a) →
      Follows sizes s
        (acLayout a (s.book a) k run ((List.range' k n).map fun k => (s.coefAt (zigzagAt k)).toInt))
        (acPass a (List.range' k n) run s) := by
  induction n with
  | zero =>
    intro k run s ha h16
    simp only [List.range'_zero, List.map_nil, acLayout, acPass, endOfBlock]
    split_ifs
    · rw [← Ended.andThen_ok_right (emitSym _ _ _)]
      exact Follows.sym ha h16 fun t _ _ => .nothing sizes t
    · exact .nothing sizes s
  | succ n ih =>
    intro k run s ha h16
    have hnext : ∀ t, PackerFrame s t → t.SinkAccepts → Follows sizes t
        (acLayout a (s.book a) (k + 1) 0 ((List.range' (k + 1) n).map fun k => (s.coefAt (zigzagAt k)).toInt))
        (acPass a (List.range' (k + 1) n) 0 t) := fun t ht hta => by
      simpa only [ht.book a, ht.coefAt] using ih (k + 1) 0 hta fun hs => ht.shortCodes (h16 hs)
    simp only [List.range'_succ, List.map_cons, acLayout, acPass]
    by_cases h0 : (s.coefAt (zigzagAt k)).toInt = 0
    · rw [if_pos h0, if_pos h0]
      exact ih (k + 1) (run + 1) ha h16
    · rw [if_neg h0, if_neg h0, emitCoef, Ended.andThen_assoc]
      refine Follows.zrls (run / 16) ha h16 fun t ht hta => ?_
      by_cases h15 : cat (s.coefAt (zigzagAt k)).toInt > 15
      · rw [if_pos h15, if_pos h15]
        exact .fault sizes _ t
      · rw [if_neg h15, if_neg h15, Ended.andThen_assoc, ← ht.book a, acSymbol_eq _ (by omega)]
        refine Follows.sym hta (fun hs => ht.shortCodes (h16 hs)) fun u hu hua => ?_
        refine Follows.magnitude hua (fun _ => by omega) fun w hw hwa => ?_
        rw [ht.book a]
        exact hnext w (ht.trans (hu.trans hw)) hwa

/-- On a sink that accepts, the body of ENCBLK follows the block's layout, the predictor updated first (43_block_encoder R182 to
R185). -/
theorem encblkBody_follows {sizes : Prop} (comp : Comp) (d a : SlotId) {s : State} (ha : s.SinkAccepts)
    (hd : sizes → s.ShortCodes d) (hac : sizes → s.ShortCodes a) (hc : sizes → cat (s.diff comp) ≤ 16) :
    Follows sizes (s.setPred comp ((s.coefAt 0).signExtend 32)) (s.blockLayout comp d a)
      ((dcPass comp d s).andThen (acPass a acPositions 0)) := by
  have hscan : acPositions = List.range' 1 63 := by decide
  rw [dcPass, Ended.andThen_assoc, State.blockLayout, State.acScan, hscan]
  refine Follows.sym (s := s.setPred comp ((s.coefAt 0).signExtend 32)) ha hd fun t ht hta => ?_
  refine Follows.magnitude hta hc fun u hu hua => ?_
  have hf := ht.trans hu
  have := acPass_follows (a := a) 63 1 0 hua fun hs => hf.shortCodes (hac hs)
  simp only [hf.book a, hf.coefAt] at this
  exact this

end Sys2Proof.Machine
end

