-- ==== Sys2Proof/Laws/Memory.lean ====
section
/-! SUPPORT. The canonical form of memory: reset's memory has it, and every operation that writes a store keeps it
(spec/20_memory.md rules R50, R54). -/

namespace Sys2Proof.Machine

/-- Memory is canonical when every slot and COEF are. -/
theorem Memory.wf_iff (s : State) :
    Memory.wf s = true ↔ (∀ n, (s.slot n).wf = true) ∧ Store.wf 0 64 s.coef = true := by
  simp only [Memory.wf, Bool.and_eq_true]
  constructor
  · rintro ⟨⟨⟨⟨h0, h1⟩, h2⟩, h3⟩, hc⟩
    refine ⟨fun n => ?_, hc⟩
    fin_cases n <;> assumption
  · rintro ⟨h, hc⟩
    exact ⟨⟨⟨⟨h 0, h 1⟩, h 2⟩, h 3⟩, hc⟩

/-- A slot is canonical when each of its stores is. -/
theorem Slot.wf_iff (x : Slot) :
    x.wf = true ↔ Store.wf 0 16 x.bits = true ∧ Store.wf 0 1 x.nval = true ∧ Store.wf 0 256 x.val = true ∧
      Store.wf 0 256 x.code = true ∧ Store.wf 0 256 x.len = true ∧ Store.wf 1 17 x.lutMin = true ∧
      Store.wf 1 17 x.lutMax = true ∧ Store.wf 1 17 x.lutPtr = true := by
  simp only [Slot.wf, Bool.and_eq_true, and_assoc]

/-- Reset's memory is canonical. -/
theorem Memory.wf_reset : Memory.wf State.reset = true := by decide

/-- What leaves the slots and COEF alone keeps memory canonical. -/
theorem Memory.wf_congr {s t : State} (hs : ∀ n, t.slot n = s.slot n) (hc : t.coef = s.coef) (h : Memory.wf s = true) :
    Memory.wf t = true := by
  rw [Memory.wf_iff] at *
  exact ⟨fun n => hs n ▸ h.1 n, hc ▸ h.2⟩

/-- Replacing a slot by a canonical one keeps memory canonical. -/
theorem Memory.wf_setSlot {s : State} (h : Memory.wf s = true) (n : SlotId) {x : Slot} (hx : x.wf = true) :
    Memory.wf (s.setSlot n x) = true := by
  rw [Memory.wf_iff] at *
  refine ⟨fun m => ?_, h.2⟩
  rw [State.slot_setSlot]
  split_ifs
  · exact hx
  · exact h.1 m

/-- Clearing a slot's flags keeps memory canonical. -/
theorem Memory.wf_unbuild {s : State} (h : Memory.wf s = true) (n : SlotId) : Memory.wf (s.unbuild n) = true :=
  Memory.wf_setSlot h n (((Memory.wf_iff s).1 h).1 n)

theorem Memory.wf_setBuilt {s : State} (h : Memory.wf s = true) (n : SlotId) : Memory.wf (s.setBuilt n) = true :=
  Memory.wf_setSlot h n (((Memory.wf_iff s).1 h).1 n)

theorem Memory.wf_setLutv {s : State} (h : Memory.wf s = true) (n : SlotId) : Memory.wf (s.setLutv n) = true :=
  Memory.wf_setSlot h n (((Memory.wf_iff s).1 h).1 n)

set_option maxRecDepth 10000 in
/-- Every standard spec has sixteen counts and at most 256 values (40_code_builder R100). -/
theorem std_lengths (cls : Cls) (std : Std) :
    (Config.std cls std).counts.length = 16 ∧ (Config.std cls std).values.length ≤ 256 := by
  cases cls <;> cases std <;> exact ⟨rfl, by decide⟩

/-- LDSTD's body keeps memory canonical. -/
theorem Memory.wf_loadSpec {s : State} (h : Memory.wf s = true) (n : SlotId) (cls : Cls) (std : Std) :
    Memory.wf (loadSpec s n (Config.std cls std)) = true := by
  obtain ⟨hc, hv⟩ := std_lengths cls std
  have hs := (Slot.wf_iff _).1 (((Memory.wf_iff s).1 h).1 n)
  rw [Memory.wf_iff]
  refine ⟨fun m => ?_, ((Memory.wf_iff s).1 h).2⟩
  rw [slot_loadSpec]
  split_ifs
  · exact (Slot.wf_iff _).2 ⟨Store.wf_block _ (Nat.le_refl 0) (by omega), Store.wf_block _ (Nat.le_refl 0) (by simp),
      Store.wf_padded _ hv, hs.2.2.2⟩
  · exact ((Memory.wf_iff s).1 h).1 m

/-- Writing a table of at most 256 entries keeps memory canonical. -/
theorem Memory.wf_putTable {s : State} (h : Memory.wf s = true) (n : SlotId) {t : CodeTable}
    (hc : t.codes.length ≤ 256) (hl : t.lens.length ≤ 256) : Memory.wf (s.putTable n t) = true := by
  have hs := (Slot.wf_iff _).1 (((Memory.wf_iff s).1 h).1 n)
  exact Memory.wf_setSlot h n ((Slot.wf_iff _).2 ⟨hs.1, hs.2.1, hs.2.2.1, Store.wf_padded _ (by simpa using hc),
    Store.wf_padded _ (by simpa using hl), hs.2.2.2.2.2⟩)

/-- Forgetting a table keeps memory canonical. -/
theorem Memory.wf_forgetTable {s : State} (h : Memory.wf s = true) (n : SlotId) :
    Memory.wf (s.forgetTable n) = true := by
  have hs := (Slot.wf_iff _).1 (((Memory.wf_iff s).1 h).1 n)
  exact Memory.wf_setSlot h n ((Slot.wf_iff _).2 ⟨hs.1, hs.2.1, hs.2.2.1, rfl, rfl, hs.2.2.2.2.2⟩)

theorem length_lutEntries (codeAt : Nat → Nat) (p : Nat) (counts : List Nat) :
    (lutEntries codeAt p counts).length = counts.length := by
  induction counts generalizing p with
  | nil => rfl
  | cons c counts ih => simp [lutEntries, ih]

/-- Writing sixteen lookup entries keeps memory canonical. -/
theorem Memory.wf_putLut {s : State} (h : Memory.wf s = true) (n : SlotId) {es : List LutEntry}
    (he : es.length ≤ 16) : Memory.wf (s.putLut n es) = true := by
  have hs := (Slot.wf_iff _).1 (((Memory.wf_iff s).1 h).1 n)
  refine Memory.wf_setSlot h n ((Slot.wf_iff _).2 ⟨hs.1, hs.2.1, hs.2.2.1, hs.2.2.2.1, hs.2.2.2.2.1, ?_, ?_, ?_⟩) <;>
    exact Store.wf_block _ (Nat.le_refl 1) (by simp; omega)

@[simp] theorem State.length_counts (s : State) (n : SlotId) : (s.counts n).length = 16 := by
  simp [State.counts, Config.maxLen]

/-- BUILD's body keeps memory canonical, ended either way. -/
theorem Memory.wf_buildSlot {s : State} (h : Memory.wf s = true) (n : SlotId) :
    Memory.wf (buildSlot s n).state = true := by
  unfold buildSlot
  cases hb : buildTable (s.nvalAt n).toNat (s.counts n) (s.symbols n (s.nvalAt n).toNat) with
  | error d =>
    simp only [hb, Ended.state_raised]
    exact Memory.wf_forgetTable (Memory.wf_unbuild h n) n
  | ok t =>
    obtain ⟨hn, _⟩ := buildTable_ok hb
    obtain ⟨hl, hc⟩ := buildTable_length hb
    simp only [hb, Ended.state_ok]
    exact Memory.wf_setBuilt (Memory.wf_putTable (Memory.wf_unbuild h n) n (by omega) (by omega)) n

/-- BLDLUT's body keeps memory canonical, ended either way. -/
theorem Memory.wf_buildLut {s : State} (h : Memory.wf s = true) (n : SlotId) :
    Memory.wf (buildLut s n).state = true := by
  unfold buildLut
  split_ifs
  · exact Memory.wf_setLutv (Memory.wf_putLut h n (by rw [length_lutEntries, State.length_counts])) n
  · exact h

/-- A packer part keeps memory canonical. -/
theorem PackerPart.wf {s : State} {e : Ended} (h : PackerPart s e) (hw : Memory.wf s = true) :
    Memory.wf e.state = true := by
  cases h with
  | ok t fr => exact Memory.wf_congr (fun n => by rw [Ended.state_ok, fr]; rfl) (by rw [Ended.state_ok, fr]) hw
  | raised c t fr =>
    exact Memory.wf_congr (fun n => by rw [Ended.state_raised, fr]; rfl) (by rw [Ended.state_raised, fr]) hw

/-- Recording how a command ended keeps memory canonical. -/
theorem Memory.wf_close {e : Ended} (h : Memory.wf e.state = true) : Memory.wf e.close = true := by
  cases e with
  | ok s => exact Memory.wf_congr (s := s) (fun _ => rfl) rfl h
  | raised c s => exact Memory.wf_congr (s := s) (fun _ => rfl) rfl h

theorem slotElement_inRange {n : SlotId} {o : Nat} {e : Element} (h : slotElement n o = some e) : e.InRange := by
  unfold slotElement at h
  split_ifs at h <;> cases h <;> simp only [Element.InRange] <;> omega

/-- What the address map names is in range. -/
theorem ofAddr_inRange {a : Nat} {e : Element} (h : Element.ofAddr a = some e) : e.InRange := by
  unfold Element.ofAddr at h
  split_ifs at h <;> first | exact slotElement_inRange h | (cases h; simp only [Element.InRange]; omega)

/-- A host write to an element of the map keeps memory canonical (20_memory R53, R55). -/
theorem Memory.wf_hostWrite {s : State} (h : Memory.wf s = true) {e : Element} (he : e.InRange) (data : Word) :
    Memory.wf (s.hostWrite e data) = true := by
  have hm := (Memory.wf_iff s).1 h
  cases e with
  | coef i => exact (Memory.wf_iff _).2 ⟨hm.1, Store.wf_put hm.2 (Nat.zero_le i) he _⟩
  | bits n i =>
    have hs := (Slot.wf_iff _).1 (hm.1 n)
    refine Memory.wf_unbuild (s := s.setSlot n { s.slot n with bits := _ }) (Memory.wf_setSlot h n ?_) n
    exact (Slot.wf_iff _).2 ⟨Store.wf_put hs.1 (Nat.zero_le i) he _, hs.2⟩
  | nval n =>
    have hs := (Slot.wf_iff _).1 (hm.1 n)
    refine Memory.wf_unbuild (s := s.setSlot n { s.slot n with nval := _ }) (Memory.wf_setSlot h n ?_) n
    exact (Slot.wf_iff _).2 ⟨hs.1, Store.wf_put hs.2.1 (Nat.le_refl 0) Nat.one_pos _, hs.2.2⟩
  | val n k =>
    have hs := (Slot.wf_iff _).1 (hm.1 n)
    refine Memory.wf_unbuild (s := s.setSlot n { s.slot n with val := _ }) (Memory.wf_setSlot h n ?_) n
    exact (Slot.wf_iff _).2 ⟨hs.1, hs.2.1, Store.wf_put hs.2.2.1 (Nat.zero_le k) he _, hs.2.2.2⟩
  | csr _ => exact h
  | zigzag _ => exact h
  | lutMin _ _ => exact h
  | lutMax _ _ => exact h
  | lutPtr _ _ => exact h
  | code _ _ => exact h
  | len _ _ => exact h

/-- Hardware reset leaves memory canonical: nothing is listed. -/
theorem Memory.wf_hardwareReset (s : State) : Memory.wf s.hardwareReset = true :=
  Memory.wf_congr (s := State.reset) (fun _ => rfl) rfl Memory.wf_reset

end Sys2Proof.Machine
end

