-- ==== Sys2Proof/Laws/PerInstr.lean ====
section
/-! SUPPORT. A statement for every instruction as syntax: the word of the instruction is a row of the opcode map
(spec/30_encoding.md rule R76). -/

namespace Sys2Proof.Laws.EncodeIsLegal

/-- The instruction's word is legal: all its reserved bits are 0 (30_encoding R76). -/
def Statement (i : Instr) : Prop := wellFormedWord (encode i) = true

theorem ldstd (cls : Cls) (idx : TableIdx) (std : Std) : Statement (.ldstd cls idx std) := by
  cases cls <;> cases std <;> revert idx <;> unfold Statement <;> decide

theorem build (cls : Cls) (idx : TableIdx) : Statement (.build cls idx) := by
  cases cls <;> revert idx <;> unfold Statement <;> decide

theorem bldlut (cls : Cls) (idx : TableIdx) : Statement (.bldlut cls idx) := by
  cases cls <;> revert idx <;> unfold Statement <;> decide

theorem putbits (code : BitVec 16) (length : BitVec 8) : Statement (.putbits code length) := by
  have h : encode (.putbits code length) &&& 4278190080#32 = 1073741824#32 := by
    refine BitVec.eq_of_getLsbD_eq fun i hi => ?_
    have h32 : i < 32 := hi
    simp only [encode, BitVec.getLsbD_and, BitVec.getLsbD_append]
    by_cases h16 : i < 16
    · interval_cases i <;> simp
    · by_cases h24 : i < 24
      · interval_cases i <;> simp
      · interval_cases i <;> simp
  have hr : (⟨"PUTBITS", 0x40000000, 0xFF000000⟩ : OpcodeRow) ∈ opcodeRows := by decide
  exact List.any_eq_true.2 ⟨_, hr, decide_eq_true h⟩

theorem flush : Statement .flush := by
  unfold Statement
  decide

theorem pkrst : Statement .pkrst := by
  unfold Statement
  decide

theorem encblk (comp : Comp) (dcidx acidx : TableIdx) : Statement (.encblk comp dcidx acidx) := by
  revert comp dcidx acidx
  unfold Statement
  decide

theorem scanrst (mask : BitVec 4) : Statement (.scanrst mask) := by
  revert mask
  unfold Statement
  decide

end Sys2Proof.Laws.EncodeIsLegal
end

