-- ==== Sys2Proof/Laws/Sink.lean ====
section
/-! SUPPORT. What the sink's answers do to a command part, said once for every part (spec/20_memory.md rule R57,
spec/42_bit_packer.md rule R156). -/

namespace Sys2Proof.Machine

/-- The state with these answers of the sink to come. -/
def State.answered (s : State) (l : List Bool) : State := { s with sinkAnswers := l }

/-- The end of a part with these answers left. -/
def Ended.answered : Ended → List Bool → Ended
  | .ok s, l => .ok (s.answered l)
  | .raised c s, l => .raised c (s.answered l)

@[simp] theorem State.answered_stream (s : State) (l : List Bool) : (s.answered l).stream = s.stream := rfl
@[simp] theorem State.answered_answered (s : State) (l m : List Bool) : (s.answered l).answered m = s.answered m := rfl
@[simp] theorem Ended.answered_ok (s : State) (l : List Bool) : (Ended.ok s).answered l = .ok (s.answered l) := rfl
@[simp] theorem Ended.answered_raised (c : Cause) (s : State) (l : List Bool) :
    (Ended.raised c s).answered l = .raised c (s.answered l) := rfl

theorem Ended.stream_answered (e : Ended) (l : List Bool) : (e.answered l).state.stream = e.state.stream := by
  cases e <;> rfl

/-- How a part goes with the answers of the sink, from how it goes on a sink that accepts everything: it is the same part, with
one answer used up for each byte it writes, as long as these are accepted; the first one refused ends it with OutputFailure,
the packer FAILED, and the bytes before it written. -/
def SinkRule (f : State → Ended) : Prop := ∀ s : State, ∃ bytes,
  (f (s.answered [])).state.stream = s.stream ++ bytes ∧
  (∀ l, (∀ a ∈ l.take bytes.length, a = true) →
    f (s.answered l) = (f (s.answered [])).answered (l.drop bytes.length)) ∧
  ∀ n l, n < bytes.length → ∃ t, f (s.answered (List.replicate n true ++ false :: l)) = .raised .outputFailure t ∧
    t.pkMode = .failed ∧ t.stream = s.stream ++ bytes.take n ∧ t.sinkAnswers = l

/-- A part that ends by the state alone and writes nothing follows the rule. -/
theorem SinkRule.of_silent {f : State → Ended} (h : ∀ s l, f (s.answered l) = (f s).answered l)
    (hs : ∀ s, (f s).state.stream = s.stream) : SinkRule f := fun s =>
  ⟨[], by rw [h, Ended.stream_answered, hs, List.append_nil], fun l _ => by rw [h, h s []]; cases f s <;> rfl,
    fun _ _ hn => absurd hn (Nat.not_lt_zero _)⟩

/-- One byte handed to the sink follows the rule. -/
theorem sinkWrite_rule (b : Byte) : SinkRule (sinkWrite b) := by
  refine fun s => ⟨[b], rfl, fun l hl => ?_, fun n l hn => ?_⟩
  · rcases l with _ | ⟨_ | _, l⟩
    · rfl
    · exact absurd (hl false (by simp)) (by decide)
    · rfl
  · obtain rfl : n = 0 := by simpa using hn
    exact ⟨_, rfl, rfl, by simp [State.failPacker, State.answered], rfl⟩

/-- Parts in sequence follow the rule. -/
theorem SinkRule.andThen {f g : State → Ended} (hf : SinkRule f) (hg : SinkRule g) :
    SinkRule fun s => (f s).andThen g := by
  intro s
  beta_reduce
  obtain ⟨bs, hstr, hacc, href⟩ := hf s
  have h0 := hacc [] (by simp)
  simp only [List.drop_nil] at h0
  cases he : f (s.answered []) with
  | raised c u =>
    rw [he] at hstr
    refine ⟨bs, hstr, fun l hl => ?_, fun n l hn => ?_⟩
    · simp only [hacc l hl, he, Ended.answered_raised, Ended.andThen_raised]
    · obtain ⟨t, ht, hr⟩ := href n l hn
      exact ⟨t, by rw [ht, Ended.andThen_raised], hr⟩
  | ok u =>
    rw [he] at hstr h0
    obtain ⟨bs', hstr', hacc', href'⟩ := hg u
    have hu : u.answered [] = u := by simpa using h0.symm
    simp only [Ended.state_ok] at hstr
    refine ⟨bs ++ bs', ?_, fun l hl => ?_, fun n l hn => ?_⟩
    · rw [Ended.andThen_ok, ← hu, hstr', hstr, List.append_assoc]
    · have h1 : ∀ a ∈ l.take bs.length, a = true := fun a ha =>
        hl a ((List.take_sublist_take_left (by simp)).subset ha)
      have h2 : ∀ a ∈ (l.drop bs.length).take bs'.length, a = true := fun a ha =>
        hl a (by rw [List.length_append, List.take_add]; exact List.mem_append_right _ ha)
      simp only [hacc l h1, he, Ended.answered_ok, Ended.andThen_ok, hacc' _ h2, List.drop_drop, List.length_append, hu]
    · by_cases hlt : n < bs.length
      · obtain ⟨t, ht, hm, hs, ha⟩ := href n l hlt
        exact ⟨t, by rw [ht, Ended.andThen_raised], hm, by rw [hs, List.take_append_of_le_length (Nat.le_of_lt hlt)], ha⟩
      · obtain ⟨m, rfl⟩ := Nat.exists_eq_add_of_le (Nat.le_of_not_lt hlt)
        obtain ⟨t, ht, hm, hs, ha⟩ := href' m l (by simpa using hn)
        refine ⟨t, ?_, hm, by rw [hs, hstr, List.take_length_add_append, List.append_assoc], ha⟩
        rw [List.replicate_add, List.append_assoc, hacc _ (by simp), he]
        simp only [Ended.answered_ok, Ended.andThen_ok]
        rw [← ht]
        congr 2
        simp

/-- A part chosen by what the answers do not touch follows the rule. -/
theorem SinkRule.ite {p : State → Prop} [DecidablePred p] {f g : State → Ended} (hp : ∀ s l, p (s.answered l) ↔ p s)
    (hf : SinkRule f) (hg : SinkRule g) : SinkRule fun s => if p s then f s else g s := by
  intro s
  by_cases h : p s
  · simpa [SinkRule, hp, h] using hf s
  · simpa [SinkRule, hp, h] using hg s

/-- A part after a change of the state that neither reads the answers nor writes follows the rule. -/
theorem SinkRule.comp {f : State → Ended} (hf : SinkRule f) {g : State → State}
    (hg : ∀ s l, g (s.answered l) = (g s).answered l) (hs : ∀ s, (g s).stream = s.stream) : SinkRule fun s => f (g s) := by
  intro s
  simpa only [hg, hs] using hf (g s)

theorem SinkRule.ok : SinkRule Ended.ok := .of_silent (fun _ _ => rfl) fun _ => rfl

/-- A byte with its stuffing follows the rule. -/
theorem emitByte_rule (b : Byte) : SinkRule (emitByte b) :=
  (sinkWrite_rule b).andThen (.ite (p := fun _ => b = 0xFF) (fun _ _ => Iff.rfl) (sinkWrite_rule _) .ok)

/-- `emit_byte` of the top byte, shifted out, follows the rule. -/
theorem emitTop_rule : SinkRule fun s => emitByte s.topByte { s with pkReg := s.pkReg <<< 8, pkCnt := s.pkCnt - 8 } :=
  fun s => emitByte_rule s.topByte { s with pkReg := s.pkReg <<< 8, pkCnt := s.pkCnt - 8 }

theorem drain_rule : ∀ n, SinkRule (drain n)
  | 0 => .ok
  | n + 1 => emitTop_rule.andThen (drain_rule n)

/-- `put_bits` follows the rule. -/
theorem putBits_rule (code : BitVec 16) (length : Nat) : SinkRule (putBits code length) :=
  .ite (p := fun _ => length = 0) (fun _ _ => Iff.rfl) .ok fun s =>
    drain_rule ((s.pkCnt.toNat + length) / 8) { s with
      pkReg := s.pkReg ||| (BitVec.ofNat 32 (code.toNat &&& (2 ^ length - 1)) <<< (32 - (s.pkCnt.toNat + length)))
      pkCnt := BitVec.ofNat 8 (s.pkCnt.toNat + length) }

theorem bodyFault_rule (c : Cause) : SinkRule (bodyFault c) := .of_silent (fun _ _ => rfl) fun _ => rfl

theorem emitSym_rule (n : SlotId) (sym : Nat) : SinkRule (emitSym n sym) := by
  intro s
  have he : ∀ l, (s.answered l).enc n sym = s.enc n sym := fun _ => rfl
  unfold emitSym
  simp only [he]
  cases s.enc n sym with
  | none => exact bodyFault_rule _ s
  | some e => exact putBits_rule e.1 e.2.toNat s

theorem emitMagnitude_rule (v : Int) (c : Nat) : SinkRule (emitMagnitude v c) := putBits_rule _ _

theorem emitZrls_rule (a : SlotId) : ∀ n, SinkRule (emitZrls a n)
  | 0 => .ok
  | n + 1 => (emitSym_rule a zrlSymbol).andThen (emitZrls_rule a n)

theorem emitCoef_rule (a : SlotId) (k run : Nat) (v : Int) : SinkRule (emitCoef a k run v) :=
  (emitZrls_rule a (run / 16)).andThen
    (.ite (p := fun _ => cat v > 15) (fun _ _ => Iff.rfl) (bodyFault_rule _)
      ((emitSym_rule a _).andThen (emitMagnitude_rule v _)))

theorem endOfBlock_rule (a : SlotId) (run : Nat) : SinkRule (endOfBlock a run) :=
  .ite (p := fun _ => run > 0) (fun _ _ => Iff.rfl) (emitSym_rule a _) .ok

/-- The AC pass follows the rule. -/
theorem acPass_rule (a : SlotId) (ks : List Nat) : ∀ run, SinkRule (acPass a ks run) := by
  induction ks with
  | nil => exact endOfBlock_rule a
  | cons k ks ih =>
    intro run s
    have hc : ∀ l, (s.answered l).coefAt (zigzagAt k) = s.coefAt (zigzagAt k) := fun _ => rfl
    simp only [acPass, hc]
    by_cases h : (s.coefAt (zigzagAt k)).toInt = 0
    · simpa only [h, if_true] using ih (run + 1) s
    · simpa only [h, if_false] using
        (emitCoef_rule a k run (s.coefAt (zigzagAt k)).toInt).andThen (ih 0) s

/-- The DC pass follows the rule. -/
theorem dcPass_rule (comp : Comp) (d : SlotId) : SinkRule (dcPass comp d) := fun s =>
  (emitSym_rule d (cat (s.diff comp))).andThen (emitMagnitude_rule (s.diff comp) (cat (s.diff comp)))
    (s.setPred comp ((s.coefAt 0).signExtend 32))

end Sys2Proof.Machine
end

