-- ==== Sys2Proof/Tests/Slice0.lean ====
section
/-! SUPPORT. Tests of the model. Expected values come from spec/95_test_vectors.md (named in each comment) or by hand from
the encodings of spec/30_encoding.md; the `witness_` theorems show, for each obligation with hypotheses, a state and
operands that meet them all. -/

namespace Sys2Proof.Tests

open Sys2Proof.Machine

/-! ## Helpers -/

/-- The next state of an outcome, the reset state where there is none. -/
def after : Host.Outcome State Fault Refusal → State
  | .next s => s
  | .fault _ => State.reset
  | .refused _ => State.reset

/-- A slot that holds a spec and nothing else. -/
def specSlot (counts : List (BitVec 8)) (nval : BitVec 16) (vals : List (BitVec 16)) : Slot :=
  { Slot.reset with bits := Store.block 0 counts, nval := [(0, nval)], val := Store.block 0 vals }

/-- From reset, a slot replaced. -/
def withSlot (n : SlotId) (x : Slot) : State := State.reset.setSlot n x

/-- The spec of vector B3: one code of length 1, two of length 3, one of length 4. -/
def b3 : Slot := specSlot [1, 0, 2, 1, 0, 0, 0, 0, 0, 0, 0, 0, 0, 0, 0, 0] 4 [0, 1, 2, 3]

/-- The one-symbol spec of vector E27, built and looked up: the symbol's code is the bit 0. -/
def oneSymbol (sym : BitVec 16) : Slot :=
  { specSlot [1, 0, 0, 0, 0, 0, 0, 0, 0, 0, 0, 0, 0, 0, 0, 0] 1 [sym] with
    code := Store.padded [0]
    len := Store.padded [1]
    lutMin := Store.block 1 (0 :: List.replicate 15 (-1))
    lutMax := Store.block 1 (0 :: List.replicate 15 (-1))
    lutPtr := Store.block 1 (List.replicate 16 0)
    built := true
    lutv := true }

/-- A block that is 0 but for the given elements, in natural order. -/
def coefs (l : List (Nat × BitVec 16)) : Store 16 :=
  l.foldl (fun st c => Store.put st c.1 c.2) (Store.block 0 (List.replicate 64 0))

/-- From reset, DC index 0 with the one symbol 0 and AC index 0 with the one symbol given, built; a block in COEF. -/
def encoder (acSym : BitVec 16) (l : List (Nat × BitVec 16)) : State :=
  { (withSlot 0 (oneSymbol 0)).setSlot 2 (oneSymbol acSym) with coef := coefs l }

/-- From reset, the packer's fields replaced. -/
def packer (reg : Word) (cnt : BitVec 8) (mode : PkMode) : State :=
  { State.reset with pkReg := reg, pkCnt := cnt, pkMode := mode }

/-- From reset, the host's actions to come. -/
def hostDoes (l : List HostAction) : State := { State.reset with host := l }

/-! ## Decoding words written out from the encodings (30_encoding R71 to R79; 95_test_vectors 4.1) -/

-- opc 0001, cls 1 (AC), idx 1, std 1 (CHR), 25 zeros
theorem test_decode_ldstd : decode 0b0001_1_1_1_0000000000000000000000000 = .ok (.ldstd .ac 1 .chr) := by decide
-- opc 0001, cls 0 (DC), idx 0, std 1 (CHR): 0x12000000
theorem test_decode_ldstd_std : decode 0b0001_0_0_1_0000000000000000000000000 = .ok (.ldstd .dc 0 .chr) := by decide
-- opc 0010, cls 0 (DC), idx 1
theorem test_decode_build : decode 0b0010_0_1_00000000000000000000000000 = .ok (.build .dc 1) := by decide
-- opc 0011, cls 1 (AC), idx 0
theorem test_decode_bldlut : decode 0b0011_1_0_00000000000000000000000000 = .ok (.bldlut .ac 0) := by decide
-- opc 0100, 0000, length 00001001, code 0000000111111111
theorem test_decode_putbits : decode 0b0100_0000_00001001_0000000111111111 = .ok (.putbits 0x1FF 9) := by decide
-- 95_test_vectors 4.1: length 255 is a legal word
theorem test_decode_putbits_long : decode 0x40FFABCD = .ok (.putbits 0xABCD 255) := by decide
theorem test_decode_flush : decode 0b0101_0000000000000000000000000000 = .ok .flush := by decide
theorem test_decode_pkrst : decode 0b0110_0000000000000000000000000000 = .ok .pkrst := by decide
-- opc 0111, comp 11, dcidx 0, acidx 1
theorem test_decode_encblk : decode 0b0111_11_0_1_000000000000000000000000 = .ok (.encblk 3 0 1) := by decide
-- comp 01, dcidx 1, acidx 1: the pseudo-instruction ENCBLK 1, 1 (30_encoding R80)
theorem test_decode_encblk_pair : decode 0x77000000 = .ok (Instr.encblkPair 1 1) := by decide
-- opc 1000, mask 0010
theorem test_decode_scanrst : decode 0b1000_0010_000000000000000000000000 = .ok (.scanrst 0b0010) := by decide
-- the pseudo-instruction SCANRST (30_encoding R80)
theorem test_decode_scanrst_all : decode 0x8F000000 = .ok Instr.scanrstAll := by decide

/-- The table's word of a row, through the fixed name. -/
theorem test_decodeTableWord : decodeTableWord 32 0x70000000 = some (.encblk 0 0 0) := by decide

/-! ## Words that are no commands: each check of WellFormed refuses one (95_test_vectors 4.1) -/

theorem test_illegal_opcode_0 : wellFormedWord 0x0FFFFFFF = false ∧ decode 0x0FFFFFFF = .error (.unknownOpcode 0) := by
  decide
theorem test_illegal_opcode_9 : wellFormedWord 0x90000000 = false ∧ decode 0x90000000 = .error (.unknownOpcode 9) := by
  decide
theorem test_illegal_opcode_15 :
    wellFormedWord 0xF0000000 = false ∧ decode 0xF0000000 = .error (.unknownOpcode 15) := by decide
theorem test_illegal_ldstd : wellFormedWord 0x11000000 = false ∧ decode 0x11000000 = .error (.reservedBitSet 1) := by
  decide
theorem test_illegal_build : wellFormedWord 0x22000000 = false ∧ decode 0x22000000 = .error (.reservedBitSet 2) := by
  decide
theorem test_illegal_bldlut : wellFormedWord 0x32000000 = false ∧ decode 0x32000000 = .error (.reservedBitSet 3) := by
  decide
theorem test_illegal_putbits : wellFormedWord 0x48000000 = false ∧ decode 0x48000000 = .error (.reservedBitSet 4) := by
  decide
theorem test_illegal_flush : wellFormedWord 0x50000001 = false ∧ decode 0x50000001 = .error (.reservedBitSet 5) := by
  decide
theorem test_illegal_pkrst : wellFormedWord 0x60010000 = false ∧ decode 0x60010000 = .error (.reservedBitSet 6) := by
  decide
theorem test_illegal_encblk : wellFormedWord 0x70800000 = false ∧ decode 0x70800000 = .error (.reservedBitSet 7) := by
  decide
theorem test_illegal_scanrst : wellFormedWord 0x8F000001 = false ∧ decode 0x8F000001 = .error (.reservedBitSet 8) := by
  decide
/-- 95_test_vectors 4.1 and R232: an illegal word on a FLUSHED packer is IllegalCommand. -/
theorem test_illegal_first :
    (after (step ((packer 0 0 .flushed).withFetchWord 32 0x41080000))).lasterr = 0x41080004 := by decide

/-! ## LDSTD, BUILD, BLDLUT -/

set_option maxRecDepth 20000 in
/-- B1: LDSTD AC1, CHR loads NVAL 162, VAL[4] 0x11, VAL[161] 0xFA, 0 past it. -/
theorem test_ldstd :
    let t := after (exec (.ldstd .ac 1 .chr) State.reset)
    (t.nvalAt 3, t.bitsAt 3 15, t.valAt 3 4, t.valAt 3 161, t.valAt 3 162) = (162, 119, 0x11, 0xFA, 0) := by decide

/-- B2: LDSTD of a built and looked-up slot clears both flags. -/
theorem test_ldstd_unbuilds :
    (after (exec (.ldstd .dc 0 .lum) (withSlot 0 (oneSymbol 0)))).status = 0 := by decide

/-- B3: LEN = 1, 3, 3, 4 and CODE = 0, 100, 101, 1100. -/
theorem test_build_codes :
    let t := after (exec (.build .dc 0) (withSlot 0 b3))
    ((List.range 5).map fun k => ((t.lenAt 0 k).toNat, (t.codeAt 0 k).toNat)) =
      [(1, 0), (3, 4), (3, 5), (4, 12), (0, 0)] ∧ t.status = 0x10 := by decide

/-- B17: VAL = 07 08 07 repeats at position 2: InvalidSpec sub-cause 5, detail 2. -/
theorem test_build_repeat :
    let t := after (exec (.build .dc 0) (withSlot 0
      (specSlot [1, 1, 1, 0, 0, 0, 0, 0, 0, 0, 0, 0, 0, 0, 0, 0] 3 [7, 8, 7])))
    (t.lasterr, t.errstat) = (0x00020501, 2) := by decide

/-- L2: the lookup of B3 at lengths 1 to 4. -/
theorem test_bldlut :
    let t := after (exec (.bldlut .dc 0) (after (exec (.build .dc 0) (withSlot 0 b3))))
    ((List.range 4).map fun i => (t.lutMinAt 0 (i + 1), t.lutMaxAt 0 (i + 1), t.lutPtrAt 0 (i + 1))) =
      [(0, 0, 0), (0xFFFFFFFF, 0xFFFFFFFF, 0), (4, 5, 0xFFFFFFFD), (12, 12, 0xFFFFFFF7)] := by decide

/-- L1: BLDLUT AC1 from reset is TableNotBuilt with slot 3. -/
theorem test_bldlut_unbuilt :
    let t := after (exec (.bldlut .ac 1) State.reset)
    (t.lasterr, t.errstat) = (0x00000306, 0x40) := by decide

/-! ## PUTBITS, FLUSH, PKRST -/

/-- K3: 7 bits buffered, 16 more: AB 57 and 7 left. -/
theorem test_putbits :
    let t := after (exec (.putbits 0xABCD 16) (packer 0xAA000000 7 .active))
    (t.stream, t.pkReg, t.pkCnt) = ([0xAB, 0x57], 0x9A000000, 7) := by decide

/-- K5: two stuffed bytes from one command. -/
theorem test_putbits_stuffs :
    (after (exec (.putbits 0xFFFF 16) State.reset)).stream = [0xFF, 0x00, 0xFF, 0x00] := by decide

/-- K6: seven 1-bits flushed give FE, and the packer is FLUSHED. -/
theorem test_flush :
    let t := after (exec .flush (packer 0xFE000000 7 .active))
    (t.stream, t.pkReg, t.pkCnt, t.pkMode) = ([0xFE], 0, 0, .flushed) := by decide

/-- K12: the sink refuses the final byte: OutputFailure, FAILED. -/
theorem test_flush_refused :
    let t := after (exec .flush { packer 0xA0000000 3 .active with sinkAnswers := [false] })
    (t.stream, t.lasterr, t.pkMode) = ([], 3, .failed) := by decide

/-- K9: PKRST drops the buffered bits silently. -/
theorem test_pkrst :
    let t := after (exec .pkrst (packer 0xA8000000 5 .failed))
    (t.stream, t.pkReg, t.pkCnt, t.pkMode) = ([], 0, 0, .active) := by decide

/-! ## ENCBLK and SCANRST -/

/-- As in vector E27: position 1 is coded, then the end of block is missing: SymbolNotInTable with symbol 0 and slot 2. -/
theorem test_encblk_missing_eob :
    let t := after (exec (.encblk 0 0 0) (encoder 1 [(1, 1)]))
    (t.lasterr, t.errstat, t.pkMode, t.stream) = (0x00020007, 0x80, .failed, []) := by decide

/-- A byte refused inside ENCBLK (42_bit_packer R156): seven bits buffered and two put make a byte, which the sink refuses. -/
theorem test_encblk_sink_refusal :
    let t := after (exec (.encblk 0 0 0) { encoder 0 [] with pkReg := 0xFE000000, pkCnt := 7, sinkAnswers := [false] })
    (t.lasterr, t.errstat, t.pkMode, t.stream) = (3, 0x08, .failed, []) := by decide

/-- The reference decoder refuses the AC symbol 0x10, category 0 and run 1 (93_implementation_defined U15), and ends the block
at 0x00, one bit each here. -/
theorem test_decoder_category_zero :
    decodeAc (withSlot 2 (oneSymbol 0x10)) 2 63 1 [] [false] = none ∧
      decodeAc (withSlot 2 (oneSymbol 0x00)) 2 63 1 [] [false] = some ([], []) := by decide

/-- The all-zero block with one-bit codes (43_block_encoder R188 (a)): DC code 0, end-of-block 0, two bits buffered. -/
theorem test_encblk_zero :
    let t := after (exec (.encblk 2 0 0) (encoder 0 []))
    (t.lasterr, t.pkReg, t.pkCnt, t.stream) = (0, 0, 2, []) := by decide

/-- 95_test_vectors 4.7: SCANRST 0x2. -/
theorem test_scanrst :
    (after (exec (.scanrst 0x2) { State.reset with dcPred := #v[11, 0xFFFFFFEA, 33, 0xFFFFFFD4] })).dcPred =
      #v[11, 0, 33, 0xFFFFFFD4] := by decide

/-! ## Categories, the reference decoder, the host port -/

/-- 95_test_vectors 4.5, the corner values. -/
theorem test_cat : [0, 1, -1, -5, 32767, -32768, 65535].map cat = [0, 1, 1, 3, 15, 16, 16] := by decide

/-- 95_test_vectors 4.5: magnitude bits of -5 are 010, of -32768 0111111111111111. -/
theorem test_magbits : (magbits 5 3, magbits (-5) 3, magbits (-32768) 16) = (0b101, 0b010, 0x7FFF) := by decide

/-- L2: decoding 1 1 0 0 gives VAL[3] = 3. -/
theorem test_decodeSymbol :
    decodeSymbol (after (exec (.bldlut .dc 0) (after (exec (.build .dc 0) (withSlot 0 b3))))) 0
      [true, true, false, false, true] = some (3, [true]) := by decide

/-- 95_test_vectors 4.9: write 0x0043 <- 0x0000FFFF, read 0x0043 -> 0xFFFFFFFF. -/
theorem test_host_coef :
    (after (step (after (step (hostDoes [.write 0x43 0x0000FFFF, .read 0x43]))))).hostData = 0xFFFFFFFF := by decide

/-- 95_test_vectors 4.9: read 0x00BF is ZIGZAG[63] = 63, and the unmapped addresses are refused. -/
theorem test_host_map :
    (after (step (hostDoes [.read 0xBF]))).hostData = 0x3F ∧
      [0x10, 0xC0, 0x1050, 0x2000].all (fun a => Element.ofAddr a = none) ∧
      step (hostDoes [.read 0x2000]) = .refused (.unmappedAddress 0x2000) := ⟨by decide, by decide, rfl⟩

/-- 95_test_vectors S3: unstuffing drops the 0x00 after 0xFF only. -/
theorem test_unstuff : unstuff [0xFF, 0x00, 0xFE, 0x00] = [0xFF, 0xFE, 0x00] := by decide

/-! ## Witnesses: the hypotheses of each obligation are met -/

theorem witness_EncodeOfDecode : decode 0x7D000000 = .ok (.encblk 3 0 1) := by decide

theorem witness_LegalWordsAreTheOpcodeMap :
    decode 0x400901FF = .ok (.putbits 0x1FF 9) ∧ (⟨"PUTBITS", 0x40000000, 0xFF000000⟩ : OpcodeRow) ∈ opcodeRows := by
  decide

theorem witness_StepRunsTheDecodedCommand :
    (hostDoes [.command 0x50000000]).host = .command 0x50000000 :: [] ∧ decode 0x50000000 = .ok .flush := by decide

theorem witness_IllegalCommandChangesNothingElse :
    (hostDoes [.command 0x90000000, .reset]).host = .command 0x90000000 :: [.reset] ∧
      wellFormedWord 0x90000000 = false := by decide

theorem witness_LdstdFrame : ∃ t, exec (.ldstd .dc 0 .lum) State.reset = .next t := ⟨_, rfl⟩

/-- The spec of B3 meets V1 to V5. -/
theorem b3_specOk : SpecOk 4 [1, 0, 2, 1, 0, 0, 0, 0, 0, 0, 0, 0, 0, 0, 0, 0] [0, 1, 2, 3] where
  few := by decide
  sum := by decide
  fits := by
    intro L h1 h2
    interval_cases L <;> simp only [FitsAt] <;> decide
  small := by decide
  distinct := by decide

theorem witness_BuildAssignsCanonicalCodes :
    SpecOk ((withSlot 0 b3).nvalAt (slotOf .dc 0)).toNat ((withSlot 0 b3).counts (slotOf .dc 0))
      ((withSlot 0 b3).symbols (slotOf .dc 0) ((withSlot 0 b3).nvalAt (slotOf .dc 0)).toNat) := b3_specOk

/-- B21's shape at the boundary: no symbols at all (B4) is well formed too. -/
theorem witness_BuildAssignsCanonicalCodes_empty : SpecOk 0 (List.replicate 16 0) [] where
  few := by decide
  sum := by decide
  fits := by
    intro L h1 h2
    interval_cases L <;> simp only [FitsAt] <;> decide
  small := by decide
  distinct := by decide

/-- A state whose slot 0 holds the given spec meets the three equations of `BuildReportsTheFirstDefect`. -/
def reads (x : Slot) (m : Nat) (counts vals : List Nat) : Bool :=
  decide (m = ((withSlot 0 x).nvalAt (slotOf .dc 0)).toNat) && decide (counts = (withSlot 0 x).counts (slotOf .dc 0)) &&
    decide (vals = (withSlot 0 x).symbols (slotOf .dc 0) m)

/-- V3 at its boundary, 257 (B13). -/
theorem witness_BuildReportsTheFirstDefect_V3 :
    ((withSlot 0 (specSlot [1, 1, 0, 0, 0, 0, 0, 0, 0, 0, 0, 0, 0, 0, 0, 0] 257 [1, 2])).nvalAt (slotOf .dc 0)).toNat
      > 256 := by decide

/-- V1 (B12): the counts sum to 2, NVAL is 3. -/
theorem witness_BuildReportsTheFirstDefect_V1 :
    reads (specSlot [1, 1, 0, 0, 0, 0, 0, 0, 0, 0, 0, 0, 0, 0, 0, 0] 3 [1, 2, 3]) 3
      [1, 1, 0, 0, 0, 0, 0, 0, 0, 0, 0, 0, 0, 0, 0, 0] [1, 2, 3] = true ∧
    3 ≤ 256 ∧ [1, 1, 0, 0, 0, 0, 0, 0, 0, 0, 0, 0, 0, 0, 0, 0].sum ≠ 3 := by decide

/-- V2 at length 1 (B6). -/
theorem witness_BuildReportsTheFirstDefect_V2 :
    reads (specSlot [3, 0, 0, 0, 0, 0, 0, 0, 0, 0, 0, 0, 0, 0, 0, 0] 3 [1, 2, 3]) 3
      [3, 0, 0, 0, 0, 0, 0, 0, 0, 0, 0, 0, 0, 0, 0, 0] [1, 2, 3] = true ∧
    ¬ FitsAt [3, 0, 0, 0, 0, 0, 0, 0, 0, 0, 0, 0, 0, 0, 0, 0] 1 := by
  refine ⟨by decide, ?_⟩
  simp only [FitsAt]
  decide

/-- V2 at length 16 (B20): the lengths before it fit. -/
theorem witness_BuildReportsTheFirstDefect_V2_last :
    ¬ FitsAt [1, 1, 1, 1, 1, 1, 1, 1, 1, 1, 1, 1, 1, 1, 1, 3] 16 ∧
      ∀ L, 1 ≤ L → L < 16 → FitsAt [1, 1, 1, 1, 1, 1, 1, 1, 1, 1, 1, 1, 1, 1, 1, 3] L := by
  refine ⟨by simp only [FitsAt]; decide, fun L h1 h2 => ?_⟩
  interval_cases L <;> simp only [FitsAt] <;> decide

/-- The counts 1 1 1 fit at every length. -/
theorem ones_fit : ∀ L, 1 ≤ L → L ≤ 16 → FitsAt [1, 1, 1, 0, 0, 0, 0, 0, 0, 0, 0, 0, 0, 0, 0, 0] L := by
  intro L h1 h2
  interval_cases L <;> simp only [FitsAt] <;> decide

/-- V4 at position 1 and value 256 (B16). -/
theorem witness_BuildReportsTheFirstDefect_V4 :
    reads (specSlot [1, 1, 1, 0, 0, 0, 0, 0, 0, 0, 0, 0, 0, 0, 0, 0] 3 [1, 0x100, 0x1FF]) 3
      [1, 1, 1, 0, 0, 0, 0, 0, 0, 0, 0, 0, 0, 0, 0, 0] [1, 0x100, 0x1FF] = true ∧
    [1, 0x100, 0x1FF].getD 1 0 > 255 ∧ ∀ j, j < 1 → [1, 0x100, 0x1FF].getD j 0 ≤ 255 := by decide

/-- V5 at position 2 (B17). -/
theorem witness_BuildReportsTheFirstDefect_V5 :
    reads (specSlot [1, 1, 1, 0, 0, 0, 0, 0, 0, 0, 0, 0, 0, 0, 0, 0] 3 [7, 8, 7]) 3
      [1, 1, 1, 0, 0, 0, 0, 0, 0, 0, 0, 0, 0, 0, 0, 0] [7, 8, 7] = true ∧
    (∀ v ∈ [7, 8, 7], v ≤ 255) ∧ ([7, 8, 7].take 2).Nodup ∧ [7, 8, 7].getD 2 0 ∈ [7, 8, 7].take 2 := by decide

theorem witness_FailedBuildLeavesSlotUnusable :
    ¬ SpecOk ((withSlot 0 (specSlot [] 257 [])).nvalAt (slotOf .dc 0)).toNat
      ((withSlot 0 (specSlot [] 257 [])).counts (slotOf .dc 0))
      ((withSlot 0 (specSlot [] 257 [])).symbols (slotOf .dc 0)
        ((withSlot 0 (specSlot [] 257 [])).nvalAt (slotOf .dc 0)).toNat) := fun h => absurd h.few (by decide)

theorem witness_BuildFrame : ∃ t, exec (.build .dc 0) State.reset = .next t := ⟨_, rfl⟩

/-- The same spec in slot 0 and in slot 3 of two states. -/
theorem witness_BuildDependsOnTheSpecAlone :
    (withSlot 3 b3).nvalAt (slotOf .ac 1) = (withSlot 0 b3).nvalAt (slotOf .dc 0) ∧
    (withSlot 3 b3).counts (slotOf .ac 1) = (withSlot 0 b3).counts (slotOf .dc 0) ∧
    (withSlot 3 b3).symbols (slotOf .ac 1) ((withSlot 0 b3).nvalAt (slotOf .dc 0)).toNat =
      (withSlot 0 b3).symbols (slotOf .dc 0) ((withSlot 0 b3).nvalAt (slotOf .dc 0)).toNat := by decide

/-- The table of a one-symbol spec. -/
theorem oneSymbol_table (sym : BitVec 16) :
    (oneSymbol sym).code = Store.padded (([0] : List Nat).map (BitVec.ofNat 16)) ∧
      (oneSymbol sym).len = Store.padded (([1] : List Nat).map (BitVec.ofNat 8)) := ⟨rfl, rfl⟩

theorem witness_BuiltTableIsPrefixFree : (oneSymbol 0).TableOk :=
  ⟨1, [1, 0, 0, 0, 0, 0, 0, 0, 0, 0, 0, 0, 0, 0, 0, 0], [0], ⟨[1], [0]⟩, by decide, by decide, (oneSymbol_table 0).1,
    (oneSymbol_table 0).2⟩

/-- Length 1 has codes, length 16 has none. -/
theorem witness_BldlutWritesEveryLength :
    ((withSlot 0 (oneSymbol 0)).slot (slotOf .dc 0)).built = true ∧
    ((withSlot 0 (oneSymbol 0)).counts (slotOf .dc 0)).getD 0 0 = 1 ∧
    ((withSlot 0 (oneSymbol 0)).counts (slotOf .dc 0)).getD 15 0 = 0 := by decide

theorem witness_BldlutNeedsABuiltTable : (State.reset.slot (slotOf .ac 1)).built = false := by decide

theorem witness_BldlutFrame : ∃ t, exec (.bldlut .dc 0) State.reset = .next t := ⟨_, rfl⟩

theorem witness_BuildThenBldlutMakesTheSlotReady :
    (withSlot 0 b3).SpecHeld 0 ∧ SpecOk ((withSlot 0 b3).nvalAt 0).toNat ((withSlot 0 b3).counts 0)
      ((withSlot 0 b3).symbols 0 ((withSlot 0 b3).nvalAt 0).toNat) :=
  ⟨⟨by decide, by decide, by decide⟩, b3_specOk⟩

/-- An empty packer and one with 7 bits, an accepting sink, lengths 0 and 16. -/
theorem witness_PutbitsEntersItsBits :
    (State.reset.pkMode = .active ∧ State.reset.PackerOk ∧ State.reset.SinkAccepts ∧ (0 : BitVec 8).toNat ≤ 16) ∧
    (packer 0xFE000000 7 .active).pkMode = .active ∧ (packer 0xFE000000 7 .active).PackerOk ∧
    (packer 0xFE000000 7 .active).SinkAccepts ∧ (16 : BitVec 8).toNat ≤ 16 := by
  unfold State.PackerOk State.SinkAccepts
  decide

theorem witness_PutbitsOfNoBitsIsANoop : (packer 0xF0000000 4 .active).pkMode = .active := by decide

/-- A FLUSHED packer; an ACTIVE one with length 17. -/
theorem witness_PutbitsAdmission :
    (packer 0 0 .flushed).pkMode ≠ .active ∧ State.reset.pkMode = .active ∧ (17 : BitVec 8).toNat > 16 := by decide

/-- Nothing buffered, and 7 bits buffered. -/
theorem witness_FlushWritesTheFinalByte :
    (State.reset.pkMode = .active ∧ State.reset.PackerOk ∧ State.reset.SinkAccepts ∧ State.reset.pkCnt = 0) ∧
    (packer 0xFE000000 7 .active).pkMode = .active ∧ (packer 0xFE000000 7 .active).PackerOk ∧
    (packer 0xFE000000 7 .active).SinkAccepts ∧ (packer 0xFE000000 7 .active).pkCnt ≠ 0 := by
  unfold State.PackerOk State.SinkAccepts
  decide

theorem witness_FlushNeedsAnActivePacker :
    (packer 0 0 .flushed).pkMode ≠ .active ∧ (packer 0 0 .failed).pkMode ≠ .active := by decide

theorem witness_PackerCommandsFrame :
    (∃ t, exec (.putbits 1 1) State.reset = .next t) ∧ (∃ t, exec .flush State.reset = .next t) ∧
      ∃ t, exec .pkrst State.reset = .next t := ⟨⟨_, rfl⟩, ⟨_, rfl⟩, ⟨_, rfl⟩⟩

/-- The first clause: the second byte of a PUTBITS refused, and the only byte of an ENCBLK, whose accepting runs write two and one
byte; then all answers accepted. -/
theorem witness_SinkRefusalFailsThePacker_any :
    ({ State.reset with sinkAnswers := [true, false] }.sinkAnswers = List.replicate 1 true ++ false :: [] ∧
      (after (exec (.putbits 0xABCD 16) State.reset)).stream = [0xAB, 0xCD]) ∧
    ({ encoder 0 [] with pkReg := 0xFE000000, pkCnt := 7, sinkAnswers := [false] }.sinkAnswers =
        List.replicate 0 true ++ false :: [] ∧
      (after (exec (.encblk 0 0 0) { encoder 0 [] with pkReg := 0xFE000000, pkCnt := 7 })).stream = [0xFE]) ∧
    ∀ a ∈ ([true, true] : List Bool).take 2, a = true := by decide

/-- The three spelled-out clauses: 8 bits at the boundary, a FLUSH with a bit buffered, a refused stuffing byte. -/
theorem witness_SinkRefusalFailsThePacker :
    (State.reset.pkMode = .active ∧ (8 : BitVec 8).toNat ≤ 16 ∧ 8 ≤ State.reset.pkCnt.toNat + (8 : BitVec 8).toNat ∧
      (8 : BitVec 8) ≠ 0 ∧ { State.reset with sinkAnswers := [false] }.sinkAnswers = false :: []) ∧
    ({ packer 0x80000000 1 .active with sinkAnswers := [false] }.pkMode = .active ∧
      { packer 0x80000000 1 .active with sinkAnswers := [false] }.pkCnt ≠ 0 ∧
      { packer 0x80000000 1 .active with sinkAnswers := [false] }.sinkAnswers = false :: []) ∧
    { State.reset with sinkAnswers := [true, false] }.pkMode = .active ∧
      { State.reset with sinkAnswers := [true, false] }.pkCnt = 0 ∧
      { State.reset with sinkAnswers := [true, false] }.pkReg = 0 ∧
      { State.reset with sinkAnswers := [true, false] }.sinkAnswers = true :: false :: [] := by decide

/-- The tables of `encoder` are those of well-formed specs. -/
theorem encoder_tables (acSym : BitVec 16) (h : acSym.toNat ≤ 255) (l : List (Nat × BitVec 16)) :
    ((encoder acSym l).slot (slotOf .dc 0)).TableOk ∧ ((encoder acSym l).slot (slotOf .ac 0)).TableOk := by
  refine ⟨witness_BuiltTableIsPrefixFree,
    ⟨1, [1, 0, 0, 0, 0, 0, 0, 0, 0, 0, 0, 0, 0, 0, 0, 0], [acSym.toNat], ⟨[1], [0]⟩, rfl, ?_, rfl, rfl⟩⟩
  have h1 : firstAbove 0 [acSym.toNat] = none := by simp only [firstAbove]; rw [if_neg (by omega)]
  have h2 : firstRepeat 0 [] [acSym.toNat] = none := by simp [firstRepeat]
  have h3 : pass2 (pass1 [1, 0, 0, 0, 0, 0, 0, 0, 0, 0, 0, 0, 0, 0, 0, 0]) = .ok [0] := by decide
  unfold buildTable
  rw [h3]
  simp only [h1, h2]
  decide

/-- The all-zero block with one-symbol tables: two bits. -/
theorem witness_EncblkEmitsTheBlock :
    ((encoder 0 []).slot (slotOf .dc 0)).built = true ∧ ((encoder 0 []).slot (slotOf .ac 0)).built = true ∧
    ((encoder 0 []).slot (slotOf .dc 0)).TableOk ∧ ((encoder 0 []).slot (slotOf .ac 0)).TableOk ∧
    (encoder 0 []).pkMode = .active ∧ (encoder 0 []).PackerOk ∧ (encoder 0 []).SinkAccepts ∧
    (encoder 0 []).PredsInRange ∧
    blockBits ((encoder 0 []).book (slotOf .dc 0)) ((encoder 0 []).book (slotOf .ac 0)) ((encoder 0 []).diff 2)
      (encoder 0 []).acScan = some [false, false] := by
  refine ⟨by decide, by decide, (encoder_tables 0 (by decide) []).1, (encoder_tables 0 (by decide) []).2, by decide, ?_, ?_,
    ?_, by decide⟩
  · unfold State.PackerOk; decide
  · unfold State.SinkAccepts; decide
  · unfold State.PredsInRange; decide

theorem witness_EncblkOfTheZeroBlock :
    ((encoder 0 []).slot (slotOf .dc 0)).built = true ∧ ((encoder 0 []).slot (slotOf .ac 0)).built = true ∧
    (encoder 0 []).pkMode = .active ∧ (encoder 0 []).PackerOk ∧ (encoder 0 []).SinkAccepts ∧
    (encoder 0 []).pred 0 = 0 ∧ (∀ i, i < 64 → (encoder 0 []).coefAt i = 0) ∧
    (encoder 0 []).enc (slotOf .dc 0) 0 = some (0, 1) ∧ (encoder 0 []).enc (slotOf .ac 0) 0 = some (0, 1) ∧
    (1 : BitVec 8).toNat ≤ 16 := by
  unfold State.PackerOk State.SinkAccepts
  decide

/-- Neither slot built (E19); the AC slot not built (E20); both built and the packer FLUSHED (E21). -/
theorem witness_EncblkAdmission :
    (State.reset.slot (slotOf .dc 0)).built = false ∧
    (((withSlot 0 (oneSymbol 0)).slot (slotOf .dc 0)).built = true ∧
      ((withSlot 0 (oneSymbol 0)).slot (slotOf .ac 0)).built = false) ∧
    ({ encoder 0 [] with pkMode := .flushed }.slot (slotOf .dc 0)).built = true ∧
      ({ encoder 0 [] with pkMode := .flushed }.slot (slotOf .ac 0)).built = true ∧
      { encoder 0 [] with pkMode := .flushed }.pkMode ≠ .active := by decide

/-- DC difference 1 has category 1, which the one-symbol table lacks. -/
theorem witness_EncblkMissingDcSymbol :
    ((encoder 0 [(0, 1)]).slot (slotOf .dc 0)).built = true ∧ ((encoder 0 [(0, 1)]).slot (slotOf .ac 0)).built = true ∧
    (encoder 0 [(0, 1)]).pkMode = .active ∧
    (encoder 0 [(0, 1)]).enc (slotOf .dc 0) (cat ((encoder 0 [(0, 1)]).diff 0)) = none := by decide

/-- The premises of `EncblkFirstCoefficientFaults` on a block of `encoder`, as a Bool for the kernel. -/
def firstCoefficient (s : State) (r : Nat) (v : Int) : Bool :=
  (s.slot (slotOf .dc 0)).built && (s.slot (slotOf .ac 0)).built && decide (s.pkMode = .active) &&
    decide (s.enc (slotOf .dc 0) (cat (s.diff 0)) = some (0, 1)) && decide (r < 63) &&
    decide (∀ j, j < r → s.acScan.getD j 0 = 0) && decide (s.acScan.getD r 0 = v) && decide (v ≠ 0)

/-- Clause one after no zero: position 1, natural index 1, is -32768. -/
theorem witness_EncblkFirstCoefficientFaults_range :
    firstCoefficient (encoder 0 [(1, 0x8000)]) 0 (-32768) = true := by decide

/-- Clause two after 15 zeros: position 16, natural index ZIGZAG[16], is 1, and the table lacks the symbol 0xF1. -/
theorem witness_EncblkFirstCoefficientFaults_symbol :
    firstCoefficient (encoder 0 [(Config.zigzag.getD 16 0, 1)]) 15 1 = true ∧
      (encoder 0 [(Config.zigzag.getD 16 0, 1)]).enc (slotOf .ac 0) (16 * 15 + cat 1) = none := by decide

/-- After 16 zeros, position 17: the ZRL symbol is missing; and it is there, and then the symbol 0x01 is missing. -/
theorem witness_EncblkFirstCoefficientFaults_zrl :
    (firstCoefficient (encoder 0 [(Config.zigzag.getD 17 0, 1)]) 16 1 = true ∧
      (encoder 0 [(Config.zigzag.getD 17 0, 1)]).enc (slotOf .ac 0) 0xF0 = none) ∧
    firstCoefficient (encoder 0xF0 [(Config.zigzag.getD 17 0, 1)]) 16 1 = true ∧
      ((encoder 0xF0 [(Config.zigzag.getD 17 0, 1)]).enc (slotOf .ac 0) 0xF0).isSome ∧
      (encoder 0xF0 [(Config.zigzag.getD 17 0, 1)]).enc (slotOf .ac 0) (16 * (16 % 16) + cat 1) = none := by decide

/-- No nonzero AC coefficient, and no end-of-block symbol. -/
theorem witness_EncblkFirstCoefficientFaults_eob :
    (∀ j, j < 63 → (encoder 1 []).acScan.getD j 0 = 0) ∧ (encoder 1 []).enc (slotOf .ac 0) 0x00 = none ∧
      (encoder 1 []).enc (slotOf .dc 0) (cat ((encoder 1 []).diff 0)) = some (0, 1) := by decide

/-- The sink of every `encoder` state accepts. -/
theorem encoder_accepts (acSym : BitVec 16) (l : List (Nat × BitVec 16)) : (encoder acSym l).SinkAccepts := by
  intro a ha
  cases ha

/-- A fault after the first coefficient: as in E27, it is coded, 0 for its symbol and 1 for its magnitude, and then the
end-of-block symbol is missing. And a block that ends OK. -/
theorem witness_EncblkBodyFaultFailsThePacker :
    (((encoder 1 [(1, 1)]).slot (slotOf .dc 0)).built = true ∧ ((encoder 1 [(1, 1)]).slot (slotOf .ac 0)).built = true ∧
      (encoder 1 [(1, 1)]).pkMode = .active ∧ (encoder 1 [(1, 1)]).SinkAccepts ∧
      (encoder 1 [(1, 1)]).blockLayout 0 0 2 = ([false, false, true], some (.symbolNotInTable 2 0))) ∧
    (encoder 0 []).blockLayout 0 0 2 = ([false, false], none) :=
  ⟨⟨by decide, by decide, by decide, encoder_accepts 1 _, by decide⟩, by decide⟩

theorem witness_EncblkFrame : ∃ t, exec (.encblk 0 0 0) (encoder 0 []) = .next t := ⟨_, rfl⟩

theorem witness_CategoryIsTheBitLength : (-1 : Int) ≠ 0 ∧ 2 ^ (1 - 1) ≤ (-1 : Int).natAbs ∧ (-1 : Int).natAbs < 2 ^ 1 := by
  decide

theorem witness_MagnitudeBitsTellTheSign : (0 : Int) < 1 ∧ (-1 : Int) < 0 := by decide

set_option maxRecDepth 20000 in
/-- Two slots of `encoder` are ready. -/
theorem encoder_ready : (encoder 0 []).SlotReady 0 ∧ (encoder 0 []).SlotReady 2 := by
  refine ⟨⟨⟨by decide, by decide, by decide⟩, by decide, ⟨[1], [0]⟩, by decide, by decide, by decide⟩,
    ⟨⟨by decide, by decide, by decide⟩, by decide, ⟨[1], [0]⟩, by decide, by decide, by decide⟩⟩

theorem witness_DecodingACodeGivesItsSymbol :
    (encoder 0 []).SlotReady 0 ∧ (encoder 0 []).enc 0 0 = some (0, 1) := ⟨encoder_ready.1, by decide⟩

theorem witness_BlockRoundTrip :
    (encoder 0 []).SlotReady (slotOf .dc 0) ∧ (encoder 0 []).SlotReady (slotOf .ac 0) ∧
    (encoder 0 []).pkMode = .active ∧ (encoder 0 []).PackerOk ∧ (encoder 0 []).SinkAccepts ∧
    (encoder 0 []).PredsInRange ∧ (after (exec (.encblk 0 0 0) (encoder 0 []))).lasterr = 0 := by
  refine ⟨encoder_ready.1, encoder_ready.2, by decide, ?_, ?_, ?_, by decide⟩
  · unfold State.PackerOk; decide
  · unfold State.SinkAccepts; decide
  · unfold State.PredsInRange; decide

/-- One element of each clause, at the ends of their ranges. -/
theorem witness_HostReadsBackItsWrites :
    [Element.coef 63, .bits 0 15, .nval 3, .val 3 255].all fun e =>
      decide (Element.ofAddr e.addr = some e ∧
        (hostDoes [.write e.addr 1, .read e.addr]).host = .write e.addr 1 :: .read e.addr :: []) := by decide

theorem witness_SpecWritesUnbuildTheSlot :
    (hostDoes [.write (Element.nval 2).addr 162]).host = .write (Element.nval 2).addr 162 :: [] ∧
      Element.ofAddr (Element.nval 2).addr = some (.nval 2) ∧ (Element.nval 2).inSpec 2 = true := by decide

/-- A constant, a register of each clause at the ends of its range, and a store's element that holds a value. -/
theorem witness_HostReadsHaveNoSideEffect :
    ((hostDoes [.read 0x82]).host = .read 0x82 :: [] ∧ Element.ofAddr 0x82 = some (.zigzag 2)) ∧
    ([0, 1, 2, 3, 4, 5, 7, 8, 11, 12, 15].all fun n => decide (Element.ofAddr n = some (.csr n))) ∧
    Element.ofAddr 0x1010 = some (.nval 0) ∧ (withSlot 0 b3).cell (.nval 0) = some 4 := by decide

/-- A register (95_test_vectors 4.9), and a TBL element. -/
theorem witness_ReadOnlyWritesHaveNoEffect :
    ((hostDoes [.write 0 1]).host = .write 0 1 :: [] ∧ Element.ofAddr 0 = some (.csr 0) ∧
      (∀ n, (Element.csr 0).inSpec n = false) ∧ Element.csr 0 ≠ .coef 0) ∧
    Element.ofAddr 0x1200 = some (.code 0 0) ∧ ∀ n, (Element.code 0 0).inSpec n = false := by decide

theorem witness_AddressMapIsExact : Element.ofAddr 0x1FFF = some (.len 3 255) := by decide

theorem witness_HardwareResetLeavesTheResetState : (hostDoes [.reset]).host = .reset :: [] := by decide

theorem witness_ResetDuringACommandKeepsAPrefix :
    (hostDoes [.resetDuring 0x4010FFFF 1]).host = .resetDuring 0x4010FFFF 1 :: [] := by decide

/-- A state with bits buffered, two built slots and an error recorded, an ENCBLK the host's next action. -/
def busy : State :=
  { encoder 0 [] with
    host := [.command 0x70000000], pkReg := 0xFE000000, pkCnt := 7, errstat := 0x100, lasterr := 0x308 }

set_option maxRecDepth 20000 in
/-- It meets the invariant and steps. -/
theorem witness_EveryStepKeepsTheInvariant : busy.Inv ∧ ∃ t, step busy = .next t := by
  have ready : ∀ n, ((encoder 0 []).slot n).built = true → (encoder 0 []).SlotReady n := by
    intro n
    fin_cases n
    · exact fun _ => encoder_ready.1
    · exact fun hb => absurd hb (by decide)
    · exact fun _ => encoder_ready.2
    · exact fun hb => absurd hb (by decide)
  refine ⟨⟨by decide, fun _ => ?_, fun n => ?_, fun n hb _ => ?_, by decide, fun n hl _ => ?_, ?_, ?_, by decide⟩, ⟨_, rfl⟩⟩
  · unfold State.PackerOk; decide
  · have h := encoder_tables 0 (by decide) []
    fin_cases n
    · exact fun _ => h.1
    · exact fun hb => absurd hb (by decide)
    · exact fun _ => h.2
    · exact fun hb => absurd hb (by decide)
  · obtain ⟨t, ht, hp, _⟩ := (ready n hb).2.2
    exact ⟨t, ht, hp⟩
  · have hb : ∀ n, ((encoder 0 []).slot n).lutv = true → ((encoder 0 []).slot n).built = true := by decide
    exact ready n (hb n hl)
  · unfold State.PredsInRange; decide
  · intro i h
    by_cases hi : i < 32
    · revert h; revert i; decide
    · simp [BitVec.getLsbD_of_ge _ i (Nat.le_of_not_lt hi)] at h

/-- The same state: an ENCBLK from it ends, on a sink that accepts, with two bits put on top of the seven buffered. -/
theorem witness_EveryCommandStuffsItsBytes :
    busy.Inv ∧ busy.pkMode = .active ∧ busy.SinkAccepts ∧ (∃ t, exec (.encblk 0 0 0) busy = .next t) ∧
      busy.bitsPut (.encblk 0 0 0) = [false, false] :=
  ⟨witness_EveryStepKeepsTheInvariant.1, by decide, encoder_accepts 0 [], ⟨_, rfl⟩, by decide⟩

theorem witness_TheStreamOnlyGrows : ∃ t, step (hostDoes [.command 0x400901FF]) = .next t := ⟨_, rfl⟩

/-- A set bit cleared: by hardware reset. -/
theorem witness_ErrstatIsStickyAndUnread :
    let s := { hostDoes [.reset] with errstat := 0x10 }
    ∃ t, step s = .next t ∧ s.errstat.getLsbD 4 = true ∧ t.errstat.getLsbD 4 = false := ⟨_, rfl, by decide, by decide⟩

theorem witness_OnlyPkrstAndResetReopenThePacker :
    let s := { packer 0 0 .failed with host := [.command 0x60000000] }
    ∃ t, step s = .next t ∧ s.pkMode ≠ .active ∧ t.pkMode = .active := ⟨_, rfl, by decide, rfl⟩

theorem witness_OnlyBuildSetsBuilt :
    let s := { withSlot 0 b3 with host := [.command 0x20000000] }
    ∃ t, step s = .next t ∧ (s.slot 0).built = false ∧ (t.slot 0).built = true := ⟨_, rfl, by decide, by decide⟩

theorem witness_StoresAreWrittenByTheirOwners :
    let s := hostDoes [.write 0x40 7]
    ∃ t, step s = .next t ∧ t.cell (.coef 0) ≠ s.cell (.coef 0) := ⟨_, rfl, by decide⟩

theorem witness_FailedPackerRegistersAreUnread : (packer 0x12345678 9 .failed).pkMode = .failed := by decide

end Sys2Proof.Tests
end

section
/-! How a command and a step end (spec/00_scope.md rules R8 and R9, spec/60_exceptions.md rule R230): every command is a
command part followed by `finish`, no part touches ERRSTAT, so that what `finish` records is the command's end; and a step
is the host's next action. -/

namespace Sys2Proof.Machine

/-! ## Recording an end -/

theorem Cause.code_pos (c : Cause) : 1 ≤ c.code := by
  cases c <;> simp [Cause.code]

theorem Cause.code_le (c : Cause) : c.code ≤ 8 := by
  cases c <;> simp [Cause.code]

/-- An OK end is recorded as one. -/
theorem State.endedOk_endOk (s : State) : EndedOk s s.endOk := ⟨rfl, rfl⟩

/-- A fault taken is recorded: its code fits the low byte of LASTERR, and its bit is one of the 32 of ERRSTAT. -/
theorem State.endedWith_takeFault (c : Cause) (s : State) : EndedWith c s (s.takeFault c) := by
  have hle := c.code_le
  refine ⟨?_, fun i => ?_⟩
  · rw [State.takeFault_lasterr, BitVec.toNat_append, BitVec.toNat_ofNat, Nat.mod_eq_of_lt (by omega),
      ← Nat.shiftLeft_add_eq_or_of_lt (by omega), Nat.shiftLeft_eq, Nat.add_comm]
  · have hbit : (1#32 <<< c.code).getLsbD i = decide (i = c.code) := by
      rw [← BitVec.twoPow_eq, BitVec.getLsbD_twoPow, Bool.eq_iff_iff]
      simp only [Bool.and_eq_true, decide_eq_true_eq]
      omega
    rw [State.takeFault_errstat, BitVec.getLsbD_or, hbit]

/-- How the state after a command compares with the one its part left: OK or with a recorded cause. -/
theorem Ended.close_cases (e : Ended) :
    EndedOk e.state e.close ∨ ∃ c : Cause, EndedWith c e.state e.close := by
  cases e with
  | ok s => exact .inl s.endedOk_endOk
  | raised c s => exact .inr ⟨c, s.endedWith_takeFault c⟩

/-- Of the state a command began in, the two ways to end speak of ERRSTAT only. -/
theorem EndedOk.of_errstat_eq {s s' t : State} (h : EndedOk s' t) (hs : s'.errstat = s.errstat) : EndedOk s t := by
  unfold EndedOk at *
  rwa [← hs]

theorem EndedWith.of_errstat_eq {c : Cause} {s s' t : State} (h : EndedWith c s' t) (hs : s'.errstat = s.errstat) :
    EndedWith c s t := by
  unfold EndedWith at *
  rwa [← hs]

/-! ## Every command is a part and its end -/

/-- The part of a command before its end is recorded. -/
def commandPart : Instr → State → Ended
  | .ldstd cls idx std, s => .ok (loadSpec s (slotOf cls idx) (Config.std cls std))
  | .build cls idx, s => buildSlot s (slotOf cls idx)
  | .bldlut cls idx, s => buildLut s (slotOf cls idx)
  | .putbits code length, s => putbitsCommand code length s
  | .flush, s => flushCommand s
  | .pkrst, s => .ok s.resetPacker
  | .encblk comp dcidx acidx, s => encblkCommand comp (slotOf .dc dcidx) (slotOf .ac acidx) s
  | .scanrst mask, s => .ok ([0, 1, 2, 3].foldl (clearPred mask) s)

/-- A command is its part, then its end (60_exceptions R230). -/
theorem exec_eq_finish (i : Instr) (s : State) : exec i s = finish (commandPart i s) := by
  cases i <;> rfl

/-! ## No command part touches ERRSTAT -/

/-- However a packer part ends, only the packer and the sink's side differ. -/
theorem PackerPart.frame {s : State} {e : Ended} (h : PackerPart s e) : PackerFrame s e.state := by
  cases h with
  | ok t frame => exact frame
  | raised c t frame => exact frame

theorem PackerFrame.errstat {s t : State} (h : PackerFrame s t) : t.errstat = s.errstat := by rw [h]

theorem buildSlot_errstat (s : State) (n : SlotId) : (buildSlot s n).state.errstat = s.errstat := by
  simp only [buildSlot]
  split <;> simp

theorem buildLut_errstat (s : State) (n : SlotId) : (buildLut s n).state.errstat = s.errstat := by
  unfold buildLut
  split_ifs <;> simp

theorem putbitsCommand_errstat (code : BitVec 16) (length : BitVec 8) (s : State) :
    (putbitsCommand code length s).state.errstat = s.errstat := by
  obtain ⟨-, h⟩ | ⟨-, -, h⟩ | ⟨-, -, h⟩ := putbitsCommand_cases code length s <;> rw [h]
  · rfl
  · rfl
  · exact (putBits_part code length.toNat s).frame.errstat

/-- Closing the packer after a part that went well changes no error register. -/
theorem errstat_andThen_closePacker (e : Ended) :
    (e.andThen fun t => .ok t.closePacker).state.errstat = e.state.errstat := by
  cases e <;> rfl

theorem flushCommand_errstat (s : State) : (flushCommand s).state.errstat = s.errstat := by
  obtain ⟨-, h⟩ | ⟨-, -, h⟩ | ⟨-, -, h⟩ := flushCommand_cases s <;> rw [h]
  · rfl
  · rfl
  · rw [errstat_andThen_closePacker]
    exact (emitByte_part s.topByte s).frame.errstat

theorem encblkCommand_errstat (comp : Comp) (d a : SlotId) (s : State) :
    (encblkCommand comp d a s).state.errstat = s.errstat := by
  obtain ⟨-, h⟩ | ⟨-, -, h⟩ | ⟨-, -, -, h⟩ | ⟨-, -, -, h⟩ := encblkCommand_cases comp d a s <;> rw [h]
  · rfl
  · rfl
  · rfl
  · exact (encblkBody_part comp d a s).frame.errstat

@[simp] theorem clearPred_errstat (mask : BitVec 4) (s : State) (c : Comp) :
    (clearPred mask s c).errstat = s.errstat := by
  unfold clearPred
  split_ifs <;> rfl

/-- ERRSTAT is written where a command ends, never before (60_exceptions R230). -/
theorem commandPart_errstat (i : Instr) (s : State) : (commandPart i s).state.errstat = s.errstat := by
  cases i with
  | ldstd cls idx std => rfl
  | build cls idx => exact buildSlot_errstat s _
  | bldlut cls idx => exact buildLut_errstat s _
  | putbits code length => exact putbitsCommand_errstat code length s
  | flush => exact flushCommand_errstat s
  | pkrst => rfl
  | encblk comp dcidx acidx => exact encblkCommand_errstat comp _ _ s
  | scanrst mask => simp [commandPart]

/-- Settles O9: every command is a part, then `finish`, which records the end the part came to. -/
theorem everyCommandEnds : Obligations.EveryCommandEnds := by
  intro i s
  have hs := commandPart_errstat i s
  refine ⟨_, exec_eq_finish i s, (commandPart i s).close_cases.imp (·.of_errstat_eq hs) ?_⟩
  rintro ⟨c, h⟩
  exact ⟨c, h.of_errstat_eq hs, c.code_pos, c.code_le⟩

/-! ## A step is the host's next action -/

theorem step_of_host_nil {s : State} (h : s.host = []) : step s = .next s := by
  simp only [step, hostTurn, h]

theorem step_of_host_cons {s : State} {a : HostAction} {rest : List HostAction} (h : s.host = a :: rest) :
    step s = hostAction a { s with host := rest } := by
  simp only [step, hostTurn, h]

theorem runCommand_of_decode {w : Word} {i : Instr} (h : decode w = .ok i) (s : State) : runCommand w s = exec i s := by
  simp only [runCommand, h]

/-- A command word, legal or not, leads to a next state. -/
theorem runCommand_next (w : Word) (s : State) : ∃ t, runCommand w s = .next t := by
  unfold runCommand
  cases decode w with
  | ok i => exact ⟨_, exec_eq_finish i s⟩
  | error e => exact ⟨_, rfl⟩

theorem hostAction_write {addr : Nat} {e : Element} (h : Element.ofAddr addr = some e) (data : Word) (s : State) :
    hostAction (.write addr data) s = .next { s.hostWrite e data with draws := s.draws + 1 } := by
  simp only [hostAction, h]

theorem hostAction_read {addr : Nat} {e : Element} (h : Element.ofAddr addr = some e) (s : State) :
    hostAction (.read addr) s = .next { s with hostData := s.hostRead e, draws := s.draws + 1 } := by
  simp only [hostAction, h]

theorem hostAction_write_unmapped {addr : Nat} (h : Element.ofAddr addr = none) (data : Word) (s : State) :
    hostAction (.write addr data) s = .refused (.unmappedAddress addr) := by
  simp only [hostAction, h]

theorem hostAction_read_unmapped {addr : Nat} (h : Element.ofAddr addr = none) (s : State) :
    hostAction (.read addr) s = .refused (.unmappedAddress addr) := by
  simp only [hostAction, h]

/-- A host action leads to a next state, or it is a read or a write of an unmapped address and refused (20_memory R56). -/
theorem hostAction_cases (a : HostAction) (s : State) :
    (∃ t, hostAction a s = .next t) ∨
      ∃ addr, hostAction a s = .refused (.unmappedAddress addr) ∧ Element.ofAddr addr = none ∧
        (a = .read addr ∨ ∃ data, a = .write addr data) := by
  cases a with
  | command w => exact .inl (runCommand_next w s)
  | write addr data =>
    cases h : Element.ofAddr addr with
    | some e => exact .inl ⟨_, hostAction_write h data s⟩
    | none => exact .inr ⟨addr, hostAction_write_unmapped h data s, h, .inr ⟨data, rfl⟩⟩
  | read addr =>
    cases h : Element.ofAddr addr with
    | some e => exact .inl ⟨_, hostAction_read h s⟩
    | none => exact .inr ⟨addr, hostAction_read_unmapped h s, h, .inl rfl⟩
  | reset => exact .inl ⟨_, rfl⟩
  | resetDuring w taken => exact .inl ⟨_, rfl⟩

/-- Settles O10: an idle core goes on, and of the host's actions only an access to an unmapped address is refused. -/
theorem onlyUnmappedAccessStops : Obligations.OnlyUnmappedAccessStops := by
  intro s
  cases hh : s.host with
  | nil => exact .inl ⟨s, step_of_host_nil hh⟩
  | cons a rest =>
    rw [step_of_host_cons hh]
    refine (hostAction_cases a _).imp_right ?_
    rintro ⟨addr, hr, hn, rfl | ⟨data, rfl⟩⟩
    · exact ⟨addr, rest, hr, hn, .inl rfl⟩
    · exact ⟨addr, rest, hr, hn, .inr ⟨data, rfl⟩⟩

/-- Settles O6: the step is the host's next action, a command word's action the instruction it decodes to. -/
theorem stepRunsTheDecodedCommand : Obligations.StepRunsTheDecodedCommand := by
  intro s w rest i hh hd
  calc step s = runCommand w { s with host := rest } := step_of_host_cons hh
    _ = exec i { s with host := rest } := runCommand_of_decode hd _

end Sys2Proof.Machine
end

section
/-! Canonical codes as a list of entries (spec/40_code_builder.md rules R107 and R108): what the two passes give is, length by
length, a run of consecutive codes, and a later entry's code begins above every earlier entry's code. -/

namespace Sys2Proof.Machine

/-- Entries (length, code) as the builder makes them from length `L` on, `first` the first code of length `L`, all lengths
below `hi`: the codes are within their length and at or above the ones before it, they follow each other within a length,
and a later code cut to an earlier one's length is above it (40_code_builder R108). -/
structure CanonicalEntries (L first hi : Nat) (es : List (Nat × Nat)) : Prop where
  bounds : ∀ e ∈ es, L ≤ e.1 ∧ e.1 < hi ∧ first * 2 ^ (e.1 - L) ≤ e.2 ∧ e.2 < 2 ^ e.1
  chain : es.IsChain fun a b => a.1 ≤ b.1 ∧ (a.1 = b.1 → b.2 = a.2 + 1)
  above : es.Pairwise fun a b => a.2 < b.2 >>> (b.1 - a.1)

theorem CanonicalEntries.nil (L first hi : Nat) : CanonicalEntries L first hi [] where
  bounds := by simp
  chain := .nil
  above := .nil

/-- The first code of the next length, scaled to a length, is that of this length scaled to it. -/
theorem double_mul_two_pow {L l : Nat} (first : Nat) (h : L + 1 ≤ l) :
    2 * first * 2 ^ (l - (L + 1)) = first * 2 ^ (l - L) := by
  rw [show l - L = l - (L + 1) + 1 by omega, Nat.pow_succ]
  ring

/-- A length with no codes only doubles the running code. -/
theorem CanonicalEntries.skip {L first hi : Nat} {es : List (Nat × Nat)}
    (h : CanonicalEntries (L + 1) (2 * first) hi es) : CanonicalEntries L first hi es where
  bounds e he := by
    obtain ⟨hL, hhi, hlo, hlt⟩ := h.bounds e he
    exact ⟨by omega, hhi, double_mul_two_pow first hL ▸ hlo, hlt⟩
  chain := h.chain
  above := h.above

/-- A run of `c` codes of length `L` that fits, before the entries of the greater lengths. -/
theorem CanonicalEntries.run {L first hi c : Nat} {es : List (Nat × Nat)} (hL : L < hi) (hfit : first + c ≤ 2 ^ L)
    (h : CanonicalEntries (L + 1) (2 * (first + c)) hi es) :
    CanonicalEntries L first hi ((List.range' first c).map (fun x => (L, x)) ++ es) where
  bounds e he := by
    rcases List.mem_append.1 he with he | he
    · obtain ⟨x, hx, rfl⟩ := List.mem_map.1 he
      rw [List.mem_range'_1] at hx
      exact ⟨Nat.le_refl L, hL, by simpa using hx.1, by simp only; omega⟩
    · obtain ⟨hl, hhi, hlo, hlt⟩ := h.bounds e he
      rw [double_mul_two_pow _ hl] at hlo
      exact ⟨by omega, hhi, (Nat.mul_le_mul_right _ (Nat.le_add_right first c)).trans hlo, hlt⟩
  chain := by
    refine List.isChain_append.2 ⟨?_, h.chain, fun a ha b hb => ?_⟩
    · rw [List.isChain_map]
      exact (List.isChain_range' first c 1).imp fun a b hab => ⟨Nat.le_refl L, fun _ => hab⟩
    · obtain ⟨x, -, rfl⟩ := List.mem_map.1 (List.mem_of_mem_getLast? ha)
      obtain ⟨hl, -⟩ := h.bounds b (List.mem_of_mem_head? hb)
      exact ⟨by simp only; omega, fun heq => by simp only at heq; omega⟩
  above := by
    refine List.pairwise_append.2 ⟨?_, h.above, fun a ha b hb => ?_⟩
    · rw [List.pairwise_map]
      exact (List.pairwise_lt_range' (s := first) (n := c) (step := 1)).imp fun hab => by simpa using hab
    · obtain ⟨x, hx, rfl⟩ := List.mem_map.1 ha
      obtain ⟨hl, -, hlo, -⟩ := h.bounds b hb
      rw [List.mem_range'_1] at hx
      rw [double_mul_two_pow _ hl] at hlo
      have hcut : first + c ≤ b.2 >>> (b.1 - L) := by
        rw [Nat.shiftRight_eq_div_pow, Nat.le_div_iff_mul_le (by positivity)]
        exact hlo
      simp only
      omega

/-- The lengths of the symbols, without pass 1's sentinel: a run of `L`, then the greater lengths (40_code_builder R104). -/
theorem take_pass1From_cons (L c : Nat) (counts : List Nat) :
    (pass1From L (c :: counts)).take (c :: counts).sum =
      List.replicate c L ++ (pass1From (L + 1) counts).take counts.sum := by
  rw [pass1From, List.sum_cons, List.take_append, List.length_replicate, Nat.add_sub_cancel_left,
    List.take_of_length_le (by simp)]

theorem zip_replicate_range' (L first c : Nat) :
    (List.replicate c L).zip (List.range' first c) = (List.range' first c).map fun x => (L, x) := by
  refine List.ext_getElem (by simp) fun i h1 h2 => ?_
  simp

/-- The two passes make canonical entries (40_code_builder R107, R108). -/
theorem canonicalEntries_of_canonical {L first : Nat} {counts codes : List Nat}
    (h : canonical L first counts = .ok codes) :
    CanonicalEntries L first (L + counts.length) (((pass1From L counts).take counts.sum).zip codes) := by
  induction counts generalizing L first codes with
  | nil => exact .nil L first _
  | cons c counts ih =>
    rw [take_pass1From_cons, show L + (c :: counts).length = L + 1 + counts.length by simp; omega]
    simp only [canonical] at h
    split_ifs at h with h0 hfit
    · subst h0
      simpa using (ih h).skip
    · cases hr : canonical (L + 1) (2 * (first + c)) counts with
      | error e => rw [hr] at h; cases h
      | ok rest =>
        rw [hr] at h
        cases h
        rw [List.zip_append (by simp), zip_replicate_range']
        exact .run (by omega) (Nat.le_of_not_lt hfit) (ih hr)

/-- The entries of a built table (10_state R26): lengths 1 to 16, canonical from code 0. -/
theorem buildTable_canonicalEntries {n : Nat} {counts vals : List Nat} {t : CodeTable} (hc : counts.length = 16)
    (h : buildTable n counts vals = .ok t) : CanonicalEntries 1 0 17 (t.lens.zip t.codes) := by
  obtain ⟨-, hsum, hl, hcodes, -, -⟩ := buildTable_ok h
  rw [hl, ← hsum, show 17 = 1 + counts.length by omega]
  exact canonicalEntries_of_canonical hcodes

/-- Reading an entry of two lists zipped, where both have it. -/
theorem getElem_zip_getD {as bs : List Nat} {k : Nat} (ha : k < as.length) (hb : k < bs.length)
    (h : k < (as.zip bs).length) : (as.zip bs)[k] = (as.getD k 0, bs.getD k 0) := by
  rw [List.getElem_zip, List.getD_eq_getElem _ _ ha, List.getD_eq_getElem _ _ hb]

/-- An entry of a built table is within its bounds (10_state R26). -/
theorem buildTable_entry_bounds {n : Nat} {counts vals : List Nat} {t : CodeTable} (hc : counts.length = 16)
    (h : buildTable n counts vals = .ok t) {k : Nat} (hk : k < n) :
    1 ≤ t.lens.getD k 0 ∧ t.lens.getD k 0 ≤ 16 ∧ t.codes.getD k 0 < 2 ^ t.lens.getD k 0 := by
  obtain ⟨hll, hcl⟩ := buildTable_length h
  have hz : k < (t.lens.zip t.codes).length := by simp [hll, hcl, hk]
  have hb := (buildTable_canonicalEntries hc h).bounds _ (List.getElem_mem hz)
  rw [getElem_zip_getD (by omega) (by omega)] at hb
  obtain ⟨h1, h17, -, hlt⟩ := hb
  exact ⟨h1, by omega, hlt⟩

/-- A list written as a padded store reads back by position, 0 past its end (40_code_builder R103). -/
theorem find?_padded_ofNat {w : Nat} {l : List Nat} (hl : l.length ≤ 256) {k : Nat} (hk : k < 256) :
    Store.find? (Store.padded (l.map (BitVec.ofNat w))) k = some (BitVec.ofNat w (l.getD k 0)) := by
  rw [Store.find?_padded _ (by simpa using hl), if_pos hk]
  exact congrArg some (List.getD_map l 0 (BitVec.ofNat w))

/-- Settles O18: the table is the builder's, whose entries are canonical. -/
theorem builtTableIsPrefixFree : Obligations.BuiltTableIsPrefixFree := by
  rintro x ⟨n, counts, vals, t, hc, hb, hcode, hlen⟩
  obtain ⟨hn, -⟩ := buildTable_ok hb
  obtain ⟨hll, hcl⟩ := buildTable_length hb
  obtain ⟨-, hchain, habove⟩ := buildTable_canonicalEntries hc hb
  have hz : (t.lens.zip t.codes).length = n := by simp [hll, hcl]
  refine ⟨t.lens, t.codes, by omega, by omega, fun k hk => ?_, fun k hk => buildTable_entry_bounds hc hb (hll ▸ hk),
    fun k hk => ?_, fun j k hjk hk => ?_⟩
  · rw [hlen, hcode]
    exact ⟨find?_padded_ofNat (by omega) hk, find?_padded_ofNat (by omega) hk⟩
  · have := List.isChain_iff_getElem.1 hchain k (by omega)
    rwa [getElem_zip_getD (by omega) (by omega), getElem_zip_getD (by omega) (by omega)] at this
  · have := List.pairwise_iff_getElem.1 habove j k (by omega) (by omega) hjk
    rw [getElem_zip_getD (by omega) (by omega), getElem_zip_getD (by omega) (by omega)] at this
    exact Nat.ne_of_gt this

end Sys2Proof.Machine
end

section
/-! What each command leaves unchanged, and what it can make of a slot, said once for every command (spec/10_state.md rules
R20, R25 to R30, R34, R35). -/

namespace Sys2Proof.Machine

/-! ## What a packer part leaves unchanged -/

theorem PackerFrame.slot {s t : State} (h : PackerFrame s t) (n : SlotId) : t.slot n = s.slot n := by
  rw [h]
  rfl

theorem PackerFrame.coef {s t : State} (h : PackerFrame s t) : t.coef = s.coef := by rw [h]

theorem PackerFrame.pred {s t : State} (h : PackerFrame s t) (c : Comp) : t.pred c = s.pred c := by
  rw [h]
  rfl

/-- Closing the packer after a part that went well stays within the part's frame. -/
theorem PackerFrame.andThen_closePacker {s : State} {e : Ended} (h : PackerFrame s e.state) :
    PackerFrame s (e.andThen fun t => .ok t.closePacker).state := by
  cases e with
  | ok t => exact h.trans rfl
  | raised c t => exact h

theorem putbitsCommand_frame (code : BitVec 16) (length : BitVec 8) (s : State) :
    PackerFrame s (putbitsCommand code length s).state := by
  obtain ⟨-, h⟩ | ⟨-, -, h⟩ | ⟨-, -, h⟩ := putbitsCommand_cases code length s <;> rw [h]
  · exact .refl s
  · exact .refl s
  · exact (putBits_part code length.toNat s).frame

theorem flushCommand_frame (s : State) : PackerFrame s (flushCommand s).state := by
  obtain ⟨-, h⟩ | ⟨-, -, h⟩ | ⟨-, -, h⟩ := flushCommand_cases s <;> rw [h]
  · exact .refl s
  · rfl
  · exact (emitByte_part s.topByte s).frame.andThen_closePacker

/-- ENCBLK changes the packer, the sink's side and, past its admission, its component's predictor (43_block_encoder R180,
R182). -/
theorem encblkCommand_frame (comp : Comp) (d a : SlotId) (s : State) :
    PackerFrame s (encblkCommand comp d a s).state ∨
      PackerFrame (s.setPred comp ((s.coefAt 0).signExtend 32)) (encblkCommand comp d a s).state := by
  obtain ⟨-, h⟩ | ⟨-, -, h⟩ | ⟨-, -, -, h⟩ | ⟨-, -, -, h⟩ := encblkCommand_cases comp d a s <;> rw [h]
  · exact .inl (.refl s)
  · exact .inl (.refl s)
  · exact .inl (.refl s)
  · exact .inr (encblkBody_part comp d a s).frame

/-! ## SCANRST -/

/-- Clearing a predictor changes the predictors only. -/
theorem clearPred_frame (mask : BitVec 4) (s : State) (c : Comp) :
    clearPred mask s c = { s with dcPred := (clearPred mask s c).dcPred } := by
  unfold clearPred
  split_ifs <;> rfl

/-- SCANRST changes the predictors only (43_block_encoder R187). -/
theorem foldl_clearPred_frame (mask : BitVec 4) (cs : List Comp) (s : State) :
    cs.foldl (clearPred mask) s = { s with dcPred := (cs.foldl (clearPred mask) s).dcPred } := by
  induction cs generalizing s with
  | nil => rfl
  | cons c cs ih =>
    rw [List.foldl_cons, ih, clearPred_frame]

theorem slot_foldl_clearPred (mask : BitVec 4) (cs : List Comp) (s : State) (n : SlotId) :
    (cs.foldl (clearPred mask) s).slot n = s.slot n := by
  rw [foldl_clearPred_frame]
  rfl

/-! ## What a command can make of a slot -/

theorem buildSlot_of_error {s : State} {n : SlotId} {d : SpecDefect}
    (h : buildTable (s.nvalAt n).toNat (s.counts n) (s.symbols n (s.nvalAt n).toNat) = .error d) :
    buildSlot s n = .raised (.invalidSpec d) ((s.unbuild n).forgetTable n) := by
  simp only [buildSlot, h]

theorem buildSlot_of_ok {s : State} {n : SlotId} {t : CodeTable}
    (h : buildTable (s.nvalAt n).toNat (s.counts n) (s.symbols n (s.nvalAt n).toNat) = .ok t) :
    buildSlot s n = .ok (((s.unbuild n).putTable n t).setBuilt n) := by
  simp only [buildSlot, h]

theorem buildLut_of_built {s : State} {n : SlotId} (h : (s.slot n).built = true) :
    buildLut s n =
      .ok ((s.putLut n (lutEntries (fun k => (s.codeAt n k).toNat) 0 (s.counts n))).setLutv n) := by
  simp only [buildLut, h, if_true]

theorem buildLut_of_not_built {s : State} {n : SlotId} (h : (s.slot n).built = false) :
    buildLut s n = .raised (.tableNotBuilt n) s := by
  simp [buildLut, h]

/-- A slot after a BUILD that was refused (40_code_builder R103). -/
theorem slot_unbuild_forgetTable (s : State) (n m : SlotId) :
    ((s.unbuild n).forgetTable n).slot m =
      if m = n then { s.slot n with code := [], len := [], built := false, lutv := false } else s.slot m := by
  rw [State.slot_forgetTable, State.slot_unbuild, State.slot_unbuild]
  split_ifs <;> simp_all

/-- A slot after a BUILD that ended OK (40_code_builder R103). -/
theorem slot_putTable_setBuilt (s : State) (n m : SlotId) (t : CodeTable) :
    (((s.unbuild n).putTable n t).setBuilt n).slot m =
      if m = n then { s.slot n with
        code := Store.padded (t.codes.map (BitVec.ofNat 16))
        len := Store.padded (t.lens.map (BitVec.ofNat 8))
        built := true
        lutv := false } else s.slot m := by
  rw [State.slot_setBuilt, State.slot_putTable, State.slot_putTable, State.slot_unbuild, State.slot_unbuild]
  split_ifs <;> simp_all

/-- A slot after a BLDLUT that ended OK (41_decoder_lookup R130). -/
theorem slot_putLut_setLutv (s : State) (n m : SlotId) (es : List LutEntry) :
    ((s.putLut n es).setLutv n).slot m =
      if m = n then { s.slot n with
        lutMin := Store.block 1 (es.map fun e => BitVec.ofInt 32 e.min)
        lutMax := Store.block 1 (es.map fun e => BitVec.ofInt 32 e.max)
        lutPtr := Store.block 1 (es.map fun e => BitVec.ofInt 32 e.ptr)
        lutv := true } else s.slot m := by
  rw [State.slot_setLutv, State.slot_putLut, State.slot_putLut]
  split_ifs <;> simp_all

/-- Only the slots differ. -/
def SlotsFrame (s t : State) : Prop := t = { s with slots := t.slots }

theorem buildSlot_frame (s : State) (n : SlotId) : SlotsFrame s (buildSlot s n).state := by
  cases hb : buildTable (s.nvalAt n).toNat (s.counts n) (s.symbols n (s.nvalAt n).toNat) with
  | error d =>
    rw [buildSlot_of_error hb]
    rfl
  | ok t =>
    rw [buildSlot_of_ok hb]
    rfl

theorem buildLut_frame (s : State) (n : SlotId) : SlotsFrame s (buildLut s n).state := by
  cases hb : (s.slot n).built with
  | false =>
    rw [buildLut_of_not_built hb]
    rfl
  | true =>
    rw [buildLut_of_built hb]
    rfl

/-- What a command that came to this end can have made of a slot: nothing, or what the command that names the slot writes. -/
inductive SlotChange (s : State) : Instr → SlotId → Ended → Prop where
  | kept {i : Instr} {m : SlotId} {e : Ended} (h : e.state.slot m = s.slot m) : SlotChange s i m e
  | loaded (cls : Cls) (idx : TableIdx) (std : Std) :
      SlotChange s (.ldstd cls idx std) (slotOf cls idx) (.ok (loadSpec s (slotOf cls idx) (Config.std cls std)))
  | refused (cls : Cls) (idx : TableIdx) (d : SpecDefect) :
      SlotChange s (.build cls idx) (slotOf cls idx)
        (.raised (.invalidSpec d) ((s.unbuild (slotOf cls idx)).forgetTable (slotOf cls idx)))
  | built (cls : Cls) (idx : TableIdx) (t : CodeTable)
      (h : buildTable (s.nvalAt (slotOf cls idx)).toNat (s.counts (slotOf cls idx))
        (s.symbols (slotOf cls idx) (s.nvalAt (slotOf cls idx)).toNat) = .ok t) :
      SlotChange s (.build cls idx) (slotOf cls idx)
        (.ok (((s.unbuild (slotOf cls idx)).putTable (slotOf cls idx) t).setBuilt (slotOf cls idx)))
  | looked (cls : Cls) (idx : TableIdx) (h : (s.slot (slotOf cls idx)).built = true) :
      SlotChange s (.bldlut cls idx) (slotOf cls idx)
        (.ok ((s.putLut (slotOf cls idx) (lutEntries (fun k => (s.codeAt (slotOf cls idx) k).toNat) 0
          (s.counts (slotOf cls idx)))).setLutv (slotOf cls idx)))

theorem execLdstd_slotChange (cls : Cls) (idx : TableIdx) (std : Std) (s : State) (m : SlotId) :
    SlotChange s (.ldstd cls idx std) m (.ok (loadSpec s (slotOf cls idx) (Config.std cls std))) := by
  by_cases hm : m = slotOf cls idx
  · subst hm
    exact .loaded cls idx std
  · exact .kept (by rw [Ended.state_ok, slot_loadSpec, if_neg hm])

theorem buildSlot_slotChange (cls : Cls) (idx : TableIdx) (s : State) (m : SlotId) :
    SlotChange s (.build cls idx) m (buildSlot s (slotOf cls idx)) := by
  by_cases hm : m = slotOf cls idx
  · subst hm
    cases hb : buildTable (s.nvalAt (slotOf cls idx)).toNat (s.counts (slotOf cls idx))
        (s.symbols (slotOf cls idx) (s.nvalAt (slotOf cls idx)).toNat) with
    | error d => exact buildSlot_of_error hb ▸ .refused cls idx d
    | ok t => exact buildSlot_of_ok hb ▸ .built cls idx t hb
  · refine .kept ?_
    cases hb : buildTable (s.nvalAt (slotOf cls idx)).toNat (s.counts (slotOf cls idx))
        (s.symbols (slotOf cls idx) (s.nvalAt (slotOf cls idx)).toNat) with
    | error d => rw [buildSlot_of_error hb, Ended.state_raised, slot_unbuild_forgetTable, if_neg hm]
    | ok t => rw [buildSlot_of_ok hb, Ended.state_ok, slot_putTable_setBuilt, if_neg hm]

theorem buildLut_slotChange (cls : Cls) (idx : TableIdx) (s : State) (m : SlotId) :
    SlotChange s (.bldlut cls idx) m (buildLut s (slotOf cls idx)) := by
  cases hb : (s.slot (slotOf cls idx)).built with
  | false => exact .kept (by rw [buildLut_of_not_built hb]; rfl)
  | true =>
    rw [buildLut_of_built hb]
    by_cases hm : m = slotOf cls idx
    · subst hm
      exact .looked cls idx hb
    · exact .kept (by rw [Ended.state_ok, slot_putLut_setLutv, if_neg hm])

/-- Of a slot a command makes one of five things. -/
theorem commandPart_slotChange (i : Instr) (s : State) (m : SlotId) : SlotChange s i m (commandPart i s) := by
  cases i with
  | ldstd cls idx std => exact execLdstd_slotChange cls idx std s m
  | build cls idx => exact buildSlot_slotChange cls idx s m
  | bldlut cls idx => exact buildLut_slotChange cls idx s m
  | putbits code length => exact .kept ((putbitsCommand_frame code length s).slot m)
  | flush => exact .kept ((flushCommand_frame s).slot m)
  | pkrst => exact .kept rfl
  | encblk comp dcidx acidx =>
    obtain h | h := encblkCommand_frame comp (slotOf .dc dcidx) (slotOf .ac acidx) s
    · exact .kept (h.slot m)
    · exact .kept (h.slot m)
  | scanrst mask => exact .kept (slot_foldl_clearPred mask _ s m)

/-! ## The packer's mode -/

/-- A packer that is not ACTIVE keeps its mode through every command but PKRST (10_state R33, 60_exceptions R226). -/
theorem commandPart_pkMode_of_closed {i : Instr} {s : State} (hs : s.pkMode ≠ .active) (hi : i ≠ .pkrst) :
    (commandPart i s).state.pkMode = s.pkMode := by
  cases i with
  | ldstd cls idx std => rfl
  | build cls idx => rw [commandPart, buildSlot_frame]
  | bldlut cls idx => rw [commandPart, buildLut_frame]
  | putbits code length =>
    simp only [commandPart, putbitsCommand, whenActive, if_neg hs, Ended.state_raised]
  | flush => simp only [commandPart, flushCommand, whenActive, if_neg hs, Ended.state_raised]
  | pkrst => exact absurd rfl hi
  | encblk comp dcidx acidx =>
    obtain ⟨-, h⟩ | ⟨-, -, h⟩ | ⟨-, -, -, h⟩ | ⟨-, -, ha, -⟩ :=
      encblkCommand_cases comp (slotOf .dc dcidx) (slotOf .ac acidx) s
    · rw [commandPart, h, Ended.state_raised]
    · rw [commandPart, h, Ended.state_raised]
    · rw [commandPart, h, Ended.state_raised]
    · exact absurd ha hs
  | scanrst mask => rw [commandPart, Ended.state_ok, foldl_clearPred_frame]

/-- A FLUSH never leaves the packer ACTIVE: it is closed, fails, or was not ACTIVE (42_bit_packer R153). -/
theorem flushCommand_pkMode_ne (s : State) : (flushCommand s).state.pkMode ≠ .active := by
  obtain ⟨hm, h⟩ | ⟨-, -, h⟩ | ⟨-, -, h⟩ := flushCommand_cases s <;> rw [h]
  · exact hm
  · simp
  · have hpart := emitByte_part s.topByte s
    cases he : emitByte s.topByte s with
    | ok t => simp
    | raised c t =>
      rw [he] at hpart
      cases hpart with
      | raised _ _ _ mode => simp [mode]

/-! ## What a host write changes -/

/-- A host write changes the slots and COEF only (20_memory R55, R56). -/
theorem hostWrite_frame (s : State) (e : Element) (w : Word) :
    s.hostWrite e w = { s with slots := (s.hostWrite e w).slots, coef := (s.hostWrite e w).coef } := by
  cases e <;> rfl

theorem State.slot_setSlot_unbuild (s : State) (n m : SlotId) (x : Slot) :
    ((s.setSlot n x).unbuild n).slot m =
      if m = n then { x with built := false, lutv := false } else s.slot m := by
  rw [State.slot_unbuild, State.slot_setSlot_self, State.slot_setSlot]
  split_ifs <;> rfl

/-- A host write leaves a slot alone or, to its spec, clears its flags (20_memory R55). -/
theorem hostWrite_slot_cases (s : State) (e : Element) (w : Word) (m : SlotId) :
    (s.hostWrite e w).slot m = s.slot m ∨
      ((s.hostWrite e w).slot m).built = false ∧ ((s.hostWrite e w).slot m).lutv = false := by
  have hspec : ∀ n x, ((s.setSlot n x).unbuild n).slot m = s.slot m ∨
      (((s.setSlot n x).unbuild n).slot m).built = false ∧ (((s.setSlot n x).unbuild n).slot m).lutv = false := by
    intro n x
    rw [State.slot_setSlot_unbuild]
    split_ifs
    · exact .inr ⟨rfl, rfl⟩
    · exact .inl rfl
  cases e with
  | bits n i => exact hspec n _
  | nval n => exact hspec n _
  | val n k => exact hspec n _
  | csr n => exact .inl rfl
  | coef i => exact .inl rfl
  | zigzag k => exact .inl rfl
  | lutMin n L => exact .inl rfl
  | lutMax n L => exact .inl rfl
  | lutPtr n L => exact .inl rfl
  | code n k => exact .inl rfl
  | len n k => exact .inl rfl

/-! ## What a step does -/

/-- A command's end changes no slot. -/
@[simp] theorem Ended.slot_close (e : Ended) (m : SlotId) : e.close.slot m = e.state.slot m := by
  cases e <;> rfl

/-- What a step can be: an idle core's, a command's, an illegal word's, a host access's, or a hardware reset's. -/
inductive StepCase (s : State) : State → Prop where
  | idle (hh : s.host = []) : StepCase s s
  | command (w : Word) (rest : List HostAction) (i : Instr) (hh : s.host = .command w :: rest) (hd : decode w = .ok i) :
      StepCase s (commandPart i { s with host := rest }).close
  | illegal (w : Word) (rest : List HostAction) (hh : s.host = .command w :: rest) :
      StepCase s (State.takeFault { s with host := rest } (.illegalCommand w))
  | write (addr : Nat) (data : Word) (rest : List HostAction) (e : Element) (hh : s.host = .write addr data :: rest)
      (he : Element.ofAddr addr = some e) :
      StepCase s { State.hostWrite { s with host := rest } e data with draws := s.draws + 1 }
  | read (addr : Nat) (rest : List HostAction) (e : Element) (hh : s.host = .read addr :: rest)
      (he : Element.ofAddr addr = some e) :
      StepCase s { s with host := rest, hostData := State.hostRead { s with host := rest } e, draws := s.draws + 1 }
  | reset (rest : List HostAction) (hh : s.host = .reset :: rest) :
      StepCase s (State.hardwareReset { s with host := rest })
  | resetDuring (w : Word) (taken : Nat) (rest : List HostAction) (hh : s.host = .resetDuring w taken :: rest) :
      StepCase s (State.hardwareReset (State.abandonCommand { s with host := rest } w taken))

/-- A step that goes on is one of these (20_memory R55, R63, 70_reset R260). -/
theorem step_cases {s t : State} (h : step s = .next t) : StepCase s t := by
  cases hh : s.host with
  | nil =>
    rw [step_of_host_nil hh] at h
    cases h
    exact .idle hh
  | cons a rest =>
    rw [step_of_host_cons hh] at h
    cases a with
    | command w =>
      rw [hostAction, runCommand] at h
      cases hd : decode w with
      | ok i =>
        rw [hd] at h
        simp only [exec_eq_finish] at h
        cases h
        exact .command w rest i hh hd
      | error r =>
        rw [hd] at h
        cases h
        exact .illegal w rest hh
    | write addr data =>
      cases he : Element.ofAddr addr with
      | none => rw [hostAction_write_unmapped he] at h; cases h
      | some e =>
        rw [hostAction_write he] at h
        cases h
        exact .write addr data rest e hh he
    | read addr =>
      cases he : Element.ofAddr addr with
      | none => rw [hostAction_read_unmapped he] at h; cases h
      | some e =>
        rw [hostAction_read he] at h
        cases h
        exact .read addr rest e hh he
    | reset =>
      cases h
      exact .reset rest hh
    | resetDuring w taken =>
      cases h
      exact .resetDuring w taken rest hh

end Sys2Proof.Machine
end

section
/-! The invariant of the machine, kept by every step (spec/10_state.md rules R26, R30 to R38). Its clauses about one slot are
taken together: they depend on the slot's contents alone, so a command keeps them at every slot it leaves alone, and the
commands that write a slot are three. -/

namespace Sys2Proof.Machine

/-! ## What a held spec reads as -/

/-- Slot `n` holds the same spec in both states. -/
structure SameSpec (s t : State) (n : SlotId) : Prop where
  bits : (t.slot n).bits = (s.slot n).bits
  nval : (t.slot n).nval = (s.slot n).nval
  val : (t.slot n).val = (s.slot n).val

theorem SameSpec.of_slot_eq {s t : State} {n : SlotId} (h : t.slot n = s.slot n) : SameSpec s t n := by
  constructor <;> rw [h]

/-- An element that holds a value reads alike whatever the free words. -/
theorem Store.read_eq_of_isSome {w : Nat} {st : Store w} {i : Nat} (h : (Store.find? st i).isSome) (free free' : Word) :
    Store.read st i free = Store.read st i free' := by
  obtain ⟨v, hv⟩ := Option.isSome_iff_exists.1 h
  rw [Store.read_of_find? hv, Store.read_of_find? hv]

section
variable {s t : State} {n : SlotId} (h : SameSpec s t n)
include h

theorem SameSpec.nvalAt_of_isSome (hn : (Store.find? (s.slot n).nval 0).isSome) : t.nvalAt n = s.nvalAt n := by
  rw [State.nvalAt, State.nvalAt, h.nval]
  exact Store.read_eq_of_isSome hn _ _

theorem SameSpec.nvalAt (hs : s.SpecHeld n) : t.nvalAt n = s.nvalAt n := h.nvalAt_of_isSome hs.2.1

/-- Whether a slot's spec is held does not depend on the free words. -/
theorem SameSpec.specHeld (ht : t.SpecHeld n) : s.SpecHeld n := by
  obtain ⟨hb, hn, hv⟩ := ht
  rw [h.nval] at hn
  rw [h.bits] at hb
  rw [h.val, h.nvalAt_of_isSome hn] at hv
  exact ⟨hb, hn, hv⟩

theorem SameSpec.counts (hs : s.SpecHeld n) : t.counts n = s.counts n := by
  refine List.map_congr_left fun i hi => ?_
  rw [State.bitsAt, State.bitsAt, h.bits, Store.read_eq_of_isSome (hs.1 i (List.mem_range.1 hi))]

theorem SameSpec.symbols (hs : s.SpecHeld n) :
    t.symbols n (t.nvalAt n).toNat = s.symbols n (s.nvalAt n).toNat := by
  rw [h.nvalAt hs]
  refine List.map_congr_left fun k hk => ?_
  rw [State.valAt, State.valAt, h.val, Store.read_eq_of_isSome (hs.2.2 k (List.mem_range.1 hk))]

/-- A held spec makes the same table in both states. -/
theorem SameSpec.buildTable (hs : s.SpecHeld n) :
    buildTable (t.nvalAt n).toNat (t.counts n) (t.symbols n (t.nvalAt n).toNat) =
      buildTable (s.nvalAt n).toNat (s.counts n) (s.symbols n (s.nvalAt n).toNat) := by
  rw [h.symbols hs, h.nvalAt hs, h.counts hs]

end

/-! ## Code words of a built slot -/

/-- A built table's code fits the store's 16 bits. -/
theorem buildTable_code_lt {n : Nat} {counts vals : List Nat} {t : CodeTable} (hc : counts.length = 16)
    (h : buildTable n counts vals = .ok t) {k : Nat} (hk : k < n) : t.codes.getD k 0 < 2 ^ 16 := by
  obtain ⟨-, h16, hlt⟩ := buildTable_entry_bounds hc h hk
  exact hlt.trans_le (Nat.pow_le_pow_right (by omega) h16)

/-- A position found is one of the 256 there are. -/
theorem State.position_lt {s : State} {n : SlotId} {sym k : Nat} (h : s.position n sym = some k) : k < 256 :=
  (List.mem_range.1 (List.mem_of_find?_eq_some h)).trans_le (Nat.min_le_right _ _)

/-- The codes of a slot with a built table are at most 16 bits long (10_state R26). -/
theorem Slot.TableOk.shortCodes {s : State} {n : SlotId} (h : (s.slot n).TableOk) : s.ShortCodes n := by
  obtain ⟨m, counts, vals, t, hc, hb, -, hlen⟩ := h
  obtain ⟨hm, -⟩ := buildTable_ok hb
  obtain ⟨hll, -⟩ := buildTable_length hb
  intro sym c l he
  obtain ⟨k, hk, hkl⟩ := Option.map_eq_some_iff.1 he
  obtain rfl : s.lenAt n k = l := congrArg Prod.snd hkl
  rw [State.lenAt, hlen, Store.read_of_find? (find?_padded_ofNat (by omega) (State.position_lt hk))]
  by_cases hkm : k < m
  · obtain ⟨-, h16, -⟩ := buildTable_entry_bounds hc hb hkm
    exact (Nat.mod_le _ _).trans h16
  · rw [List.getD_eq_default _ _ (by omega)]
    exact Nat.zero_le 16

/-- A table written again leaves the slot as it is exactly when the slot holds it. -/
theorem State.slot_putTable_eq_iff {s : State} {n : SlotId} {t : CodeTable} :
    (s.putTable n t).slot n = s.slot n ↔
      (s.slot n).code = Store.padded (t.codes.map (BitVec.ofNat 16)) ∧
        (s.slot n).len = Store.padded (t.lens.map (BitVec.ofNat 8)) := by
  rw [State.slot_putTable, if_pos rfl]
  constructor
  · intro h
    rw [← h]
    exact ⟨rfl, rfl⟩
  · rintro ⟨hc, hl⟩
    rw [← hc, ← hl]

/-- A slot that holds a built table reads its codes by position. -/
theorem codeAt_of_putTable {s : State} {n : SlotId} {t : CodeTable} {m : Nat} {counts vals : List Nat}
    (hc : counts.length = 16) (hb : buildTable m counts vals = .ok t) (h : (s.putTable n t).slot n = s.slot n)
    {k : Nat} (hk : k < m) : (s.codeAt n k).toNat = t.codes.getD k 0 := by
  obtain ⟨hm, -⟩ := buildTable_ok hb
  obtain ⟨-, hcl⟩ := buildTable_length hb
  rw [State.codeAt, (State.slot_putTable_eq_iff.1 h).1,
    Store.read_of_find? (find?_padded_ofNat (by omega) (by omega)), BitVec.toNat_ofNat,
    Nat.mod_eq_of_lt (buildTable_code_lt hc hb hk)]

/-- The lookup reads the codes at the positions of the counts only (41_decoder_lookup R130). -/
theorem lutEntries_congr {f g : Nat → Nat} {counts : List Nat} {p : Nat} (h : ∀ k, k < p + counts.sum → f k = g k) :
    lutEntries f p counts = lutEntries g p counts := by
  induction counts generalizing p with
  | nil => rfl
  | cons c counts ih =>
    rw [List.sum_cons] at h
    simp only [lutEntries]
    rw [ih fun k hk => h k (by omega)]
    by_cases h0 : c = 0
    · rw [if_pos h0, if_pos h0]
    · rw [if_neg h0, if_neg h0, h p (by omega), h (p + c - 1) (by omega)]

/-- The lookup of a slot that holds a built table is that of the table. -/
theorem lutEntries_codeAt {s : State} {n : SlotId} {t : CodeTable}
    (hb : buildTable (s.nvalAt n).toNat (s.counts n) (s.symbols n (s.nvalAt n).toNat) = .ok t)
    (h : (s.putTable n t).slot n = s.slot n) :
    lutEntries (fun k => (s.codeAt n k).toNat) 0 (s.counts n) =
      lutEntries (fun k => t.codes.getD k 0) 0 (s.counts n) := by
  obtain ⟨-, hsum, -⟩ := buildTable_ok hb
  exact lutEntries_congr fun k hk => codeAt_of_putTable (s.length_counts n) hb h (by omega)

/-! ## The invariant of one slot -/

/-- The clauses of the invariant about slot `n` (10_state R26, R34, R35). -/
structure State.SlotInv (s : State) (n : SlotId) : Prop where
  table : (s.slot n).built = true → (s.slot n).TableOk
  current : (s.slot n).built = true → s.SpecHeld n → s.TableCurrent n
  lookup : (s.slot n).lutv = true → (s.slot n).built = true
  looked : (s.slot n).lutv = true → s.SpecHeld n → s.SlotReady n

theorem State.Inv.slotInv {s : State} (h : s.Inv) (n : SlotId) : s.SlotInv n :=
  ⟨h.tables n, h.current n, h.lookup n, h.looked n⟩

/-- The clauses speak of the slot's contents only. -/
theorem State.SlotInv.congr {s t : State} {n : SlotId} (heq : t.slot n = s.slot n) (h : s.SlotInv n) : t.SlotInv n := by
  have hspec : SameSpec s t n := .of_slot_eq heq
  have htab : ∀ c, (t.putTable n c).slot n = (s.putTable n c).slot n := fun c => by
    simp only [State.slot_putTable, if_pos, heq]
  have hlut : ∀ es, (t.putLut n es).slot n = (s.putLut n es).slot n := fun es => by
    simp only [State.slot_putLut, if_pos, heq]
  refine ⟨heq ▸ h.table, fun hb ht => ?_, heq ▸ h.lookup, fun hl ht => ?_⟩
  · have hs := hspec.specHeld ht
    obtain ⟨c, hc, hput⟩ := h.current (heq ▸ hb) hs
    exact ⟨c, (hspec.buildTable hs).trans hc, by rw [htab, heq, hput]⟩
  · have hs := hspec.specHeld ht
    obtain ⟨-, hb, c, hc, hput, hputLut⟩ := h.looked (heq ▸ hl) hs
    exact ⟨ht, heq ▸ hb, c, (hspec.buildTable hs).trans hc, by rw [htab, heq, hput],
      by rw [hspec.counts hs, hlut, heq, hputLut]⟩

/-- A slot whose flags are clear meets them. -/
theorem State.SlotInv.of_unbuilt {s : State} {n : SlotId} (hb : (s.slot n).built = false)
    (hl : (s.slot n).lutv = false) : s.SlotInv n := by
  constructor <;> simp [hb, hl]

/-- The end of a BUILD of slot `n` meets them: the table is that of the spec the slot holds (10_state R34). -/
theorem slotInv_putTable_setBuilt {s : State} {n : SlotId} {c : CodeTable}
    (hc : buildTable (s.nvalAt n).toNat (s.counts n) (s.symbols n (s.nvalAt n).toNat) = .ok c) :
    (((s.unbuild n).putTable n c).setBuilt n).SlotInv n := by
  have hslot := (slot_putTable_setBuilt s n n c).trans (if_pos rfl)
  have hspec : SameSpec s (((s.unbuild n).putTable n c).setBuilt n) n := by constructor <;> rw [hslot]
  refine ⟨fun _ => ?_, fun _ ht => ?_, fun hl => ?_, fun hl => ?_⟩
  · exact ⟨_, _, _, c, s.length_counts n, hc, by rw [hslot], by rw [hslot]⟩
  · have hput := State.slot_putTable_eq_iff.2 (by rw [hslot]; exact ⟨rfl, rfl⟩)
    exact ⟨c, (hspec.buildTable (hspec.specHeld ht)).trans hc, hput⟩
  · rw [hslot] at hl
    exact absurd hl Bool.false_ne_true
  · rw [hslot] at hl
    exact absurd hl Bool.false_ne_true

/-- The end of a BLDLUT of slot `n` meets them: the lookup is that of the table the slot holds (10_state R35). -/
theorem State.SlotInv.putLut_setLutv {s : State} {n : SlotId} (h : s.SlotInv n) (hb : (s.slot n).built = true) :
    ((s.putLut n (lutEntries (fun k => (s.codeAt n k).toNat) 0 (s.counts n))).setLutv n).SlotInv n := by
  generalize hes : lutEntries (fun k => (s.codeAt n k).toNat) 0 (s.counts n) = es
  have hslot := (slot_putLut_setLutv s n n es).trans (if_pos rfl)
  have hspec : SameSpec s ((s.putLut n es).setLutv n) n := by constructor <;> rw [hslot]
  have hbuilt : (((s.putLut n es).setLutv n).slot n).built = true := by rw [hslot]; exact hb
  have hcurrent : ((s.putLut n es).setLutv n).SpecHeld n → ∃ c,
      buildTable (s.nvalAt n).toNat (s.counts n) (s.symbols n (s.nvalAt n).toNat) = .ok c ∧
      (s.putTable n c).slot n = s.slot n ∧
      (((s.putLut n es).setLutv n).putTable n c).slot n = ((s.putLut n es).setLutv n).slot n := fun ht => by
    obtain ⟨c, hc, hput⟩ := h.current hb (hspec.specHeld ht)
    exact ⟨c, hc, hput, State.slot_putTable_eq_iff.2 (by rw [hslot]; exact State.slot_putTable_eq_iff.1 hput)⟩
  refine ⟨fun _ => ?_, fun _ ht => ?_, fun _ => hbuilt, fun _ ht => ?_⟩
  · obtain ⟨m, counts, vals, c, hlen, hc, hcode, hl⟩ := h.table hb
    exact ⟨m, counts, vals, c, hlen, hc, by rw [hslot]; exact hcode, by rw [hslot]; exact hl⟩
  · obtain ⟨c, hc, -, hput⟩ := hcurrent ht
    exact ⟨c, (hspec.buildTable (hspec.specHeld ht)).trans hc, hput⟩
  · obtain ⟨c, hc, hputs, hput⟩ := hcurrent ht
    have hs := hspec.specHeld ht
    refine ⟨ht, hbuilt, c, (hspec.buildTable hs).trans hc, hput, ?_⟩
    rw [hspec.counts hs, ← lutEntries_codeAt hc hputs, hes, State.slot_putLut, if_pos rfl, hslot]

/-- A command keeps the clauses at every slot (10_state R34, R35). -/
theorem commandPart_slotInv (i : Instr) {s : State} {n : SlotId} (h : s.SlotInv n) :
    (commandPart i s).state.SlotInv n := by
  have hchange := commandPart_slotChange i s n
  generalize commandPart i s = e at hchange
  cases hchange with
  | kept heq => exact h.congr heq
  | loaded cls idx std =>
    refine .of_unbuilt ?_ ?_ <;> rw [Ended.state_ok, slot_loadSpec, if_pos rfl]
  | refused cls idx d =>
    refine .of_unbuilt ?_ ?_ <;> rw [Ended.state_raised, slot_unbuild_forgetTable, if_pos rfl]
  | built cls idx t hb => exact slotInv_putTable_setBuilt hb
  | looked cls idx hb => exact h.putLut_setLutv hb

/-! ## The packer within its bounds -/

/-- The part, if it ended OK, left the packer within its bounds (42_bit_packer R155). -/
def Ended.PackerOk : Ended → Prop
  | .ok t => t.PackerOk
  | .raised _ _ => True

theorem Ended.PackerOk.andThen {s : State} {e : Ended} {f : State → Ended} (hf : PackerFrame s e.state) (he : e.PackerOk)
    (h : ∀ t, PackerFrame s t → t.PackerOk → (f t).PackerOk) : (e.andThen f).PackerOk := by
  cases e with
  | ok t => exact h t hf he
  | raised c t => trivial

theorem putBits_packerOk (code : BitVec 16) {length : Nat} {s : State} (hp : s.PackerOk) (h16 : length ≤ 16) :
    (putBits code length s).PackerOk := by
  cases h : putBits code length s with
  | ok t => exact (putBits_of_ok hp h16 h).2
  | raised c t => trivial

theorem emitMagnitude_packerOk {v : Int} {c : Nat} {s : State} (hp : s.PackerOk) (h16 : c ≤ 16) :
    (emitMagnitude v c s).PackerOk := putBits_packerOk _ hp h16

theorem emitSym_packerOk {n : SlotId} (sym : Nat) {s : State} (hp : s.PackerOk) (hn : s.ShortCodes n) :
    (emitSym n sym s).PackerOk := by
  unfold emitSym
  cases he : s.enc n sym with
  | none => trivial
  | some e => exact putBits_packerOk e.1 hp (hn sym e.1 e.2 he)

theorem emitZrls_packerOk {a : SlotId} (m : Nat) {s : State} (hp : s.PackerOk) (ha : s.ShortCodes a) :
    (emitZrls a m s).PackerOk := by
  induction m generalizing s with
  | zero => exact hp
  | succ m ih =>
    exact (emitSym_packerOk zrlSymbol hp ha).andThen (emitSym_part a zrlSymbol s).frame fun t ht htp =>
      ih htp (ht.shortCodes ha)

theorem emitCoef_packerOk {a : SlotId} (k run : Nat) (v : Int) {s : State} (hp : s.PackerOk) (ha : s.ShortCodes a) :
    (emitCoef a k run v s).PackerOk := by
  refine (emitZrls_packerOk _ hp ha).andThen (emitZrls_part a _ s).frame fun t ht htp => ?_
  by_cases h15 : cat v > 15
  · rw [if_pos h15]
    trivial
  · rw [if_neg h15]
    exact (emitSym_packerOk _ htp (ht.shortCodes ha)).andThen (emitSym_part a _ t).frame fun u _ hup =>
      emitMagnitude_packerOk hup (by omega)

theorem endOfBlock_packerOk {a : SlotId} (run : Nat) {s : State} (hp : s.PackerOk) (ha : s.ShortCodes a) :
    (endOfBlock a run s).PackerOk := by
  unfold endOfBlock
  split_ifs
  · exact emitSym_packerOk eobSymbol hp ha
  · exact hp

theorem acPass_packerOk {a : SlotId} (ks : List Nat) (run : Nat) {s : State} (hp : s.PackerOk) (ha : s.ShortCodes a) :
    (acPass a ks run s).PackerOk := by
  induction ks generalizing run s with
  | nil => exact endOfBlock_packerOk run hp ha
  | cons k ks ih =>
    simp only [acPass]
    split_ifs
    · exact ih (run + 1) hp ha
    · exact (emitCoef_packerOk k run _ hp ha).andThen (emitCoef_part a k run _ s).frame fun t ht htp =>
        ih 0 htp (ht.shortCodes ha)

/-- A value of at most 16 bits has a category of at most 16 (30_encoding R84). -/
theorem cat_le_of_natAbs_lt {v : Int} (h : v.natAbs < 2 ^ 16) : cat v ≤ 16 := by
  unfold cat
  split_ifs with h0
  · omega
  · exact (Nat.log2_lt (by omega)).2 h

/-- The difference of a coefficient and a predictor in range has at most 16 magnitude bits (43_block_encoder R182). -/
theorem State.PredsInRange.cat_diff_le {s : State} (h : s.PredsInRange) (comp : Comp) : cat (s.diff comp) ≤ 16 := by
  obtain ⟨hlo, hhi⟩ := h comp
  have hl := (s.coefAt 0).le_toInt
  have hu := (s.coefAt 0).toInt_lt
  refine cat_le_of_natAbs_lt ?_
  unfold State.diff
  omega

/-- The body of ENCBLK, ended OK, leaves the packer within its bounds (43_block_encoder R180, 42_bit_packer R155). -/
theorem encblkBody_packerOk {comp : Comp} {d a : SlotId} {s : State} (hp : s.PackerOk) (hr : s.PredsInRange)
    (hd : s.ShortCodes d) (ha : s.ShortCodes a) :
    ((dcPass comp d s).andThen (acPass a acPositions 0)).PackerOk := by
  rw [dcPass, Ended.andThen_assoc]
  refine (emitSym_packerOk (s := s.setPred comp ((s.coefAt 0).signExtend 32)) _ hp hd).andThen
    (emitSym_part d _ _).frame fun t ht htp => ?_
  refine (emitMagnitude_packerOk htp (hr.cat_diff_le comp)).andThen (emitMagnitude_part _ _ t).frame fun u hu hup => ?_
  exact acPass_packerOk acPositions 0 hup ((ht.trans hu).shortCodes (n := a) ha)

/-- A packer part that keeps the bounds, left ACTIVE, is within them: a raised one is FAILED. -/
theorem PackerPart.packerOk_of_active {s : State} {e : Ended} (hpart : PackerPart s e) (he : e.PackerOk)
    (hm : e.state.pkMode = .active) : e.state.PackerOk := by
  cases hpart with
  | ok t => exact he
  | raised c t frame mode => exact absurd (mode.symm.trans hm) (by decide)

/-- An empty packer is within its bounds. -/
theorem State.packerOk_of_empty {s : State} (hr : s.pkReg = 0) (hc : s.pkCnt = 0) : s.PackerOk := by
  simp [State.PackerOk, hr, hc]

/-! ## The predictors in range -/

/-- A coefficient sign-extended is in a coefficient's range (10_state R30). -/
theorem toInt_signExtend_inRange (x : BitVec 16) :
    -32768 ≤ (x.signExtend 32).toInt ∧ (x.signExtend 32).toInt ≤ 32767 := by
  have hl := x.le_toInt
  have hu := x.toInt_lt
  rw [BitVec.toInt_signExtend_of_le (by omega)]
  omega

theorem State.PredsInRange.setPred {s : State} (h : s.PredsInRange) (c : Comp) {v : Word}
    (hv : -32768 ≤ v.toInt ∧ v.toInt ≤ 32767) : (s.setPred c v).PredsInRange := by
  intro d
  rw [State.pred_setPred]
  split_ifs
  · exact hv
  · exact h d

theorem State.PredsInRange.congr {s t : State} (heq : ∀ c, t.pred c = s.pred c) (h : s.PredsInRange) :
    t.PredsInRange := fun c => heq c ▸ h c

theorem State.PredsInRange.foldl_clearPred (mask : BitVec 4) (cs : List Comp) {s : State} (h : s.PredsInRange) :
    (cs.foldl (clearPred mask) s).PredsInRange := by
  induction cs generalizing s with
  | nil => exact h
  | cons c cs ih =>
    refine ih ?_
    unfold clearPred
    split_ifs
    · exact h.setPred c (by decide)
    · exact h

/-- Every command keeps the predictors in range: ENCBLK writes a coefficient, SCANRST zeros (43_block_encoder R182, R187). -/
theorem commandPart_predsInRange (i : Instr) {s : State} (h : s.PredsInRange) :
    (commandPart i s).state.PredsInRange := by
  cases i with
  | ldstd cls idx std => exact h
  | build cls idx =>
    rw [commandPart, buildSlot_frame]
    exact h
  | bldlut cls idx =>
    rw [commandPart, buildLut_frame]
    exact h
  | putbits code length => exact h.congr (putbitsCommand_frame code length s).pred
  | flush => exact h.congr (flushCommand_frame s).pred
  | pkrst => exact h
  | encblk comp dcidx acidx =>
    obtain hf | hf := encblkCommand_frame comp (slotOf .dc dcidx) (slotOf .ac acidx) s
    · exact h.congr hf.pred
    · exact (h.setPred comp (toInt_signExtend_inRange _)).congr hf.pred
  | scanrst mask => exact h.foldl_clearPred mask _

/-! ## The invariant but for the error registers -/

/-- The invariant's clauses about everything but the error registers, which only the end of a command writes. -/
structure State.CoreInv (s : State) : Prop where
  memory : Memory.wf s = true
  packer : s.pkMode = .active → s.PackerOk
  slots : ∀ n, s.SlotInv n
  preds : s.PredsInRange

theorem State.Inv.coreInv {s : State} (h : s.Inv) : s.CoreInv := ⟨h.memory, h.packer, h.slotInv, h.preds⟩

theorem State.CoreInv.inv {s : State} (h : s.CoreInv) (he : ∀ i, s.errstat.getLsbD i = true → 1 ≤ i ∧ i ≤ 8)
    (hl : (s.lasterr.extractLsb' 0 8).toNat ≤ 8) : s.Inv where
  memory := h.memory
  packer := h.packer
  tables n := (h.slots n).table
  current n := (h.slots n).current
  lookup n := (h.slots n).lookup
  looked n := (h.slots n).looked
  preds := h.preds
  errstat := he
  lasterr := hl

/-- The clauses speak of the stores, the predictors and the packer only. -/
theorem State.CoreInv.congr {s t : State} (h : s.CoreInv) (hslots : t.slots = s.slots) (hcoef : t.coef = s.coef)
    (hpred : t.dcPred = s.dcPred) (hreg : t.pkReg = s.pkReg) (hcnt : t.pkCnt = s.pkCnt) (hmode : t.pkMode = s.pkMode) :
    t.CoreInv where
  memory := Memory.wf_congr (State.slot_congr hslots) hcoef h.memory
  packer hm := by
    have hp := h.packer (hmode ▸ hm)
    unfold State.PackerOk at hp ⊢
    rwa [hreg, hcnt]
  slots n := (h.slots n).congr (State.slot_congr hslots n)
  preds := h.preds.congr fun c => by rw [State.pred, State.pred, hpred]

/-- Every command leaves an ACTIVE packer within its bounds (42_bit_packer R155). -/
theorem commandPart_packerOk (i : Instr) {s : State} (h : s.CoreInv) (hm : (commandPart i s).state.pkMode = .active) :
    (commandPart i s).state.PackerOk := by
  cases i with
  | ldstd cls idx std => exact h.packer hm
  | build cls idx =>
    rw [commandPart, buildSlot_frame] at hm ⊢
    exact h.packer hm
  | bldlut cls idx =>
    rw [commandPart, buildLut_frame] at hm ⊢
    exact h.packer hm
  | putbits code length =>
    simp only [commandPart] at hm ⊢
    obtain ⟨-, he⟩ | ⟨-, -, he⟩ | ⟨ha, h16, he⟩ := putbitsCommand_cases code length s <;> rw [he] at hm ⊢
    · exact h.packer hm
    · exact h.packer hm
    · exact (putBits_part code _ s).packerOk_of_active (putBits_packerOk code (h.packer ha) h16) hm
  | flush => exact absurd hm (flushCommand_pkMode_ne s)
  | pkrst => exact State.packerOk_of_empty rfl rfl
  | encblk comp dcidx acidx =>
    simp only [commandPart] at hm ⊢
    obtain ⟨-, he⟩ | ⟨-, -, he⟩ | ⟨-, -, -, he⟩ | ⟨hd, hac, ha, he⟩ :=
      encblkCommand_cases comp (slotOf .dc dcidx) (slotOf .ac acidx) s <;> rw [he] at hm ⊢
    · exact h.packer hm
    · exact h.packer hm
    · exact h.packer hm
    · exact (encblkBody_part comp _ _ s).packerOk_of_active (encblkBody_packerOk (h.packer ha) h.preds
        ((h.slots _).table hd).shortCodes ((h.slots _).table hac).shortCodes) hm
  | scanrst mask =>
    rw [commandPart, Ended.state_ok, foldl_clearPred_frame] at hm ⊢
    exact h.packer hm

/-- What changes the packer and the sink's side only keeps memory canonical. -/
theorem PackerFrame.memory_wf {s t : State} (hf : PackerFrame s t) (h : Memory.wf s = true) : Memory.wf t = true :=
  Memory.wf_congr hf.slot hf.coef h

/-- Every command keeps memory canonical (20_memory R50, R54). -/
theorem commandPart_memory_wf (i : Instr) {s : State} (h : Memory.wf s = true) :
    Memory.wf (commandPart i s).state = true := by
  cases i with
  | ldstd cls idx std => exact Memory.wf_loadSpec h _ cls std
  | build cls idx => exact Memory.wf_buildSlot h _
  | bldlut cls idx => exact Memory.wf_buildLut h _
  | putbits code length => exact (putbitsCommand_frame code length s).memory_wf h
  | flush => exact (flushCommand_frame s).memory_wf h
  | pkrst => exact h
  | encblk comp dcidx acidx =>
    obtain hf | hf := encblkCommand_frame comp (slotOf .dc dcidx) (slotOf .ac acidx) s
    · exact hf.memory_wf h
    · exact hf.memory_wf h
  | scanrst mask =>
    rw [commandPart, Ended.state_ok, foldl_clearPred_frame]
    exact h

theorem commandPart_coreInv (i : Instr) {s : State} (h : s.CoreInv) : (commandPart i s).state.CoreInv where
  memory := commandPart_memory_wf i h.memory
  packer := commandPart_packerOk i h
  slots n := commandPart_slotInv i (h.slots n)
  preds := commandPart_predsInRange i h.preds

/-- A host write to an element of the map keeps them: to a spec it clears the slot's flags (20_memory R55). -/
theorem hostWrite_coreInv {s : State} (h : s.CoreInv) {e : Element} (he : e.InRange) (data : Word) :
    (s.hostWrite e data).CoreInv where
  memory := Memory.wf_hostWrite h.memory he data
  packer hm := by
    rw [hostWrite_frame] at hm ⊢
    exact h.packer hm
  slots n := by
    obtain heq | ⟨hb, hl⟩ := hostWrite_slot_cases s e data n
    · exact (h.slots n).congr heq
    · exact .of_unbuilt hb hl
  preds := by
    rw [hostWrite_frame]
    exact h.preds

/-! ## The error registers within their codes -/

/-- A fault taken sets a bit of a cause and records its code (10_state R37, R38, 60_exceptions R230). -/
theorem State.CoreInv.takeFault {s : State} (h : s.CoreInv)
    (he : ∀ i, s.errstat.getLsbD i = true → 1 ≤ i ∧ i ≤ 8) (c : Cause) : (s.takeFault c).Inv := by
  obtain ⟨hlast, hbits⟩ := s.endedWith_takeFault c
  have hpos := c.code_pos
  have hle := c.code_le
  refine (h.congr (t := s.takeFault c) rfl rfl rfl rfl rfl rfl).inv (fun i hi => ?_) ?_
  · rw [hbits, Bool.or_eq_true, decide_eq_true_eq] at hi
    obtain hi | rfl := hi
    · exact he i hi
    · exact ⟨hpos, hle⟩
  · rw [BitVec.extractLsb'_toNat, hlast, Nat.shiftRight_zero]
    omega

/-- Recording how a command ended keeps the invariant. -/
theorem Ended.close_inv {e : Ended} (h : e.state.CoreInv)
    (he : ∀ i, e.state.errstat.getLsbD i = true → 1 ≤ i ∧ i ≤ 8) : e.close.Inv := by
  cases e with
  | ok s => exact (h.congr (t := s.endOk) rfl rfl rfl rfl rfl rfl).inv he (Nat.zero_le 8)
  | raised c s => exact h.takeFault he c

/-! ## Reset and every step -/

/-- Settles O53: nothing is listed, no flag is set, every register is 0. -/
theorem resetMeetsTheInvariant : Obligations.ResetMeetsTheInvariant := by
  refine State.CoreInv.inv ⟨Memory.wf_reset, fun _ => State.packerOk_of_empty rfl rfl, fun n => ?_, fun c => ?_⟩ ?_ ?_
  · exact .of_unbuilt (by rw [State.slot_reset]; rfl) (by rw [State.slot_reset]; rfl)
  · rw [State.pred_reset]
    decide
  · intro i hi
    simp [State.reset] at hi
  · exact Nat.zero_le 8

/-- Hardware reset leaves the reset state's core, so it meets the invariant (10_state R41). -/
theorem State.inv_hardwareReset (s : State) : s.hardwareReset.Inv := by
  have h : State.reset.Inv := resetMeetsTheInvariant
  exact (h.coreInv.congr (t := s.hardwareReset) rfl rfl rfl rfl rfl rfl).inv h.errstat h.lasterr

/-- Settles O54: a step is a command, a host access or a hardware reset, and each keeps the invariant. -/
theorem everyStepKeepsTheInvariant : Obligations.EveryStepKeepsTheInvariant := by
  intro s t h hstep
  have hrest : ∀ rest, State.CoreInv { s with host := rest } := fun rest => h.coreInv.congr rfl rfl rfl rfl rfl rfl
  cases step_cases hstep with
  | idle hh => exact h
  | command w rest i hh hd =>
    exact Ended.close_inv (commandPart_coreInv i (hrest rest)) (by rw [commandPart_errstat]; exact h.errstat)
  | illegal w rest hh => exact (hrest rest).takeFault h.errstat _
  | write addr data rest e hh he =>
    have hw := hostWrite_coreInv (hrest rest) (ofAddr_inRange he) data
    refine State.CoreInv.inv (hw.congr rfl rfl rfl rfl rfl rfl) ?_ ?_ <;> rw [hostWrite_frame]
    · exact h.errstat
    · exact h.lasterr
  | read addr rest e hh he => exact State.CoreInv.inv ((hrest rest).congr rfl rfl rfl rfl rfl rfl) h.errstat h.lasterr
  | reset rest hh => exact State.inv_hardwareReset _
  | resetDuring w taken rest hh => exact State.inv_hardwareReset _

end Sys2Proof.Machine
end

section
/-! Who writes what over a whole step (spec/10_state.md rules R20, R33, R34, R36, R41): the stores by their owners, the flag
`built` by BUILD, the packer's reopening by PKRST, everything by hardware reset; and the word STATUS. -/

namespace Sys2Proof.Machine

/-! ## The elements a command writes -/

theorem PackerFrame.cell {s t : State} (h : PackerFrame s t) (e : Element) : t.cell e = s.cell e := by
  rw [h]
  cases e <;> rfl

/-- Recording an end writes no element. -/
@[simp] theorem Ended.cell_close (r : Ended) (e : Element) : r.close.cell e = r.state.cell e := by
  cases r <;> cases e <;> rfl

/-- What an element holds is read off its slot, or COEF. -/
theorem State.cell_congr {s t : State} (hs : ∀ m, t.slot m = s.slot m) (hc : t.coef = s.coef) (e : Element) :
    t.cell e = s.cell e := by
  cases e <;> simp only [State.cell, hs, hc]

/-- What a slot holds for an element of its own; the element's slot number is not looked at. -/
def Slot.cell (x : Slot) : Element → Option Word
  | .bits _ i => (Store.find? x.bits i).map (·.setWidth 32)
  | .nval _ => (Store.find? x.nval 0).map (·.setWidth 32)
  | .val _ k => (Store.find? x.val k).map (·.setWidth 32)
  | .code _ k => (Store.find? x.code k).map (·.setWidth 32)
  | .len _ k => (Store.find? x.len k).map (·.setWidth 32)
  | .lutMin _ L => Store.find? x.lutMin L
  | .lutMax _ L => Store.find? x.lutMax L
  | .lutPtr _ L => Store.find? x.lutPtr L
  | .csr _ => none
  | .coef _ => none
  | .zigzag _ => none

/-- The element is one of slot `n`. -/
def Element.inSlot (n : SlotId) (e : Element) : Bool := e.inSpec n || e.inTbl n || e.inLut n

/-- An element of a slot's spec is an element of no other slot. -/
theorem Element.eq_of_inSpec_of_inSlot {m n : SlotId} {e : Element} (hm : e.inSpec m = true)
    (hn : e.inSlot n = true) : m = n := by
  cases e <;> simp_all [Element.inSlot, Element.inSpec, Element.inTbl, Element.inLut]

/-- An element of a slot holds what the slot holds for it. -/
theorem State.cell_of_inSlot {n : SlotId} {e : Element} (h : e.inSlot n = true) (s : State) :
    s.cell e = (s.slot n).cell e := by
  cases e <;> simp_all [Element.inSlot, Element.inSpec, Element.inTbl, Element.inLut, State.cell, Slot.cell]

/-- An element of no slot but `n` is read off COEF and the other slots. -/
theorem State.cell_congr_of_not_inSlot {s t : State} {n : SlotId} {e : Element} (h : e.inSlot n = false)
    (hs : ∀ m, m ≠ n → t.slot m = s.slot m) (hc : t.coef = s.coef) : t.cell e = s.cell e := by
  cases e <;> simp_all [Element.inSlot, Element.inSpec, Element.inTbl, Element.inLut, State.cell]

/-- A change of one slot keeps an element for which that slot holds what it held. -/
theorem State.cell_congr_but {s t : State} {n : SlotId} {e : Element} (hs : ∀ m, m ≠ n → t.slot m = s.slot m)
    (hc : t.coef = s.coef) (hn : e.inSlot n = true → (t.slot n).cell e = (s.slot n).cell e) : t.cell e = s.cell e := by
  cases h : e.inSlot n with
  | false => exact State.cell_congr_of_not_inSlot h hs hc
  | true => rw [State.cell_of_inSlot h, State.cell_of_inSlot h, hn h]

/-- Outside a slot's spec its elements do not depend on the spec or the flags. -/
theorem Slot.cell_of_not_inSpec {x y : Slot} {n : SlotId} {e : Element} (he : e.inSpec n = false)
    (hin : e.inSlot n = true) (hcode : y.code = x.code) (hlen : y.len = x.len) (hmin : y.lutMin = x.lutMin)
    (hmax : y.lutMax = x.lutMax) (hptr : y.lutPtr = x.lutPtr) : y.cell e = x.cell e := by
  cases e <;> simp_all [Element.inSlot, Slot.cell, Element.inTbl, Element.inLut]

/-- Outside a slot's table its elements do not depend on the table or the flags. -/
theorem Slot.cell_of_not_inTbl {x y : Slot} {n : SlotId} {e : Element} (he : e.inTbl n = false)
    (hin : e.inSlot n = true) (hbits : y.bits = x.bits) (hnval : y.nval = x.nval) (hval : y.val = x.val)
    (hmin : y.lutMin = x.lutMin) (hmax : y.lutMax = x.lutMax) (hptr : y.lutPtr = x.lutPtr) : y.cell e = x.cell e := by
  cases e <;> simp_all [Element.inSlot, Slot.cell, Element.inSpec, Element.inLut]

/-- Outside a slot's lookup its elements do not depend on the lookup or the flags. -/
theorem Slot.cell_of_not_inLut {x y : Slot} {n : SlotId} {e : Element} (he : e.inLut n = false)
    (hin : e.inSlot n = true) (hbits : y.bits = x.bits) (hnval : y.nval = x.nval) (hval : y.val = x.val)
    (hcode : y.code = x.code) (hlen : y.len = x.len) : y.cell e = x.cell e := by
  cases e <;> simp_all [Element.inSlot, Slot.cell, Element.inSpec, Element.inTbl]

/-- LDSTD writes its slot's spec only (40_code_builder R102). -/
theorem cell_loadSpec (s : State) {n : SlotId} (spec : HuffmanSpec) {e : Element} (he : e.inSpec n = false) :
    (loadSpec s n spec).cell e = s.cell e := by
  refine State.cell_congr_but (n := n) (fun m hm => by rw [slot_loadSpec, if_neg hm]) rfl fun hin => ?_
  rw [slot_loadSpec, if_pos rfl]
  exact Slot.cell_of_not_inSpec he hin rfl rfl rfl rfl rfl

/-- A BUILD, ended either way, writes its slot's table only (40_code_builder R103). -/
theorem cell_buildSlot (s : State) {n : SlotId} {e : Element} (he : e.inTbl n = false) :
    (buildSlot s n).state.cell e = s.cell e := by
  cases hb : buildTable (s.nvalAt n).toNat (s.counts n) (s.symbols n (s.nvalAt n).toNat) with
  | error d =>
    rw [buildSlot_of_error hb, Ended.state_raised]
    refine State.cell_congr_but (n := n) (fun m hm => by rw [slot_unbuild_forgetTable, if_neg hm]) rfl fun hin => ?_
    rw [slot_unbuild_forgetTable, if_pos rfl]
    exact Slot.cell_of_not_inTbl he hin rfl rfl rfl rfl rfl rfl
  | ok t =>
    rw [buildSlot_of_ok hb, Ended.state_ok]
    refine State.cell_congr_but (n := n) (fun m hm => by rw [slot_putTable_setBuilt, if_neg hm]) rfl fun hin => ?_
    rw [slot_putTable_setBuilt, if_pos rfl]
    exact Slot.cell_of_not_inTbl he hin rfl rfl rfl rfl rfl rfl

/-- A BLDLUT writes its slot's lookup only (41_decoder_lookup R130). -/
theorem cell_buildLut (s : State) {n : SlotId} {e : Element} (he : e.inLut n = false) :
    (buildLut s n).state.cell e = s.cell e := by
  cases hb : (s.slot n).built with
  | false => rw [buildLut_of_not_built hb, Ended.state_raised]
  | true =>
    rw [buildLut_of_built hb, Ended.state_ok]
    refine State.cell_congr_but (n := n) (fun m hm => by rw [slot_putLut_setLutv, if_neg hm]) rfl fun hin => ?_
    rw [slot_putLut_setLutv, if_pos rfl]
    exact Slot.cell_of_not_inLut he hin rfl rfl rfl rfl rfl

/-- The command owns the element: LDSTD its slot's spec, BUILD its table, BLDLUT its lookup (10_state R25, R27). -/
def CommandWrites (i : Instr) (e : Element) : Prop :=
  (∃ cls idx std, i = .ldstd cls idx std ∧ e.inSpec (slotOf cls idx) = true) ∨
    (∃ cls idx, i = .build cls idx ∧ e.inTbl (slotOf cls idx) = true) ∨
    ∃ cls idx, i = .bldlut cls idx ∧ e.inLut (slotOf cls idx) = true

/-- A command writes no element but those it owns (10_state R20). -/
theorem commandPart_cell {i : Instr} {s : State} {e : Element} (h : ¬ CommandWrites i e) :
    (commandPart i s).state.cell e = s.cell e := by
  cases i with
  | ldstd cls idx std => exact cell_loadSpec s _ (Bool.eq_false_iff.2 fun he => h (.inl ⟨cls, idx, std, rfl, he⟩))
  | build cls idx => exact cell_buildSlot s (Bool.eq_false_iff.2 fun he => h (.inr (.inl ⟨cls, idx, rfl, he⟩)))
  | bldlut cls idx => exact cell_buildLut s (Bool.eq_false_iff.2 fun he => h (.inr (.inr ⟨cls, idx, rfl, he⟩)))
  | putbits code length => exact (putbitsCommand_frame code length s).cell e
  | flush => exact (flushCommand_frame s).cell e
  | pkrst => exact State.cell_congr (fun _ => rfl) rfl e
  | encblk comp dcidx acidx =>
    obtain hf | hf := encblkCommand_frame comp (slotOf .dc dcidx) (slotOf .ac acidx) s
    · exact hf.cell e
    · exact (hf.cell e).trans (State.cell_congr (fun _ => rfl) rfl e)
  | scanrst mask =>
    rw [commandPart, Ended.state_ok, foldl_clearPred_frame]
    exact State.cell_congr (fun _ => rfl) rfl e

/-! ## The elements the host writes -/

theorem slotElement_addr {n : SlotId} {o : Nat} {e : Element} (h : slotElement n o = some e) :
    e.addr = slotBase n + o := by
  unfold slotElement at h
  split_ifs at h <;> cases h <;> simp only [Element.addr] <;> omega

/-- The map names an element at its own address (20_memory R51). -/
theorem addr_of_ofAddr {a : Nat} {e : Element} (h : Element.ofAddr a = some e) : e.addr = a := by
  have hslot : ∀ n : SlotId, slotBase n ≤ a → slotElement n (a - slotBase n) = some e → e.addr = a := fun n hle he => by
    rw [slotElement_addr he]
    omega
  unfold Element.ofAddr at h
  split_ifs at h
  · cases h; rfl
  · cases h; simp only [Element.addr]; omega
  · cases h; simp only [Element.addr]; omega
  · exact hslot 0 (by simp [slotBase]; omega) h
  · exact hslot 1 (by simp [slotBase]; omega) h
  · exact hslot 2 (by simp [slotBase]; omega) h
  · exact hslot 3 (by simp [slotBase]; omega) h

/-- The host can write an element: one of a spec, or of COEF (20_memory R55, R56). -/
def Element.HostWritable (e : Element) : Prop := (∃ n, e.inSpec n = true) ∨ ∃ i, e = .coef i

/-- A host write to an element the host cannot write has no effect (20_memory R56). -/
theorem hostWrite_of_not_writable {e : Element} (h : ¬ e.HostWritable) (s : State) (w : Word) :
    s.hostWrite e w = s := by
  cases e with
  | coef i => exact absurd (.inr ⟨i, rfl⟩) h
  | bits n i => exact absurd (.inl ⟨n, decide_eq_true rfl⟩) h
  | nval n => exact absurd (.inl ⟨n, decide_eq_true rfl⟩) h
  | val n k => exact absurd (.inl ⟨n, decide_eq_true rfl⟩) h
  | csr n => rfl
  | zigzag k => rfl
  | lutMin n L => rfl
  | lutMax n L => rfl
  | lutPtr n L => rfl
  | code n k => rfl
  | len n k => rfl

/-- Replacing a slot and clearing its flags keeps an element for which the slot holds what it held. -/
theorem State.cell_setSlot_unbuild {s : State} {n : SlotId} {x : Slot} {e : Element}
    (h : e.inSlot n = true → x.cell e = (s.slot n).cell e) : ((s.setSlot n x).unbuild n).cell e = s.cell e := by
  refine State.cell_congr_but (n := n) (fun m hm => by rw [State.slot_setSlot_unbuild, if_neg hm]) rfl fun hin => ?_
  rw [State.slot_setSlot_unbuild, if_pos rfl, ← h hin]
  cases e <;> rfl

/-- A host write changes no element but the one it names (20_memory R54, R55). -/
theorem cell_hostWrite_of_ne {e e' : Element} (h : e' ≠ e) (s : State) (w : Word) :
    (s.hostWrite e w).cell e' = s.cell e' := by
  by_cases hw : e.HostWritable
  · cases e with
    | coef i =>
      cases e' with
      | coef j =>
        have hj : j ≠ i := fun hji => h (congrArg Element.coef hji)
        simp only [State.cell, State.hostWrite, Store.find?_put, if_neg hj]
      | _ => rfl
    | bits n i =>
      refine State.cell_setSlot_unbuild fun hin => ?_
      cases e' with
      | bits m j =>
        obtain rfl : m = n := Element.eq_of_inSpec_of_inSlot (e := .bits m j) (decide_eq_true rfl) hin
        simp only [Slot.cell, Store.find?_put, if_neg fun hj => h (congrArg (Element.bits m) hj)]
      | _ => rfl
    | nval n =>
      refine State.cell_setSlot_unbuild fun hin => ?_
      cases e' with
      | nval m =>
        obtain rfl : m = n := Element.eq_of_inSpec_of_inSlot (e := .nval m) (decide_eq_true rfl) hin
        exact absurd rfl h
      | _ => rfl
    | val n k =>
      refine State.cell_setSlot_unbuild fun hin => ?_
      cases e' with
      | val m j =>
        obtain rfl : m = n := Element.eq_of_inSpec_of_inSlot (e := .val m j) (decide_eq_true rfl) hin
        simp only [Slot.cell, Store.find?_put, if_neg fun hj => h (congrArg (Element.val m) hj)]
      | _ => rfl
    | _ => simp [Element.HostWritable, Element.inSpec] at hw
  · rw [hostWrite_of_not_writable hw]

/-- Settles O59: a command writes what it owns, the host the elements it can write, each at its own address, and else only
hardware reset changes what an element holds. -/
theorem storesAreWrittenByTheirOwners : Obligations.StoresAreWrittenByTheirOwners := by
  intro s t e hstep hne
  have hrest : ∀ rest, State.cell { s with host := rest } e = s.cell e := fun rest =>
    State.cell_congr (fun _ => rfl) rfl e
  cases step_cases hstep with
  | idle hh => exact absurd rfl hne
  | command w rest i hh hd =>
    refine .inr (.inr (.inr ⟨w, rest, i, hh, hd, ?_⟩))
    by_contra hown
    exact hne (by rw [Ended.cell_close, commandPart_cell hown, hrest])
  | illegal w rest hh => exact absurd (State.cell_congr (fun _ => rfl) rfl e) hne
  | write addr data rest e' hh he =>
    have hcell : State.cell { State.hostWrite { s with host := rest } e' data with draws := s.draws + 1 } e =
        (State.hostWrite { s with host := rest } e' data).cell e := State.cell_congr (fun _ => rfl) rfl e
    rw [hcell] at hne
    have hee : e = e' := by
      by_contra hee
      exact hne (by rw [cell_hostWrite_of_ne hee, hrest])
    subst hee
    refine .inr (.inr (.inl ⟨data, rest, by rw [addr_of_ofAddr he]; exact hh, ?_⟩))
    by_contra hw
    exact hne (by rw [hostWrite_of_not_writable hw, hrest])
  | read addr rest e' hh he => exact absurd (State.cell_congr (fun _ => rfl) rfl e) hne
  | reset rest hh => exact .inl ⟨rest, hh⟩
  | resetDuring w taken rest hh => exact .inr (.inl ⟨w, taken, rest, hh⟩)

/-! ## The packer's mode and the flag `built` -/

@[simp] theorem Ended.pkMode_close (e : Ended) : e.close.pkMode = e.state.pkMode := by
  cases e <;> rfl

/-- Settles O57: a packer that is not ACTIVE keeps its mode through every other command and every host access. -/
theorem onlyPkrstAndResetReopenThePacker : Obligations.OnlyPkrstAndResetReopenThePacker := by
  intro s t hstep hs ht
  cases step_cases hstep with
  | idle hh => exact absurd ht hs
  | command w rest i hh hd =>
    by_cases hi : i = .pkrst
    · exact .inl ⟨w, rest, hh, hi ▸ hd⟩
    · rw [Ended.pkMode_close, commandPart_pkMode_of_closed (s := { s with host := rest }) hs hi] at ht
      exact absurd ht hs
  | illegal w rest hh => exact absurd ht hs
  | write addr data rest e hh he =>
    rw [hostWrite_frame] at ht
    exact absurd ht hs
  | read addr rest e hh he => exact absurd ht hs
  | reset rest hh => exact .inr (.inl ⟨rest, hh⟩)
  | resetDuring w taken rest hh => exact .inr (.inr ⟨w, taken, rest, hh⟩)

/-- A command that sets `built` of a slot is a BUILD of it that ended OK (10_state R34). -/
theorem SlotChange.of_sets_built {s : State} {i : Instr} {n : SlotId} {e : Ended} (h : SlotChange s i n e)
    (hs : (s.slot n).built = false) (he : (e.state.slot n).built = true) :
    e.close.lasterr = 0 ∧ ∃ cls idx, i = .build cls idx ∧ slotOf cls idx = n := by
  cases h with
  | kept heq => exact absurd (heq ▸ he) (by simp [hs])
  | loaded cls idx std => simp [slot_loadSpec] at he
  | refused cls idx d => simp [slot_unbuild_forgetTable] at he
  | built cls idx t _ => exact ⟨rfl, cls, idx, rfl, rfl⟩
  | looked cls idx hb => exact absurd hb (by simp [hs])

/-- Settles O58: of what a command can make of a slot only a BUILD's OK end sets `built`; nothing else of a step does. -/
theorem onlyBuildSetsBuilt : Obligations.OnlyBuildSetsBuilt := by
  intro s t n hstep hs ht
  have hns : ¬ (s.slot n).built = true := by simp [hs]
  cases step_cases hstep with
  | idle hh => exact absurd ht hns
  | command w rest i hh hd =>
    rw [Ended.slot_close] at ht
    obtain ⟨hl, cls, idx, rfl, hn⟩ := (commandPart_slotChange i { s with host := rest } n).of_sets_built hs ht
    exact ⟨hl, w, rest, cls, idx, hh, hd, hn⟩
  | illegal w rest hh => exact absurd ht hns
  | write addr data rest e hh he =>
    change ((State.hostWrite { s with host := rest } e data).slot n).built = true at ht
    obtain heq | ⟨hb, -⟩ := hostWrite_slot_cases { s with host := rest } e data n
    · rw [heq] at ht
      exact absurd ht hns
    · exact absurd ht (by simp [hb])
  | read addr rest e hh he => exact absurd ht hns
  | reset rest hh => simp [Slot.reset] at ht
  | resetDuring w taken rest hh => simp [Slot.reset] at ht

/-! ## STATUS -/

/-- The flags of the slots, each at its slot's number (10_state R36). -/
theorem State.getLsbD_slotFlags (s : State) (f : Slot → Bool) (n : SlotId) :
    (s.slotFlags f).getLsbD n.val = f (s.slot n) := by
  unfold State.slotFlags
  fin_cases n <;> simp only [BitVec.getLsbD_append, BitVec.getLsbD_ofBool] <;> simp

/-- STATUS by its fields, lowest first (10_state R36). -/
theorem State.getLsbD_status (s : State) (i : Nat) :
    s.status.getLsbD i =
      if i < 2 then (BitVec.ofNat 2 s.pkMode.num).getLsbD i
      else if i < 4 then false
      else if i < 8 then (s.slotFlags Slot.built).getLsbD (i - 4)
      else if i < 12 then (s.slotFlags Slot.lutv).getLsbD (i - 8)
      else false := by
  unfold State.status
  have hgap : i - 2 < 2 ↔ i < 4 := by omega
  have hbuilt : i - 4 < 4 ↔ i < 8 := by omega
  have hlutv : i - 8 < 4 ↔ i < 12 := by omega
  simp only [BitVec.getLsbD_append, BitVec.getLsbD_zero, Nat.sub_sub, hgap, hbuilt, hlutv]

/-- Settles O50: STATUS is its fields side by side. -/
theorem statusShowsTheFlags : Obligations.StatusShowsTheFlags := by
  intro s
  refine ⟨rfl, rfl, fun _ => rfl, ?_, fun n => ?_, fun i hi => ?_⟩
  · have hmode : s.status.extractLsb' 0 2 = BitVec.ofNat 2 s.pkMode.num := by
      refine BitVec.eq_of_getLsbD_eq fun i hi => ?_
      rw [BitVec.getLsbD_extractLsb', Nat.zero_add, State.getLsbD_status, if_pos hi]
      simp [hi]
    rw [hmode]
    cases s.pkMode <;> rfl
  · have hn := n.isLt
    constructor
    · rw [State.getLsbD_status, if_neg (by omega), if_neg (by omega), if_pos (by omega), Nat.add_sub_cancel_left,
        State.getLsbD_slotFlags]
    · rw [State.getLsbD_status, if_neg (by omega), if_neg (by omega), if_neg (by omega), if_pos (by omega),
        Nat.add_sub_cancel_left, State.getLsbD_slotFlags]
  · rw [State.getLsbD_status, if_neg (by omega)]
    obtain rfl | rfl | h12 := hi
    · rfl
    · rfl
    · rw [if_neg (by omega), if_neg (by omega), if_neg (by omega)]

/-! ## Hardware reset -/

/-- No element holds a value after hardware reset (10_state R41). -/
theorem cell_hardwareReset (s : State) (e : Element) : s.hardwareReset.cell e = none := by
  cases e <;> simp [State.cell, Slot.reset, State.reset, Store.find?]

/-- Settles O51: the step is hardware reset, which leaves the reset state but for what is not the core's. -/
theorem hardwareResetLeavesTheResetState : Obligations.HardwareResetLeavesTheResetState := by
  intro s rest hh
  exact ⟨_, step_of_host_cons hh, cell_hardwareReset _, fun n => by simp [Slot.reset], State.pred_hardwareReset _,
    rfl, rfl, rfl, rfl, rfl, rfl, rfl⟩

end Sys2Proof.Machine
end

section
/-! What no command reads: ERRSTAT (spec/10_state.md rule R38) and the registers of a FAILED packer (rule R33). A part that
ignores a change of the state runs the same with it and carries it to its end. -/

namespace Sys2Proof.Machine

/-- The end of a part with its state changed. -/
def Ended.map (g : State → State) : Ended → Ended
  | .ok s => .ok (g s)
  | .raised c s => .raised c (g s)

/-- The part neither reads nor writes what `g` changes. -/
def Ignores (g : State → State) (f : State → Ended) : Prop := ∀ s, f (g s) = (f s).map g

/-- The state with the packer's registers and ERRSTAT changed. -/
def State.overwrite (reg : Word → Word) (cnt : BitVec 8 → BitVec 8) (err : Word → Word) (s : State) : State :=
  { s with pkReg := reg s.pkReg, pkCnt := cnt s.pkCnt, errstat := err s.errstat }

theorem Ignores.ok (g : State → State) : Ignores g .ok := fun _ => rfl

/-- Parts in sequence ignore what both do. -/
theorem Ignores.andThen {g : State → State} {f k : State → Ended} (hf : Ignores g f) (hk : Ignores g k) :
    Ignores g fun s => (f s).andThen k := by
  intro s
  simp only [hf s]
  cases f s with
  | ok t => exact hk t
  | raised c t => rfl

/-- A part chosen by what `g` does not change ignores what both do. -/
theorem Ignores.ite {g : State → State} {p : State → Prop} [DecidablePred p] {f k : State → Ended}
    (hp : ∀ s, p (g s) ↔ p s) (hf : Ignores g f) (hk : Ignores g k) : Ignores g fun s => if p s then f s else k s := by
  intro s
  by_cases h : p s
  · simp only [if_pos h, if_pos ((hp s).2 h), hf s]
  · simp only [if_neg h, if_neg ((hp s).not.2 h), hk s]

/-! ## The commands that touch no packer -/

section
variable (reg : Word → Word) (cnt : BitVec 8 → BitVec 8) (err : Word → Word)

theorem buildSlot_ignores (n : SlotId) : Ignores (State.overwrite reg cnt err) fun s => buildSlot s n := by
  intro s
  cases hb : buildTable (s.nvalAt n).toNat (s.counts n) (s.symbols n (s.nvalAt n).toNat) with
  | error d =>
    simp only [buildSlot_of_error hb, buildSlot_of_error (s := s.overwrite reg cnt err) hb]
    rfl
  | ok t =>
    simp only [buildSlot_of_ok hb, buildSlot_of_ok (s := s.overwrite reg cnt err) hb]
    rfl

theorem buildLut_ignores (n : SlotId) : Ignores (State.overwrite reg cnt err) fun s => buildLut s n := by
  intro s
  cases hb : (s.slot n).built with
  | false =>
    simp only [buildLut_of_not_built hb, buildLut_of_not_built (s := s.overwrite reg cnt err) hb]
    rfl
  | true =>
    simp only [buildLut_of_built hb, buildLut_of_built (s := s.overwrite reg cnt err) hb]
    rfl

theorem clearPred_overwrite (mask : BitVec 4) (s : State) (c : Comp) :
    clearPred mask (s.overwrite reg cnt err) c = (clearPred mask s c).overwrite reg cnt err := by
  unfold clearPred
  split_ifs <;> rfl

theorem scanrst_ignores (mask : BitVec 4) (cs : List Comp) :
    Ignores (State.overwrite reg cnt err) fun s => .ok (cs.foldl (clearPred mask) s) := fun _ =>
  congrArg Ended.ok (List.foldl_hom (State.overwrite reg cnt err) fun _ _ => clearPred_overwrite reg cnt err mask _ _)

/-- A command on a packer that is not ACTIVE, but for PKRST, ignores the packer's registers (10_state R33). -/
theorem commandPart_overwrite_of_closed {i : Instr} {s : State} (hs : s.pkMode ≠ .active) (hi : i ≠ .pkrst) :
    commandPart i (s.overwrite reg cnt err) = (commandPart i s).map (State.overwrite reg cnt err) := by
  have hs' : (s.overwrite reg cnt err).pkMode ≠ .active := hs
  cases i with
  | ldstd cls idx std => rfl
  | build cls idx => exact buildSlot_ignores reg cnt err _ s
  | bldlut cls idx => exact buildLut_ignores reg cnt err _ s
  | putbits code length =>
    simp only [commandPart, putbitsCommand, whenActive, if_neg hs, if_neg hs']
    rfl
  | flush =>
    simp only [commandPart, flushCommand, whenActive, if_neg hs, if_neg hs']
    rfl
  | pkrst => exact absurd rfl hi
  | encblk comp dcidx acidx =>
    have hbuilt : ∀ n, (s.overwrite reg cnt err).slot n = s.slot n := fun _ => rfl
    simp only [commandPart, encblkCommand, whenBuilt, whenActive, if_neg hs, if_neg hs', hbuilt]
    split_ifs <;> rfl
  | scanrst mask => exact scanrst_ignores reg cnt err mask _ s

end

/-! ## The packer and the encoder ignore ERRSTAT -/

/-- The state with another ERRSTAT. -/
abbrev State.withErrstat (x : Word) : State → State := State.overwrite id id fun _ => x

variable {x : Word}

theorem sinkWrite_ignores_errstat (b : Byte) : Ignores (State.withErrstat x) (sinkWrite b) := by
  intro s
  rw [sinkWrite_eq, sinkWrite_eq, show (State.withErrstat x s).sinkAnswers = s.sinkAnswers from rfl]
  split_ifs <;> rfl

theorem emitByte_ignores_errstat (b : Byte) : Ignores (State.withErrstat x) (emitByte b) :=
  (sinkWrite_ignores_errstat b).andThen
    (.ite (p := fun _ => b = 0xFF) (fun _ => Iff.rfl) (sinkWrite_ignores_errstat _) (.ok _))

theorem drain_ignores_errstat : ∀ n, Ignores (State.withErrstat x) (drain n)
  | 0 => .ok _
  | n + 1 => Ignores.andThen (f := fun s => emitByte s.topByte { s with pkReg := s.pkReg <<< 8, pkCnt := s.pkCnt - 8 })
      (fun s => emitByte_ignores_errstat s.topByte { s with pkReg := s.pkReg <<< 8, pkCnt := s.pkCnt - 8 })
      (drain_ignores_errstat n)

theorem putBits_ignores_errstat (code : BitVec 16) (length : Nat) :
    Ignores (State.withErrstat x) (putBits code length) :=
  .ite (p := fun _ => length = 0) (fun _ => Iff.rfl) (.ok _) fun s =>
    drain_ignores_errstat ((s.pkCnt.toNat + length) / 8) { s with
      pkReg := s.pkReg ||| (BitVec.ofNat 32 (code.toNat &&& (2 ^ length - 1)) <<< (32 - (s.pkCnt.toNat + length)))
      pkCnt := BitVec.ofNat 8 (s.pkCnt.toNat + length) }

theorem bodyFault_ignores_errstat (c : Cause) : Ignores (State.withErrstat x) (bodyFault c) := fun _ => rfl

theorem emitSym_ignores_errstat (n : SlotId) (sym : Nat) : Ignores (State.withErrstat x) (emitSym n sym) := by
  intro s
  unfold emitSym
  rw [show (State.withErrstat x s).enc n sym = s.enc n sym from rfl]
  cases s.enc n sym with
  | none => exact bodyFault_ignores_errstat _ s
  | some e => exact putBits_ignores_errstat e.1 e.2.toNat s

theorem emitMagnitude_ignores_errstat (v : Int) (c : Nat) : Ignores (State.withErrstat x) (emitMagnitude v c) :=
  putBits_ignores_errstat _ _

theorem emitZrls_ignores_errstat (a : SlotId) : ∀ n, Ignores (State.withErrstat x) (emitZrls a n)
  | 0 => .ok _
  | n + 1 => (emitSym_ignores_errstat a zrlSymbol).andThen (emitZrls_ignores_errstat a n)

theorem emitCoef_ignores_errstat (a : SlotId) (k run : Nat) (v : Int) :
    Ignores (State.withErrstat x) (emitCoef a k run v) :=
  (emitZrls_ignores_errstat a (run / 16)).andThen
    (.ite (p := fun _ => cat v > 15) (fun _ => Iff.rfl) (bodyFault_ignores_errstat _)
      ((emitSym_ignores_errstat a _).andThen (emitMagnitude_ignores_errstat v _)))

theorem endOfBlock_ignores_errstat (a : SlotId) (run : Nat) : Ignores (State.withErrstat x) (endOfBlock a run) :=
  .ite (p := fun _ => run > 0) (fun _ => Iff.rfl) (emitSym_ignores_errstat a _) (.ok _)

theorem acPass_ignores_errstat (a : SlotId) (ks : List Nat) :
    ∀ run, Ignores (State.withErrstat x) (acPass a ks run) := by
  induction ks with
  | nil => exact endOfBlock_ignores_errstat a
  | cons k ks ih =>
    intro run s
    simp only [acPass, show (State.withErrstat x s).coefAt (zigzagAt k) = s.coefAt (zigzagAt k) from rfl]
    by_cases h : (s.coefAt (zigzagAt k)).toInt = 0
    · rw [if_pos h, if_pos h]
      exact ih (run + 1) s
    · rw [if_neg h, if_neg h]
      exact (emitCoef_ignores_errstat a k run _).andThen (ih 0) s

theorem dcPass_ignores_errstat (comp : Comp) (d : SlotId) : Ignores (State.withErrstat x) (dcPass comp d) := fun s =>
  (emitSym_ignores_errstat d (cat (s.diff comp))).andThen (emitMagnitude_ignores_errstat (s.diff comp) _)
    (s.setPred comp ((s.coefAt 0).signExtend 32))

/-- An admission check, and the part behind it, ignore ERRSTAT. -/
theorem whenActive_ignores_errstat {f : State → Ended} (hf : Ignores (State.withErrstat x) f) :
    Ignores (State.withErrstat x) fun s => whenActive s (f s) :=
  .ite (p := fun s => s.pkMode = .active) (fun _ => Iff.rfl) hf fun _ => rfl

theorem whenBuilt_ignores_errstat (n : SlotId) {f : State → Ended} (hf : Ignores (State.withErrstat x) f) :
    Ignores (State.withErrstat x) fun s => whenBuilt n s (f s) :=
  .ite (p := fun s => (s.slot n).built = true) (fun _ => Iff.rfl) hf fun _ => rfl

/-- No command reads ERRSTAT, nor writes it before it ends (10_state R38). -/
theorem commandPart_ignores_errstat (i : Instr) : Ignores (State.withErrstat x) (commandPart i) := by
  cases i with
  | ldstd cls idx std => exact fun _ => rfl
  | build cls idx => exact buildSlot_ignores _ _ _ _
  | bldlut cls idx => exact buildLut_ignores _ _ _ _
  | putbits code length =>
    exact whenActive_ignores_errstat (.ite (p := fun _ => length.toNat > Config.putMax) (fun _ => Iff.rfl)
      (fun _ => rfl) (putBits_ignores_errstat code _))
  | flush =>
    exact whenActive_ignores_errstat (.andThen (.ite (p := fun s => s.pkCnt = 0) (fun _ => Iff.rfl) (.ok _)
      fun s => emitByte_ignores_errstat s.topByte s) fun _ => rfl)
  | pkrst => exact fun _ => rfl
  | encblk comp dcidx acidx =>
    exact whenBuilt_ignores_errstat _ (whenBuilt_ignores_errstat _ (whenActive_ignores_errstat
      ((dcPass_ignores_errstat comp _).andThen (acPass_ignores_errstat _ _ _))))
  | scanrst mask => exact scanrst_ignores _ _ _ _ _

/-! ## ERRSTAT is sticky -/

/-- Recording an end sets a bit of ERRSTAT or none (60_exceptions R230). -/
theorem Ended.getLsbD_errstat_close {e : Ended} {i : Nat} (h : e.state.errstat.getLsbD i = true) :
    e.close.errstat.getLsbD i = true := by
  cases e with
  | ok s => exact h
  | raised c s =>
    rw [Ended.close, (s.endedWith_takeFault c).2]
    exact Bool.or_eq_true_iff.2 (.inl h)

/-- Recording an end with another ERRSTAT changes nothing but ERRSTAT. -/
theorem Ended.close_map_withErrstat (e : Ended) :
    (e.map (State.withErrstat x)).close = { e.close with errstat := (e.map (State.withErrstat x)).close.errstat } := by
  cases e <;> rfl

/-- Settles O56: the end of a command only sets a bit, no host access writes ERRSTAT, and every command ignores it. -/
theorem errstatIsStickyAndUnread : Obligations.ErrstatIsStickyAndUnread := by
  refine ⟨fun s t i hstep hs ht => ?_, fun i s x => ?_⟩
  · have hnt : ¬ t.errstat.getLsbD i = true := by simp [ht]
    cases step_cases hstep with
    | idle hh => exact absurd hs hnt
    | command w rest j hh hd =>
      exact absurd (Ended.getLsbD_errstat_close (by rw [commandPart_errstat]; exact hs)) hnt
    | illegal w rest hh =>
      exact absurd (Ended.getLsbD_errstat_close (e := .raised (.illegalCommand w) { s with host := rest }) hs) hnt
    | write addr data rest e hh he =>
      rw [hostWrite_frame] at hnt
      exact absurd hs hnt
    | read addr rest e hh he => exact absurd hs hnt
    | reset rest hh => exact .inl ⟨rest, hh⟩
    | resetDuring w taken rest hh => exact .inr ⟨w, taken, rest, hh⟩
  · refine ⟨_, ((commandPart i s).map (State.withErrstat x)).close.errstat, exec_eq_finish i s, ?_⟩
    rw [exec_eq_finish, finish, ← Ended.close_map_withErrstat (x := x), ← commandPart_ignores_errstat i s]
    rfl

/-! ## The registers of a FAILED packer -/

/-- Recording an end with other packer registers changes nothing but these. -/
theorem Ended.close_map_registers (e : Ended) (r : Word) (c : BitVec 8) :
    (e.map (State.overwrite (fun _ => r) (fun _ => c) id)).close = { e.close with pkReg := r, pkCnt := c } := by
  cases e <;> rfl

/-- Settles O60: PKRST overwrites the registers, every other command on a FAILED packer ignores them. -/
theorem failedPackerRegistersAreUnread : Obligations.FailedPackerRegistersAreUnread := by
  intro i s r c hs
  by_cases hi : i = .pkrst
  · subst hi
    exact ⟨_, 0, 0, rfl, rfl⟩
  · refine ⟨_, r, c, exec_eq_finish i s, ?_⟩
    have hp := commandPart_overwrite_of_closed (fun _ => r) (fun _ => c) id (s := s) (by simp [hs]) hi
    rw [exec_eq_finish, finish, ← Ended.close_map_registers, ← hp]
    rfl

end Sys2Proof.Machine
end

section
/-! The host port over a whole step (spec/20_memory.md rules R51 to R57 and R59): the address map from elements to addresses,
what a host write and a host read do, and the output stream, which every step keeps or lengthens. -/

namespace Sys2Proof.Machine

/-! ## The address map, from elements to addresses -/

/-- The 0x400 addresses from a slot's base on are the slot's (20_memory R51). -/
theorem ofAddr_slotBase_add (n : SlotId) {o : Nat} (ho : o < 0x400) :
    Element.ofAddr (slotBase n + o) = slotElement n o := by
  unfold Element.ofAddr
  match n with
  | 0 => simp (disch := omega) only [show slotBase 0 = 0x1000 from rfl, if_pos, if_neg, Nat.add_sub_cancel_left]
  | 1 => simp (disch := omega) only [show slotBase 1 = 0x1400 from rfl, if_pos, if_neg, Nat.add_sub_cancel_left]
  | 2 => simp (disch := omega) only [show slotBase 2 = 0x1800 from rfl, if_pos, if_neg, Nat.add_sub_cancel_left]
  | 3 => simp (disch := omega) only [show slotBase 3 = 0x1C00 from rfl, if_pos, if_neg, Nat.add_sub_cancel_left]

section
variable (n : SlotId)

theorem slotElement_bits {i : Nat} (h : i < 16) : slotElement n i = some (.bits n i) := if_pos h

theorem slotElement_nval : slotElement n 0x010 = some (.nval n) := rfl

theorem slotElement_lutMin {L : Nat} (h1 : 1 ≤ L) (h16 : L ≤ 16) :
    slotElement n (0x020 + (L - 1)) = some (.lutMin n L) := by
  simp (disch := omega) only [slotElement, if_pos, if_neg, Nat.add_sub_cancel_left, Nat.sub_add_cancel]

theorem slotElement_lutMax {L : Nat} (h1 : 1 ≤ L) (h16 : L ≤ 16) :
    slotElement n (0x030 + (L - 1)) = some (.lutMax n L) := by
  simp (disch := omega) only [slotElement, if_pos, if_neg, Nat.add_sub_cancel_left, Nat.sub_add_cancel]

theorem slotElement_lutPtr {L : Nat} (h1 : 1 ≤ L) (h16 : L ≤ 16) :
    slotElement n (0x040 + (L - 1)) = some (.lutPtr n L) := by
  simp (disch := omega) only [slotElement, if_pos, if_neg, Nat.add_sub_cancel_left, Nat.sub_add_cancel]

theorem slotElement_val {k : Nat} (h : k < 256) : slotElement n (0x100 + k) = some (.val n k) := by
  simp (disch := omega) only [slotElement, if_pos, if_neg, Nat.add_sub_cancel_left]

theorem slotElement_code {k : Nat} (h : k < 256) : slotElement n (0x200 + k) = some (.code n k) := by
  simp (disch := omega) only [slotElement, if_pos, if_neg, Nat.add_sub_cancel_left]

theorem slotElement_len {k : Nat} (h : k < 256) : slotElement n (0x300 + k) = some (.len n k) := by
  simp (disch := omega) only [slotElement, if_pos, if_neg, Nat.add_sub_cancel_left]

end

theorem ofAddr_coef {i : Nat} (h : i < 64) : Element.ofAddr (0x40 + i) = some (.coef i) := by
  simp (disch := omega) only [Element.ofAddr, if_pos, if_neg, Nat.add_sub_cancel_left]

theorem ofAddr_zigzag {k : Nat} (h : k < 64) : Element.ofAddr (0x80 + k) = some (.zigzag k) := by
  simp (disch := omega) only [Element.ofAddr, if_pos, if_neg, Nat.add_sub_cancel_left]

/-- The map names every element of the spec at its own address (20_memory R51). -/
theorem ofAddr_addr {e : Element} (h : e.InRange) : Element.ofAddr e.addr = some e := by
  have hslot : ∀ {n : SlotId} {o : Nat}, o < 0x400 → slotElement n o = some e → e.addr = slotBase n + o →
      Element.ofAddr e.addr = some e := fun ho hn ha => by rw [ha, ofAddr_slotBase_add _ ho, hn]
  have hlt : ∀ {base k : Nat}, k < 256 → base ≤ 0x300 → base + k < 0x400 := by omega
  cases e with
  | csr n => exact if_pos h
  | coef i => exact ofAddr_coef h
  | zigzag k => exact ofAddr_zigzag h
  | bits n i => exact hslot (Nat.lt_of_lt_of_le h (by decide)) (slotElement_bits n h) rfl
  | nval n => exact hslot (by decide) (slotElement_nval n) rfl
  | lutMin n L => exact hslot (by have := h.2; omega) (slotElement_lutMin n h.1 h.2) (Nat.add_assoc _ _ _)
  | lutMax n L => exact hslot (by have := h.2; omega) (slotElement_lutMax n h.1 h.2) (Nat.add_assoc _ _ _)
  | lutPtr n L => exact hslot (by have := h.2; omega) (slotElement_lutPtr n h.1 h.2) (Nat.add_assoc _ _ _)
  | val n k => exact hslot (hlt h (by decide)) (slotElement_val n h) (Nat.add_assoc _ _ _)
  | code n k => exact hslot (hlt h (by decide)) (slotElement_code n h) (Nat.add_assoc _ _ _)
  | len n k => exact hslot (hlt h (by decide)) (slotElement_len n h) (Nat.add_assoc _ _ _)

/-- Settles O49: the map names elements in range at their own addresses, and names every one of these; the ranges spelled
out are read off that. -/
theorem addressMapIsExact : Obligations.AddressMapIsExact := by
  refine ⟨fun a e => ⟨fun h => ⟨ofAddr_inRange h, addr_of_ofAddr h⟩, ?_⟩, fun i hi => ofAddr_addr (e := .csr i) hi,
    fun i hi => ⟨ofAddr_coef hi, ofAddr_zigzag hi⟩, fun n => ⟨ofAddr_addr (e := .nval n) trivial,
      fun i hi => ofAddr_addr (e := .bits n i) hi, fun L h1 h16 => ?_, fun k hk => ?_⟩⟩
  · rintro ⟨hin, rfl⟩
    exact ofAddr_addr hin
  · exact ⟨ofAddr_addr (e := .lutMin n L) ⟨h1, h16⟩, ofAddr_addr (e := .lutMax n L) ⟨h1, h16⟩,
      ofAddr_addr (e := .lutPtr n L) ⟨h1, h16⟩⟩
  · exact ⟨ofAddr_addr (e := .val n k) hk, ofAddr_addr (e := .code n k) hk, ofAddr_addr (e := .len n k) hk⟩

/-! ## Steps of the host port -/

/-- The state after a host write to an element, the host's actions `rest` to come (20_memory R55). -/
def State.afterWrite (s : State) (rest : List HostAction) (e : Element) (data : Word) : State :=
  { State.hostWrite { s with host := rest } e data with draws := s.draws + 1 }

/-- The state after a host read of an element, the host's actions `rest` to come (20_memory R55). -/
def State.afterRead (s : State) (rest : List HostAction) (e : Element) : State :=
  { s with host := rest, hostData := State.hostRead { s with host := rest } e, draws := s.draws + 1 }

theorem step_of_write {s : State} {addr : Nat} {data : Word} {rest : List HostAction} {e : Element}
    (hh : s.host = .write addr data :: rest) (he : Element.ofAddr addr = some e) :
    step s = .next (s.afterWrite rest e data) := by
  rw [step_of_host_cons hh, hostAction_write he]
  rfl

theorem step_of_read {s : State} {addr : Nat} {rest : List HostAction} {e : Element}
    (hh : s.host = .read addr :: rest) (he : Element.ofAddr addr = some e) :
    step s = .next (s.afterRead rest e) := by
  rw [step_of_host_cons hh, hostAction_read he]
  rfl

/-! ## What a host read gives -/

/-- An element whose value, widened, is known shows that value, whatever the free word. -/
theorem Store.read_of_map_find? {w : Nat} {st : Store w} {i : Nat} {widen : BitVec w → Word} {v : Word}
    (h : (Store.find? st i).map widen = some v) (free : Word) : widen (Store.read st i free) = v := by
  obtain ⟨x, hx, rfl⟩ := Option.map_eq_some_iff.1 h
  rw [Store.read_of_find? hx]

/-- A read of an element that holds a value gives it (20_memory R53). -/
theorem hostRead_of_cell {s : State} {e : Element} {v : Word} (h : s.cell e = some v) : s.hostRead e = v := by
  cases e with
  | csr n => cases h
  | zigzag k => cases h
  | coef i => exact Store.read_of_map_find? h _
  | bits n i => exact Store.read_of_map_find? h _
  | nval n => exact Store.read_of_map_find? h _
  | val n k => exact Store.read_of_map_find? h _
  | code n k => exact Store.read_of_map_find? h _
  | len n k => exact Store.read_of_map_find? h _
  | lutMin n L => exact Store.read_of_find? h _
  | lutMax n L => exact Store.read_of_find? h _
  | lutPtr n L => exact Store.read_of_find? h _

theorem afterRead_hostData_of_cell {s : State} {e : Element} {v : Word} (h : s.cell e = some v)
    (rest : List HostAction) : (s.afterRead rest e).hostData = v :=
  hostRead_of_cell (s := { s with host := rest }) ((State.cell_congr (fun _ => rfl) rfl e).trans h)

/-- The registers that show something are those of numbers 0 to 4 and 8 to 11 (10_state R39). -/
theorem State.csr_reserved (s : State) {n : Nat} (h : n = 5 ∨ n = 6 ∨ n = 7 ∨ 12 ≤ n) : s.csr n = 0 := by
  obtain rfl | rfl | rfl | h12 := h
  · rfl
  · rfl
  · rfl
  · obtain ⟨k, rfl⟩ := Nat.exists_eq_add_of_le' h12
    rfl

/-- A predictor's register has the number 8 and its component's (10_state R39). -/
theorem State.csr_pred (s : State) (c : Comp) : s.csr (8 + c.val) = s.pred c := by
  fin_cases c <;> rfl

/-- Settles O47: the step is a read, which changes the host's side and the draw number only; an element that holds a value
gives it, a register what its number names. -/
theorem hostReadsHaveNoSideEffect : Obligations.HostReadsHaveNoSideEffect := by
  intro s a e rest hh he
  refine ⟨s.afterRead rest e, step_of_read hh he, rfl, fun v hv => afterRead_hostData_of_cell hv rest, ?_, ?_, ?_, ?_, ?_,
    ?_, ?_, ?_⟩
  · rintro rfl; rfl
  · rintro rfl; rfl
  · rintro rfl; rfl
  · rintro rfl; rfl
  · rintro rfl; rfl
  · rintro c rfl
    exact State.csr_pred _ c
  · rintro n hn rfl
    exact State.csr_reserved _ hn
  · rintro k rfl
    rfl

/-! ## What a host write does -/

/-- Settles O48: an element of no spec and not of COEF is one the host cannot write. -/
theorem readOnlyWritesHaveNoEffect : Obligations.ReadOnlyWritesHaveNoEffect := by
  intro s a e data rest hh he hspec hcoef
  have hw : ¬ e.HostWritable := by
    rintro (⟨n, hn⟩ | ⟨i, hi⟩)
    · exact absurd hn (by simp [hspec n])
    · exact hcoef i hi
  refine ⟨s.afterWrite rest e data, step_of_write hh he, ?_⟩
  rw [State.afterWrite, hostWrite_of_not_writable hw]

section
variable (s : State) (rest : List HostAction) (e : Element) (data : Word)

/-- A host write changes no element but the one it names (20_memory R54). -/
theorem cell_afterWrite_of_ne {e' : Element} (h : e' ≠ e) : (s.afterWrite rest e data).cell e' = s.cell e' :=
  calc (s.afterWrite rest e data).cell e'
      _ = (State.hostWrite { s with host := rest } e data).cell e' := State.cell_congr (fun _ => rfl) rfl e'
      _ = State.cell { s with host := rest } e' := cell_hostWrite_of_ne h _ data
      _ = s.cell e' := State.cell_congr (fun _ => rfl) rfl e'

@[simp] theorem afterWrite_host : (s.afterWrite rest e data).host = rest := by
  rw [State.afterWrite, hostWrite_frame]

/-- A host write changes no register, no byte of the stream and not the host's last read word (20_memory R55). -/
theorem afterWrite_frame :
    SamePredsBut (fun _ => False) s (s.afterWrite rest e data) ∧ SamePacker s (s.afterWrite rest e data) ∧
      SameSink s (s.afterWrite rest e data) ∧ (s.afterWrite rest e data).lasterr = s.lasterr ∧
      (s.afterWrite rest e data).errstat = s.errstat ∧ (s.afterWrite rest e data).hostData = s.hostData ∧
      (s.afterWrite rest e data).host = rest := by
  rw [State.afterWrite, hostWrite_frame]
  exact ⟨fun _ _ => rfl, ⟨rfl, rfl, rfl⟩, ⟨rfl, rfl⟩, rfl, rfl, rfl, rfl⟩

end

/-- A host write to an element of a spec replaces its slot by some slot and clears the flags (20_memory R55). -/
theorem hostWrite_of_inSpec {n : SlotId} {e : Element} (h : e.inSpec n = true) (s : State) (w : Word) :
    ∃ x, s.hostWrite e w = (s.setSlot n x).unbuild n := by
  cases e with
  | bits m i =>
    obtain rfl : m = n := of_decide_eq_true h
    exact ⟨_, rfl⟩
  | nval m =>
    obtain rfl : m = n := of_decide_eq_true h
    exact ⟨_, rfl⟩
  | val m k =>
    obtain rfl : m = n := of_decide_eq_true h
    exact ⟨_, rfl⟩
  | _ => cases h

/-- The slots after a host write to an element of a spec (20_memory R55). -/
theorem slot_afterWrite_of_inSpec {n : SlotId} {e : Element} (h : e.inSpec n = true) (s : State)
    (rest : List HostAction) (data : Word) : ∃ x : Slot, ∀ m,
      (s.afterWrite rest e data).slot m = if m = n then { x with built := false, lutv := false } else s.slot m := by
  obtain ⟨x, hx⟩ := hostWrite_of_inSpec h { s with host := rest } data
  exact ⟨x, fun m => by rw [State.afterWrite, hx]; exact State.slot_setSlot_unbuild _ n m x⟩

/-- Settles O46: the write replaces the slot by one whose flags are cleared, and changes no other element and no register. -/
theorem specWritesUnbuildTheSlot : Obligations.SpecWritesUnbuildTheSlot := by
  intro s n e data rest hh he hspec
  obtain ⟨x, hx⟩ := slot_afterWrite_of_inSpec hspec s rest data
  refine ⟨s.afterWrite rest e data, step_of_write hh he, by rw [hx, if_pos rfl], by rw [hx, if_pos rfl],
    fun e' hne => cell_afterWrite_of_ne s rest e data hne, fun m hm => ?_, afterWrite_frame s rest e data⟩
  rw [hx, if_neg hm]
  exact ⟨rfl, rfl⟩

/-! ## Reading back what was written -/

section
variable (s : State) (w : Word)

theorem cell_hostWrite_coef (i : Nat) :
    (s.hostWrite (.coef i) w).cell (.coef i) = some ((w.extractLsb' 0 16).signExtend 32) := by
  simp only [State.hostWrite, State.cell, Store.find?_put, if_true]
  rfl

theorem cell_hostWrite_bits (n : SlotId) (i : Nat) :
    (s.hostWrite (.bits n i) w).cell (.bits n i) = some ((w.extractLsb' 0 8).setWidth 32) := by
  simp only [State.hostWrite, State.cell, State.slot_setSlot_unbuild, Store.find?_put, if_true]
  rfl

theorem cell_hostWrite_nval (n : SlotId) :
    (s.hostWrite (.nval n) w).cell (.nval n) = some ((w.extractLsb' 0 16).setWidth 32) := by
  simp only [State.hostWrite, State.cell, State.slot_setSlot_unbuild, Store.find?_put, if_true]
  rfl

theorem cell_hostWrite_val (n : SlotId) (k : Nat) :
    (s.hostWrite (.val n k) w).cell (.val n k) = some ((w.extractLsb' 0 16).setWidth 32) := by
  simp only [State.hostWrite, State.cell, State.slot_setSlot_unbuild, Store.find?_put, if_true]
  rfl

end

/-- A host read right after a host write to the same element gives the word the written element holds (20_memory R53). -/
theorem afterRead_afterWrite_hostData {s : State} {e : Element} {data v : Word} (rest rest' : List HostAction)
    (h : (State.hostWrite { s with host := rest } e data).cell e = some v) :
    ((s.afterWrite rest e data).afterRead rest' e).hostData = v :=
  afterRead_hostData_of_cell (s := s.afterWrite rest e data) ((State.cell_congr (fun _ => rfl) rfl e).trans h) rest'

/-- Settles O45: the written element holds the word cut to its width, and a read gives what an element holds; a write to COEF
leaves the slots alone. -/
theorem hostReadsBackItsWrites : Obligations.HostReadsBackItsWrites := by
  intro s e data rest hh he
  refine ⟨s.afterWrite (.read e.addr :: rest) e data, (s.afterWrite (.read e.addr :: rest) e data).afterRead rest e,
    step_of_write hh he, step_of_read (afterWrite_host _ _ _ _) he, ?_, ?_, ?_, ?_, ?_⟩
  · rintro ⟨i, rfl⟩
    exact ⟨fun e' hne => cell_afterWrite_of_ne s _ _ data hne, fun _ _ => ⟨rfl, rfl⟩,
      afterWrite_frame s _ _ data⟩
  · rintro ⟨i, rfl⟩
    exact afterRead_afterWrite_hostData _ rest (cell_hostWrite_coef _ data i)
  · rintro ⟨n, i, rfl⟩
    exact afterRead_afterWrite_hostData _ rest (cell_hostWrite_bits _ data n i)
  · rintro ⟨n, rfl⟩
    exact afterRead_afterWrite_hostData _ rest (cell_hostWrite_nval _ data n)
  · rintro ⟨n, k, rfl⟩
    exact afterRead_afterWrite_hostData _ rest (cell_hostWrite_val _ data n k)

/-! ## The output stream only grows -/

/-- A packer part only adds bytes to the stream, ended either way (20_memory R57, R59). -/
theorem PackerPart.stream_prefix {s : State} {e : Ended} (h : PackerPart s e) : s.stream <+: e.state.stream := by
  cases h with
  | ok t _ _ bytes =>
    obtain ⟨data, hs⟩ := bytes
    exact ⟨stuffed data, hs.symm⟩
  | raised c t _ _ _ _ _ bytes =>
    obtain ⟨data, hs | ⟨-, hs⟩⟩ := bytes
    · exact ⟨stuffed data, hs.symm⟩
    · exact ⟨stuffed data ++ [0xFF], by rw [Ended.state_raised, hs, List.append_assoc]⟩

/-- Closing the packer after a part that went well writes nothing. -/
theorem stream_andThen_closePacker (e : Ended) :
    (e.andThen fun t => .ok t.closePacker).state.stream = e.state.stream := by
  cases e <;> rfl

/-- A command only adds bytes to the stream (20_memory R57, R59). -/
theorem commandPart_stream_prefix (i : Instr) (s : State) : s.stream <+: (commandPart i s).state.stream := by
  have hsame : ∀ {t : State}, t.stream = s.stream → s.stream <+: t.stream := fun h => by rw [h]
  cases i with
  | ldstd cls idx std => exact hsame rfl
  | build cls idx => exact hsame (by rw [commandPart, buildSlot_frame])
  | bldlut cls idx => exact hsame (by rw [commandPart, buildLut_frame])
  | putbits code length =>
    obtain ⟨-, h⟩ | ⟨-, -, h⟩ | ⟨-, -, h⟩ := putbitsCommand_cases code length s <;> rw [commandPart, h]
    · exact hsame rfl
    · exact hsame rfl
    · exact (putBits_part code length.toNat s).stream_prefix
  | flush =>
    obtain ⟨-, h⟩ | ⟨-, -, h⟩ | ⟨-, -, h⟩ := flushCommand_cases s <;> rw [commandPart, h]
    · exact hsame rfl
    · exact hsame rfl
    · rw [stream_andThen_closePacker]
      exact (emitByte_part s.topByte s).stream_prefix
  | pkrst => exact hsame rfl
  | encblk comp dcidx acidx =>
    obtain ⟨-, h⟩ | ⟨-, -, h⟩ | ⟨-, -, -, h⟩ | ⟨-, -, -, h⟩ :=
      encblkCommand_cases comp (slotOf .dc dcidx) (slotOf .ac acidx) s <;> rw [commandPart, h]
    · exact hsame rfl
    · exact hsame rfl
    · exact hsame rfl
    · exact (encblkBody_part comp (slotOf .dc dcidx) (slotOf .ac acidx) s).stream_prefix
  | scanrst mask => exact hsame (by rw [commandPart, Ended.state_ok, foldl_clearPred_frame])

@[simp] theorem Ended.stream_close (e : Ended) : e.close.stream = e.state.stream := by
  cases e <;> rfl

/-- A step only adds bytes to the stream, those of a command or of one that a hardware reset cut short (20_memory R57, R59,
70_reset R260). -/
theorem step_stream_prefix {s t : State} (h : step s = .next t) : s.stream <+: t.stream := by
  cases step_cases h with
  | idle hh => exact List.prefix_rfl
  | command w rest i hh hd =>
    rw [Ended.stream_close]
    exact commandPart_stream_prefix i { s with host := rest }
  | illegal w rest hh => exact List.prefix_rfl
  | write addr data rest e hh he => rw [hostWrite_frame]
  | read addr rest e hh he => exact List.prefix_rfl
  | reset rest hh => exact List.prefix_rfl
  | resetDuring w taken rest hh => exact List.prefix_append _ _

/-- Settles O55: a command's bytes join the end of the stream, so do the first of them that a hardware reset in its middle
lets stand, and nothing else of a step writes to it. -/
theorem theStreamOnlyGrows : Obligations.TheStreamOnlyGrows := by
  intro s t h
  obtain ⟨bytes, hb⟩ := step_stream_prefix h
  exact ⟨bytes, hb.symm⟩

end Sys2Proof.Machine
end

section
/-! Command words and the opcode map (spec/30_encoding.md rules R70 to R79): a word decodes exactly when it matches a row of
the map, to the command that row reads from the word's fields, and the fields of a command's word are the command's. -/

namespace Sys2Proof

/-! ## The fixed bits of a word -/

/-- Where a mask is all ones, a word that matches has the value's bits. -/
theorem extractLsb'_eq_of_and_eq {w m v : Word} {lo n : Nat} (h : w &&& m = v)
    (hm : m.extractLsb' lo n = BitVec.allOnes n) : w.extractLsb' lo n = v.extractLsb' lo n := by
  rw [← h, BitVec.extractLsb'_and, hm, BitVec.and_allOnes]

/-- The opcode and the 28 bits of the format, side by side (30_encoding R70). -/
theorem opcode_append_fields (w : Word) : w.extractLsb' 28 4 ++ w.extractLsb' 0 28 = w :=
  (BitVec.extractLsb'_append_extractLsb'_eq_extractLsb' (start₁ := 0) (len₁ := 28) rfl).trans BitVec.extractLsb'_eq_self

theorem and_opcodeBits (w : Word) : w &&& 0xF0000000 = w.extractLsb' 28 4 ++ 0#28 := by
  have hmask : (0xF0000000 : Word) = BitVec.allOnes 4 ++ 0#28 := by decide
  calc w &&& 0xF0000000
      = (w.extractLsb' 28 4 ++ w.extractLsb' 0 28) &&& (BitVec.allOnes 4 ++ 0#28) := by
        rw [opcode_append_fields, hmask]
    _ = w.extractLsb' 28 4 ++ 0#28 := by rw [BitVec.and_append, BitVec.and_allOnes, BitVec.and_zero]

/-! ## The rows of the opcode map -/

/-- The row of opcode `n + 1` (30_encoding R76). -/
def rowAt (n : Fin 8) : OpcodeRow := opcodeRows.get n

/-- The reserved bits of the row's format (30_encoding R71 to R75). -/
def reservedAt (n : Fin 8) : Word := (rowAt n).mask &&& 0x0FFFFFFF

theorem rowAt_mask : ∀ n, (rowAt n).mask = 0xF0000000 ||| reservedAt n := by decide

theorem rowAt_value : ∀ n, (rowAt n).value = BitVec.ofNat 4 (n + 1) ++ 0#28 := by decide

theorem mem_opcodeRows_iff {r : OpcodeRow} : r ∈ opcodeRows ↔ ∃ n, rowAt n = r := List.mem_iff_get

theorem wellFormedWord_iff {w : Word} :
    wellFormedWord w = true ↔ ∃ n, w &&& (rowAt n).mask = (rowAt n).value := by
  simp only [wellFormedWord, List.any_eq_true, OpcodeRow.matches, decide_eq_true_eq, mem_opcodeRows_iff]
  exact ⟨fun ⟨_, ⟨n, hn⟩, h⟩ => ⟨n, hn ▸ h⟩, fun ⟨n, h⟩ => ⟨_, ⟨n, rfl⟩, h⟩⟩

/-- A word matches a row exactly when it has the row's opcode and no reserved bit of its format set (30_encoding R76, R77). -/
theorem matches_rowAt_iff {w : Word} {n : Fin 8} :
    w &&& (rowAt n).mask = (rowAt n).value ↔ (w.extractLsb' 28 4).toNat = n + 1 ∧ w &&& reservedAt n = 0 := by
  have hopc : ∀ n : Fin 8, (BitVec.ofNat 4 (n + 1)).toNat = n + 1 := by decide
  constructor
  · intro h
    have hones : ∀ n, (rowAt n).mask.extractLsb' 28 4 = BitVec.allOnes 4 := by decide
    have hres : ∀ n, (rowAt n).mask &&& reservedAt n = reservedAt n := by decide
    have hzero : ∀ n, (rowAt n).value &&& reservedAt n = 0 := by decide
    refine ⟨?_, ?_⟩
    · rw [extractLsb'_eq_of_and_eq h (hones n), rowAt_value, BitVec.extractLsb'_append_eq_left, hopc]
    · rw [← hres, ← BitVec.and_assoc, h, hzero]
  · rintro ⟨hw, hr⟩
    rw [rowAt_mask, rowAt_value, BitVec.and_or_distrib_left, hr, and_opcodeBits,
      BitVec.eq_of_toNat_eq (hw.trans (hopc n).symm)]
    exact BitVec.or_zero

/-- A word matches at most one row. -/
theorem rowAt_unique {w : Word} {m n : Fin 8} (hm : w &&& (rowAt m).mask = (rowAt m).value)
    (hn : w &&& (rowAt n).mask = (rowAt n).value) : m = n := by
  have hopcM := (matches_rowAt_iff.1 hm).1
  have hopcN := (matches_rowAt_iff.1 hn).1
  omega

/-! ## Decoding is reading a row -/

/-- The command the row of opcode `n + 1` reads from a word's fields (30_encoding R71 to R75). -/
def commandAt (w : Word) : Fin 8 → Instr
  | 0 => .ldstd (clsField w) (idxField w 26) (stdField w)
  | 1 => .build (clsField w) (idxField w 26)
  | 2 => .bldlut (clsField w) (idxField w 26)
  | 3 => .putbits (w.extractLsb' 0 16) (w.extractLsb' 16 8)
  | 4 => .flush
  | 5 => .pkrst
  | 6 => .encblk (compField w) (idxField w 25) (idxField w 24)
  | 7 => .scanrst (w.extractLsb' 24 4)

theorem mnemonic_commandAt (w : Word) (n : Fin 8) : (commandAt w n).mnemonic = (rowAt n).mnemonic := by
  fin_cases n <;> rfl

theorem withoutReserved_eq_ok_iff {w reserved : Word} {i j : Instr} :
    withoutReserved w reserved i = .ok j ↔ w &&& reserved = 0 ∧ i = j := by
  unfold withoutReserved
  by_cases h : w &&& reserved = 0
  · rw [if_pos h, Except.ok.injEq, and_iff_right h]
  · rw [if_neg h]
    exact iff_of_false nofun fun hr => h hr.1

/-- At a row's opcode the decoder checks the row's reserved bits and reads the row's fields. -/
theorem decode_of_opcode {w : Word} {n : Fin 8} (h : (w.extractLsb' 28 4).toNat = n + 1) :
    decode w = withoutReserved w (reservedAt n) (commandAt w n) := by
  fin_cases n <;> simp only [decode, h] <;> rfl

/-- At opcode 0 and from 9 on there is no command (30_encoding R77). -/
theorem decode_of_unknownOpcode {w : Word} (h : (w.extractLsb' 28 4).toNat = 0 ∨ 9 ≤ (w.extractLsb' 28 4).toNat) :
    decode w = .error (.unknownOpcode (w.extractLsb' 28 4)) := by
  unfold decode
  split
  case h_9 => rfl
  all_goals omega

/-- A word decodes exactly to the command of a row it matches (30_encoding R76, R77). -/
theorem decode_eq_ok_iff {w : Word} {i : Instr} :
    decode w = .ok i ↔ ∃ n, w &&& (rowAt n).mask = (rowAt n).value ∧ commandAt w n = i := by
  constructor
  · intro h
    by_cases hopc : (w.extractLsb' 28 4).toNat = 0 ∨ 9 ≤ (w.extractLsb' 28 4).toNat
    · rw [decode_of_unknownOpcode hopc] at h
      cases h
    · obtain ⟨n, hn⟩ : ∃ n : Fin 8, (w.extractLsb' 28 4).toNat = n + 1 :=
        ⟨⟨(w.extractLsb' 28 4).toNat - 1, by omega⟩, by simp only; omega⟩
      rw [decode_of_opcode hn, withoutReserved_eq_ok_iff] at h
      exact ⟨n, matches_rowAt_iff.2 ⟨hn, h.1⟩, h.2⟩
  · rintro ⟨n, hm, rfl⟩
    obtain ⟨hn, hr⟩ := matches_rowAt_iff.1 hm
    rw [decode_of_opcode hn, withoutReserved_eq_ok_iff]
    exact ⟨hr, rfl⟩

theorem exists_decode_iff {w : Word} : (∃ i, decode w = .ok i) ↔ wellFormedWord w = true := by
  simp only [decode_eq_ok_iff, wellFormedWord_iff]
  exact ⟨fun ⟨_, n, hn, _⟩ => ⟨n, hn⟩, fun ⟨n, hn⟩ => ⟨_, n, hn, rfl⟩⟩

/-! ## The word of a command -/

/-- The number of an instruction's row. -/
def Instr.rowIndex : Instr → Fin 8
  | .ldstd _ _ _ => 0
  | .build _ _ => 1
  | .bldlut _ _ => 2
  | .putbits _ _ => 3
  | .flush => 4
  | .pkrst => 5
  | .encblk _ _ _ => 6
  | .scanrst _ => 7

/-- The word of every command is legal: its reserved bits are 0 (30_encoding R76). -/
theorem wellFormedWord_encode (i : Instr) : wellFormedWord (encode i) = true := by
  cases i with
  | ldstd cls idx std => exact Laws.EncodeIsLegal.ldstd cls idx std
  | build cls idx => exact Laws.EncodeIsLegal.build cls idx
  | bldlut cls idx => exact Laws.EncodeIsLegal.bldlut cls idx
  | putbits code length => exact Laws.EncodeIsLegal.putbits code length
  | flush => exact Laws.EncodeIsLegal.flush
  | pkrst => exact Laws.EncodeIsLegal.pkrst
  | encblk comp dcidx acidx => exact Laws.EncodeIsLegal.encblk comp dcidx acidx
  | scanrst mask => exact Laws.EncodeIsLegal.scanrst mask

/-- Every command's word has its row's opcode (30_encoding R76). -/
theorem opcode_encode (i : Instr) : ((encode i).extractLsb' 28 4).toNat = i.rowIndex + 1 := by
  have happ : ∀ (opc : BitVec 4) (fields : BitVec 28), (opc ++ fields).extractLsb' 28 4 = opc :=
    fun _ _ => BitVec.extractLsb'_append_eq_left
  cases i with
  | putbits code length =>
    simp only [encode]
    rw [BitVec.extractLsb'_append_eq_of_le (by omega), BitVec.extractLsb'_append_eq_of_le (by omega)]
    exact congrArg BitVec.toNat (BitVec.extractLsb'_append_eq_left (a := 4#4) (b := 0#4))
  | encblk comp dcidx acidx => revert comp dcidx acidx; decide
  | scanrst mask => revert mask; decide
  | _ => simp only [encode, happ]; rfl

/-- Each field of a command's word is read where it was written (30_encoding R71 to R75). -/
theorem commandAt_encode (i : Instr) : commandAt (encode i) i.rowIndex = i := by
  cases i with
  | ldstd cls idx std => cases cls <;> cases std <;> revert idx <;> decide
  | build cls idx => cases cls <;> revert idx <;> decide
  | bldlut cls idx => cases cls <;> revert idx <;> decide
  | putbits code length =>
    have hcode : (encode (.putbits code length)).extractLsb' 0 16 = code := BitVec.extractLsb'_append_eq_right
    have hlength : (encode (.putbits code length)).extractLsb' 16 8 = length :=
      (BitVec.extractLsb'_append_eq_of_le (Nat.le_refl 16)).trans BitVec.extractLsb'_append_eq_right
    simp only [Instr.rowIndex, commandAt, hcode, hlength]
  | flush => rfl
  | pkrst => rfl
  | encblk comp dcidx acidx => revert comp dcidx acidx; decide
  | scanrst mask => revert mask; decide

/-- Settles O1: the word is legal, its opcode names the command's row, and the row's fields are the command's. -/
theorem decodeOfEncode : Obligations.DecodeOfEncode := by
  intro i
  obtain ⟨n, hn⟩ := wellFormedWord_iff.1 (wellFormedWord_encode i)
  have hrow : n = i.rowIndex := by
    have hopc := (matches_rowAt_iff.1 hn).1
    rw [opcode_encode] at hopc
    omega
  exact decode_eq_ok_iff.2 ⟨n, hn, hrow ▸ commandAt_encode i⟩

/-! ## A command has one word -/

/-- A one-bit field is its bit. -/
theorem extractLsb'_one (w : Word) (n : Nat) : w.extractLsb' n 1 = BitVec.ofBool (w.getLsbD n) := by
  refine BitVec.eq_of_getLsbD_eq fun i hi => ?_
  obtain rfl : i = 0 := by omega
  simp

theorem ofNat_num_clsField (w : Word) : BitVec.ofNat 1 (clsField w).num = w.extractLsb' 27 1 := by
  rw [extractLsb'_one, clsField]
  cases w.getLsbD 27 <;> rfl

theorem ofNat_num_stdField (w : Word) : BitVec.ofNat 1 (stdField w).num = w.extractLsb' 25 1 := by
  rw [extractLsb'_one, stdField]
  cases w.getLsbD 25 <;> rfl

theorem ofNat_val_idxField (w : Word) (n : Nat) : BitVec.ofNat 1 (idxField w n).val = w.extractLsb' n 1 := by
  rw [extractLsb'_one, idxField]
  cases w.getLsbD n <;> rfl

theorem ofNat_val_compField (w : Word) : BitVec.ofNat 2 (compField w).val = w.extractLsb' 26 2 := by
  refine BitVec.eq_of_toNat_eq ?_
  rw [compField, Fin.val_ofNat, BitVec.toNat_ofNat, Nat.mod_mod, Nat.mod_eq_of_lt (BitVec.isLt _)]

/-- A word of format T is its opcode and its fields, bits 24:0 being 0 (30_encoding R71). -/
theorem append_fieldsT {w : Word} {opc : BitVec 4} {std : Nat} (hopc : w.extractLsb' 28 4 = opc)
    (hstd : w.extractLsb' 25 1 = BitVec.ofNat 1 std) (hlow : w.extractLsb' 0 25 = 0#25) :
    opc ++ fieldsT (clsField w) (idxField w 26) std = w := by
  have hfields : fieldsT (clsField w) (idxField w 26) std = w.extractLsb' 0 28 := by
    rw [fieldsT, ofNat_num_clsField, ofNat_val_idxField, ← hstd, ← hlow]
    simp (disch := decide) only [BitVec.extractLsb'_append_extractLsb'_eq_extractLsb']
  rw [hfields, ← hopc, opcode_append_fields]

/-- A word of format Z is its opcode over zeros (30_encoding R73). -/
theorem append_zeros {w : Word} {opc : BitVec 4} (hopc : w.extractLsb' 28 4 = opc)
    (hlow : w.extractLsb' 0 28 = 0#28) : opc ++ 0#28 = w := by
  rw [← hopc, ← hlow, opcode_append_fields]

/-- A word that matches a row is the word of the command the row reads from it: every bit is fixed or in a field
(30_encoding R71 to R76). -/
theorem encode_commandAt {w : Word} {n : Fin 8} (h : w &&& (rowAt n).mask = (rowAt n).value) :
    encode (commandAt w n) = w := by
  have hfixed : ∀ lo len, (rowAt n).mask.extractLsb' lo len = BitVec.allOnes len →
      w.extractLsb' lo len = (rowAt n).value.extractLsb' lo len := fun _ _ => extractLsb'_eq_of_and_eq h
  match n with
  | 0 => exact append_fieldsT (hfixed 28 4 rfl) (ofNat_num_stdField w).symm (hfixed 0 25 rfl)
  | 1 => exact append_fieldsT (hfixed 28 4 rfl) (hfixed 25 1 rfl) (hfixed 0 25 rfl)
  | 2 => exact append_fieldsT (hfixed 28 4 rfl) (hfixed 25 1 rfl) (hfixed 0 25 rfl)
  | 3 =>
    have hopc : w.extractLsb' 28 4 = 4#4 := hfixed 28 4 rfl
    have hreserved : w.extractLsb' 24 4 = 0#4 := hfixed 24 4 rfl
    simp (disch := decide) only [commandAt, encode, ← hopc, ← hreserved,
      BitVec.extractLsb'_append_extractLsb'_eq_extractLsb']
    exact BitVec.extractLsb'_eq_self
  | 4 => exact append_zeros (hfixed 28 4 rfl) (hfixed 0 28 rfl)
  | 5 => exact append_zeros (hfixed 28 4 rfl) (hfixed 0 28 rfl)
  | 6 =>
    have hopc : w.extractLsb' 28 4 = 7#4 := hfixed 28 4 rfl
    have hreserved : w.extractLsb' 0 24 = 0#24 := hfixed 0 24 rfl
    simp (disch := decide) only [commandAt, encode, ofNat_val_compField, ofNat_val_idxField, ← hopc, ← hreserved,
      BitVec.extractLsb'_append_extractLsb'_eq_extractLsb']
    exact BitVec.extractLsb'_eq_self
  | 7 =>
    have hopc : w.extractLsb' 28 4 = 8#4 := hfixed 28 4 rfl
    have hreserved : w.extractLsb' 0 24 = 0#24 := hfixed 0 24 rfl
    simp (disch := decide) only [commandAt, encode, ← hopc, ← hreserved,
      BitVec.extractLsb'_append_extractLsb'_eq_extractLsb']
    exact BitVec.extractLsb'_eq_self

/-- Settles O2: the word matches the row that reads the command from it. -/
theorem encodeOfDecode : Obligations.EncodeOfDecode := by
  intro w i h
  obtain ⟨n, hn, rfl⟩ := decode_eq_ok_iff.1 h
  exact encode_commandAt hn

/-- Settles O3: a row that reads a word's command is a row the word matches, and no word matches two. -/
theorem legalWordsAreTheOpcodeMap : Obligations.LegalWordsAreTheOpcodeMap := by
  refine fun w => ⟨exists_decode_iff, fun i hi r hr => ?_⟩
  obtain ⟨n, hn, rfl⟩ := decode_eq_ok_iff.1 hi
  obtain ⟨m, rfl⟩ := mem_opcodeRows_iff.1 hr
  have hinj : ∀ m n, (rowAt m).mnemonic = (rowAt n).mnemonic → m = n := by decide
  rw [mnemonic_commandAt]
  constructor
  · intro hm
    rw [rowAt_unique hm hn]
  · intro hname
    rw [hinj m n hname]
    exact hn

/-! ## Words written out -/

/-- PUTBITS as a sum: its fields do not overlap (30_encoding R72). -/
theorem encode_putbits (code : BitVec 16) (length : BitVec 8) :
    encode (.putbits code length) = BitVec.ofNat 32 (0x40000000 + length.toNat * 2 ^ 16 + code.toNat) := by
  refine BitVec.eq_of_toNat_eq ?_
  have hcode := code.isLt
  have hlength := length.isLt
  have hhigh : (4#4 ++ 0#4).toNat = 0x40 := rfl
  rw [encode, BitVec.toNat_append, BitVec.toNat_append, hhigh, ← Nat.shiftLeft_add_eq_or_of_lt hcode,
    ← Nat.shiftLeft_add_eq_or_of_lt hlength, Nat.shiftLeft_eq, Nat.shiftLeft_eq, BitVec.toNat_ofNat]
  omega

/-- Settles O4: all but PUTBITS have few enough operands to write out. -/
theorem commandWordFormulas : Obligations.CommandWordFormulas := by
  refine ⟨fun cls idx std => ?_, fun cls idx => ?_, fun cls idx => ?_, encode_putbits, rfl, rfl, ?_, ?_⟩
  · cases cls <;> cases std <;> revert idx <;> decide
  · cases cls <;> revert idx <;> decide
  · cases cls <;> revert idx <;> decide
  · decide
  · decide

/-- Settles O5: one word for each row, decoded. -/
theorem specWordsDecode : Obligations.SpecWordsDecode := ⟨rfl, rfl, rfl, rfl, rfl, rfl, rfl, rfl⟩

end Sys2Proof

namespace Sys2Proof.Machine

/-! ## Illegal words -/

theorem exists_decode_error {w : Word} (h : wellFormedWord w = false) : ∃ e, decode w = .error e := by
  cases hd : decode w with
  | ok i => exact absurd (exists_decode_iff.1 ⟨i, hd⟩) (by simp [h])
  | error e => exact ⟨e, rfl⟩

theorem runCommand_of_illegal {w : Word} (h : wellFormedWord w = false) (s : State) :
    runCommand w s = .next (s.takeFault (.illegalCommand w)) := by
  obtain ⟨e, he⟩ := exists_decode_error h
  rw [runCommand, he]
  rfl

/-- LASTERR of IllegalCommand shows the word's upper 24 bits over the code (60_exceptions R221). -/
theorem illegalCommand_info_append_code (w : Word) :
    (Cause.illegalCommand w).info ++ BitVec.ofNat 8 (Cause.illegalCommand w).code = (w &&& 0xFFFFFF00) ||| 0x04 := by
  have hmask : (0xFFFFFF00 : Word) = BitVec.allOnes 24 ++ 0#8 := by decide
  have hcode : (0x04 : Word) = 0#24 ++ 4#8 := by decide
  have hw : w = w.extractLsb' 8 24 ++ w.extractLsb' 0 8 :=
    ((BitVec.extractLsb'_append_extractLsb'_eq_extractLsb' (start₁ := 0) (len₁ := 8) rfl).trans
      BitVec.extractLsb'_eq_self).symm
  calc w.extractLsb' 8 24 ++ 4#8
      = ((w.extractLsb' 8 24 ++ w.extractLsb' 0 8) &&& (BitVec.allOnes 24 ++ 0#8)) ||| (0#24 ++ 4#8) := by
        rw [BitVec.and_append, BitVec.or_append, BitVec.and_allOnes, BitVec.and_zero, BitVec.or_zero, BitVec.zero_or]
    _ = (w &&& 0xFFFFFF00) ||| 0x04 := by rw [← hw, ← hmask, ← hcode]

/-- Settles O7: a word that is no command takes the fault, which writes the error registers only. -/
theorem illegalCommandChangesNothingElse : Obligations.IllegalCommandChangesNothingElse := by
  intro s w rest hh hw
  refine ⟨State.takeFault { s with host := rest } (.illegalCommand w), ?_, illegalCommand_info_append_code w,
    (State.endedWith_takeFault _ { s with host := rest }).2, rfl⟩
  calc step s = runCommand w { s with host := rest } := step_of_host_cons hh
    _ = _ := runCommand_of_illegal hw _

end Sys2Proof.Machine
end

section
/-! Categories and magnitude bits as numbers (spec/30_encoding.md rules R84 and R85). -/

namespace Sys2Proof.Machine

/-- The category of a nonzero value is the one length that fits its magnitude (30_encoding R84). -/
theorem eq_cat_iff {v : Int} (hv : v ≠ 0) {c : Nat} :
    c = cat v ↔ 1 ≤ c ∧ 2 ^ (c - 1) ≤ v.natAbs ∧ v.natAbs < 2 ^ c := by
  rw [cat, if_neg hv]
  constructor
  · rintro rfl
    exact ⟨Nat.le_add_left 1 _, Nat.log2_self_le (Int.natAbs_ne_zero.2 hv), Nat.lt_log2_self⟩
  · rintro ⟨h1, hlo, hhi⟩
    obtain ⟨b, rfl⟩ := Nat.exists_eq_add_of_le' h1
    rw [(Nat.log2_eq_iff (Int.natAbs_ne_zero.2 hv)).2 ⟨hlo, hhi⟩, Nat.add_sub_cancel]

/-- Settles O40: the bounds single the category out. -/
theorem categoryIsTheBitLength : Obligations.CategoryIsTheBitLength := by
  refine ⟨rfl, fun v hv => ?_⟩
  obtain ⟨h1, hlo, hhi⟩ := (eq_cat_iff hv).1 rfl
  exact ⟨h1, hlo, hhi, fun c hc hclo hchi => (eq_cat_iff hv).2 ⟨hc, hclo, hchi⟩⟩

theorem magbits_of_pos {v : Int} {c : Nat} (hv : 0 < v) (hc : v.natAbs < 2 ^ c) : magbits v c = v.natAbs := by
  have hlt : v < 2 ^ c := by
    rw [← Int.natAbs_of_nonneg hv.le]
    exact_mod_cast hc
  rw [magbits, if_pos hv, Int.emod_eq_of_lt hv.le hlt]
  omega

/-- The magnitude bits of a negative value are the complement of its magnitude (30_encoding R85). -/
theorem magbits_of_neg {v : Int} {c : Nat} (hv : v < 0) (hc : v.natAbs < 2 ^ c) :
    magbits v c = 2 ^ c - 1 - v.natAbs := by
  have hpow : ((2 ^ c : Nat) : Int) = 2 ^ c := by push_cast; rfl
  have hmod : (v - 1) % 2 ^ c = v - 1 + 2 ^ c := by
    rw [← Int.add_emod_right, Int.emod_eq_of_lt (by omega) (by omega)]
  rw [magbits, if_neg (by omega), hmod]
  omega

/-- Settles O41: with the bounds of the category, the top bit is set exactly for a positive value. -/
theorem magnitudeBitsTellTheSign : Obligations.MagnitudeBitsTellTheSign := by
  intro v hv
  obtain ⟨h1, hlo, hhi⟩ := (eq_cat_iff hv).1 rfl
  refine ⟨fun hpos => ?_, fun hneg => ?_⟩
  · rw [magbits_of_pos hpos hhi]
    exact ⟨Int.natAbs_of_nonneg hpos.le, hlo⟩
  · rw [magbits_of_neg hneg hhi]
    have hdouble : 2 ^ cat v = 2 * 2 ^ (cat v - 1) := by
      rw [← Nat.pow_succ', Nat.succ_eq_add_one, Nat.sub_add_cancel h1]
    have hpow : ((2 ^ cat v : Nat) : Int) = 2 ^ cat v := by push_cast; rfl
    omega

end Sys2Proof.Machine
end

section
/-! What a command adds to the output stream, on any sink (spec/30_encoding.md rules R87 and R88, spec/42_bit_packer.md rule
R155): the bytes it writes where the sink accepts are stuffed data, the bits it puts, and where the sink refuses a byte the
bytes before it are the first of them. -/

namespace Sys2Proof.Machine

/-! ## The first bytes of stuffed data -/

theorem stuffed_singleton {b : Byte} (hb : b ≠ 0xFF) : stuffed [b] = [b] := by
  simp only [stuffed, List.flatMap_cons, if_neg hb]
  rfl

/-- The first bytes of stuffed data are stuffed data again, or are cut between an 0xFF and its stuffing byte. -/
theorem take_stuffed (data : List Byte) (n : Nat) :
    (∃ whole, whole <+: data ∧ (stuffed data).take n = stuffed whole) ∨
      ∃ whole, whole ++ [0xFF] <+: data ∧ (stuffed data).take n = stuffed whole ++ [0xFF] := by
  induction data generalizing n with
  | nil => exact .inl ⟨[], List.prefix_rfl, by simp⟩
  | cons b data ih =>
    have hcons : stuffed (b :: data) = stuffed [b] ++ stuffed data := stuffed_append [b] data
    by_cases hn : (stuffed [b]).length ≤ n
    · obtain ⟨m, rfl⟩ := Nat.exists_eq_add_of_le hn
      have htake : (stuffed (b :: data)).take ((stuffed [b]).length + m) = stuffed [b] ++ (stuffed data).take m := by
        rw [hcons, List.take_length_add_append]
      rw [htake]
      refine (ih m).imp ?_ ?_
      · rintro ⟨whole, hpre, heq⟩
        exact ⟨b :: whole, (List.prefix_cons_inj b).2 hpre, by rw [heq, ← stuffed_append]; rfl⟩
      · rintro ⟨whole, hpre, heq⟩
        exact ⟨b :: whole, (List.prefix_cons_inj b).2 hpre,
          by rw [heq, ← List.append_assoc, ← stuffed_append]; rfl⟩
    · rw [hcons, List.take_append_of_le_length (by omega)]
      by_cases hb : b = 0xFF
      · subst hb
        have hpair : stuffed [0xFF] = [0xFF, 0x00] := rfl
        rw [hpair] at hn ⊢
        obtain rfl | rfl : n = 0 ∨ n = 1 := by
          simp only [List.length_cons, List.length_nil] at hn
          omega
        · exact .inl ⟨[], List.nil_prefix, rfl⟩
        · exact .inr ⟨[], by simp, rfl⟩
      · rw [stuffed_singleton hb] at hn ⊢
        obtain rfl : n = 0 := by simpa using hn
        exact .inl ⟨[], List.nil_prefix, rfl⟩

/-! ## What a part adds to the stream -/

/-- The part that came to the end `e` added these data bytes to the stream, each 0xFF with its stuffing byte; but for the last,
a bare 0xFF, where the sink refused its stuffing byte (42_bit_packer R150, R156). -/
def AddsData (s : State) (data : List Byte) (e : Ended) : Prop :=
  e.state.stream = s.stream ++ stuffed data ∨ ∃ t, e = .raised .outputFailure t ∧ t.pkMode = .failed ∧
    ∃ whole, data = whole ++ [0xFF] ∧ t.stream = s.stream ++ stuffed whole ++ [0xFF]

theorem PackerPart.addsData {s : State} {e : Ended} (h : PackerPart s e) : ∃ data, AddsData s data e := by
  cases h with
  | ok t _ _ bytes =>
    obtain ⟨data, hs⟩ := bytes
    exact ⟨data, .inl hs⟩
  | raised c t _ mode _ _ _ bytes =>
    obtain ⟨data, hs | ⟨rfl, hs⟩⟩ := bytes
    · exact ⟨data, .inl hs⟩
    · exact ⟨data ++ [0xFF], .inr ⟨t, rfl, mode, data, rfl, hs⟩⟩

/-- Closing the packer after a part adds nothing. -/
theorem AddsData.andThen_closePacker {s : State} {data : List Byte} {e : Ended} (h : AddsData s data e) :
    AddsData s data (e.andThen fun t => .ok t.closePacker) := by
  cases e with
  | ok t => exact h.imp_right fun ⟨u, hu, _⟩ => nomatch hu
  | raised c t => exact h

/-- What a part that puts these bits adds to the stream: data bytes, which under the invariant are the bits buffered before and
then these, from their start, and, on an ACTIVE packer with the sink accepting, all of those that fill whole bytes
(42_bit_packer R155). -/
structure Stuffs (s : State) (bits : List Bool) (data : List Byte) (e : Ended) : Prop where
  adds : AddsData s data e
  fromStart : s.Inv → data.flatMap byteBits <+: s.pending ++ bits
  whole : s.Inv → s.pkMode = .active → s.SinkAccepts →
    e.state.stream = s.stream ++ stuffed data ∧ data.length = (s.pkCnt.toNat + bits.length) / 8

/-- A part that puts no bits and writes nothing: an ACTIVE packer buffers less than a byte. -/
theorem Stuffs.of_silent {s : State} {e : Ended} (h : e.state.stream = s.stream) : Stuffs s [] [] e := by
  have hs : e.state.stream = s.stream ++ stuffed [] := by rw [h, stuffed_nil, List.append_nil]
  refine ⟨.inl hs, fun _ => List.nil_prefix, fun hi ha _ => ⟨hs, ?_⟩⟩
  have h7 := (hi.packer ha).1
  simp only [List.length_nil]
  omega

theorem length_flatMap_byteBits (data : List Byte) : (data.flatMap byteBits).length = 8 * data.length := by
  simp [List.length_flatMap, byteBits, Nat.mul_comm]

/-- The answers to the next `n` writes are all accepts, or one of them is the first refusal. -/
theorem answers_cases (l : List Bool) (n : Nat) :
    (∀ a ∈ l.take n, a = true) ∨ ∃ k rest, k < n ∧ l = List.replicate k true ++ false :: rest := by
  induction l generalizing n with
  | nil => exact .inl (by simp)
  | cons a l ih =>
    cases n with
    | zero => exact .inl (by simp)
    | succ n =>
      cases a with
      | false => exact .inr ⟨0, l, Nat.succ_pos n, rfl⟩
      | true =>
        refine (ih n).imp (fun h => ?_) ?_
        · simpa using h
        · rintro ⟨k, rest, hk, rfl⟩
          exact ⟨k + 1, rest, Nat.succ_lt_succ hk, rfl⟩

/-- What a part writes on a sink that accepts tells what it adds to the stream on any sink (20_memory R57). -/
theorem SinkRule.stuffs {f : State → Ended} (hf : SinkRule f) {s : State} {bits : List Bool}
    (hw : Wrote s (f (s.answered [])).state bits) : ∃ data, Stuffs s bits data (f s) := by
  obtain ⟨bytes, hbytes, hacc, href⟩ := hf s
  obtain ⟨data, rest, hstr, hdata, h7⟩ := hw
  obtain rfl : bytes = stuffed data := List.append_cancel_left (hbytes.symm.trans hstr)
  have hpre : ∀ {part}, part <+: data → part.flatMap byteBits <+: s.pending ++ bits := fun h =>
    (h.flatMap byteBits).trans ⟨rest, hdata⟩
  obtain hall | ⟨k, later, hk, hl⟩ := answers_cases s.sinkAnswers (stuffed data).length
  · have hfull : (f s).state.stream = s.stream ++ stuffed data := by
      have hrun : f s = (f (s.answered [])).answered _ := hacc s.sinkAnswers hall
      rw [hrun, Ended.stream_answered, hstr]
    refine ⟨data, .inl hfull, fun _ => hpre List.prefix_rfl, fun _ _ _ => ⟨hfull, ?_⟩⟩
    have hlen := congrArg List.length hdata
    simp only [List.length_append, length_flatMap_byteBits, length_pending] at hlen
    omega
  · obtain ⟨t, ht, hm, hts, -⟩ := href k later hk
    have hrun : f s = .raised .outputFailure t := by
      rw [← hl] at ht
      exact ht
    have hrefuses : ¬ s.SinkAccepts := fun ha => Bool.false_ne_true (ha false (by simp [hl]))
    obtain ⟨whole, hp, heq⟩ | ⟨whole, hp, heq⟩ := take_stuffed data k <;> rw [heq] at hts
    · exact ⟨whole, .inl (by rw [hrun]; exact hts), fun _ => hpre hp, fun _ _ ha => absurd ha hrefuses⟩
    · exact ⟨whole ++ [0xFF], .inr ⟨t, hrun, hm, whole, rfl, by rw [hts, List.append_assoc]⟩, fun _ => hpre hp,
        fun _ _ ha => absurd ha hrefuses⟩

/-- Without the invariant a part still adds stuffed data. -/
theorem exists_stuffs {f : State → Ended} {s : State} {bits : List Bool} (hadds : ∃ data, AddsData s data (f s))
    (hf : SinkRule f) (hw : s.Inv → Wrote s (f (s.answered [])).state bits) : ∃ data, Stuffs s bits data (f s) := by
  by_cases hi : s.Inv
  · exact hf.stuffs (hw hi)
  · obtain ⟨data, hd⟩ := hadds
    exact ⟨data, hd, fun h => absurd h hi, fun h => absurd h hi⟩

/-! ## The commands -/

theorem sinkAccepts_answered_nil (s : State) : (s.answered []).SinkAccepts := fun _ ha => nomatch ha

theorem putbits_stuffs (code : BitVec 16) (length : BitVec 8) (s : State) :
    ∃ data, Stuffs s (s.bitsPut (.putbits code length)) data (putbitsCommand code length s) := by
  obtain ⟨hm, h⟩ | ⟨hm, h16, h⟩ | ⟨hm, h16, h⟩ := putbitsCommand_cases code length s <;>
    rw [h, State.bitsPut]
  · rw [if_neg fun hc => hm hc.1]
    exact ⟨[], .of_silent rfl⟩
  · rw [if_neg fun hc => absurd hc.2 (by omega)]
    exact ⟨[], .of_silent rfl⟩
  · rw [if_pos ⟨hm, h16⟩]
    refine exists_stuffs (putBits_part code length.toNat s).addsData (putBits_rule code length.toNat) fun hi => ?_
    obtain ⟨t, ht, -⟩ := putBits_accepts (sinkAccepts_answered_nil s) code length.toNat
    obtain ⟨hem, htp⟩ := putBits_of_ok (s := s.answered []) (hi.packer hm) h16 ht
    rw [ht]
    exact hem.wrote htp

/-- The byte a FLUSH writes is the buffered bits and the zero bits below them (42_bit_packer R153). -/
theorem State.PackerOk.byteBits_topByte {s : State} (h : s.PackerOk) :
    byteBits s.topByte = s.pending ++ List.replicate (8 - s.pkCnt.toNat) false := by
  have h7 := h.1
  have hfilled : Holds { s with pkCnt := 8 } (s.pending ++ List.replicate (8 - s.pkCnt.toNat) false) := by
    refine ⟨by simp; omega, by simp; omega, fun i hi => (h.holds.reg i hi).trans ?_⟩
    rw [List.getD_eq_getElem?_getD, List.getD_eq_getElem?_getD]
    by_cases hlt : i < s.pending.length
    · rw [List.getElem?_append_left hlt]
    · rw [List.getElem?_append_right (by omega), List.getElem?_eq_none (by omega), List.getElem?_replicate]
      split_ifs <;> rfl
  have hlen : (s.pending ++ List.replicate (8 - s.pkCnt.toNat) false).length = 8 := by simp; omega
  exact (hfilled.byteBits_topByte hlen.ge).trans (List.take_of_length_le hlen.le)

theorem flush_stuffs (s : State) : ∃ data, Stuffs s (s.bitsPut .flush) data (flushCommand s) := by
  obtain ⟨hm, h⟩ | ⟨hm, h0, h⟩ | ⟨hm, h0, h⟩ := flushCommand_cases s <;> rw [h, State.bitsPut]
  · rw [if_neg fun hc => hm hc.1]
    exact ⟨[], .of_silent rfl⟩
  · rw [if_neg fun hc => hc.2 h0]
    exact ⟨[], .of_silent rfl⟩
  · rw [if_pos ⟨hm, h0⟩]
    have hadds := (emitByte_part s.topByte s).addsData.imp fun _ hd => hd.andThen_closePacker
    have hclose : SinkRule fun t => Ended.ok t.closePacker := SinkRule.of_silent (fun _ _ => rfl) fun _ => rfl
    refine exists_stuffs hadds ((emitByte_rule s.topByte).andThen hclose) fun hi => ?_
    obtain ⟨t, ht, -⟩ := emitByte_accepts (sinkAccepts_answered_nil s) s.topByte
    have hbits := (hi.packer hm).byteBits_topByte
    rw [ht]
    exact ⟨[s.topByte], [], (emitByte_of_ok ht).1, by simpa using hbits, by simp⟩

@[simp] theorem state_endedBy (o : Option Cause) (t : State) : (endedBy o t).state = t := by
  cases o <;> rfl

theorem encblk_stuffs (comp : Comp) (dcidx acidx : TableIdx) (s : State) :
    ∃ data, Stuffs s (s.bitsPut (.encblk comp dcidx acidx)) data
      (encblkCommand comp (slotOf .dc dcidx) (slotOf .ac acidx) s) := by
  rw [State.bitsPut]
  generalize slotOf .dc dcidx = d
  generalize slotOf .ac acidx = a
  obtain ⟨hd, h⟩ | ⟨-, hac, h⟩ | ⟨-, -, hm, h⟩ | ⟨hd, hac, hm, h⟩ := encblkCommand_cases comp d a s <;> rw [h]
  · rw [if_neg fun hc => by simp [hd] at hc]
    exact ⟨[], .of_silent rfl⟩
  · rw [if_neg fun hc => by simp [hac] at hc]
    exact ⟨[], .of_silent rfl⟩
  · rw [if_neg fun hc => hm hc.2.2]
    exact ⟨[], .of_silent rfl⟩
  · rw [if_pos ⟨hd, hac, hm⟩]
    refine exists_stuffs (encblkBody_part comp d a s).addsData ((dcPass_rule comp d).andThen (acPass_rule a _ 0))
      fun hi => ?_
    have hfollows := encblkBody_follows (sizes := True) comp d a (sinkAccepts_answered_nil s)
      (fun _ => (hi.tables d hd).shortCodes) (fun _ => (hi.tables a hac).shortCodes) fun _ => hi.preds.cat_diff_le comp
    obtain ⟨t, ht, -, -, hw⟩ := hfollows
    rw [ht, state_endedBy]
    exact hw trivial (hi.packer hm)

/-- Every command part adds the bits it puts as stuffed data. -/
theorem commandPart_stuffs (i : Instr) (s : State) : ∃ data, Stuffs s (s.bitsPut i) data (commandPart i s) := by
  cases i with
  | ldstd cls idx std => exact ⟨[], .of_silent rfl⟩
  | build cls idx => exact ⟨[], .of_silent (by rw [commandPart, buildSlot_frame])⟩
  | bldlut cls idx => exact ⟨[], .of_silent (by rw [commandPart, buildLut_frame])⟩
  | putbits code length => exact putbits_stuffs code length s
  | flush => exact flush_stuffs s
  | pkrst => exact ⟨[], .of_silent rfl⟩
  | encblk comp dcidx acidx => exact encblk_stuffs comp dcidx acidx s
  | scanrst mask => exact ⟨[], .of_silent (by rw [commandPart, Ended.state_ok, foldl_clearPred_frame])⟩

/-- Settles O31: a command is its part and its end, which writes no byte and records OutputFailure as 3. -/
theorem everyCommandStuffsItsBytes : Obligations.EveryCommandStuffsItsBytes := by
  intro i s t h
  rw [exec_eq_finish] at h
  cases h
  obtain ⟨data, hadds, hstart, hwhole⟩ := commandPart_stuffs i s
  rw [Ended.stream_close]
  refine ⟨data, hadds.imp_right ?_, hstart, hwhole⟩
  rintro ⟨t, ht, hm, whole, hdata, hs⟩
  rw [ht]
  exact ⟨rfl, hm, whole, hdata, hs⟩

end Sys2Proof.Machine
end

section
/-! LDSTD and BUILD (spec/40_code_builder.md rules R102 to R107 and R110): their frame, what they write, and the order of
BUILD's checks. Each check passes over the leading items that meet it, so it reports the first one that does not. -/

namespace Sys2Proof.Machine

/-! ## Frames -/

/-- A command's end changes the error registers only. -/
theorem Ended.onlyErrorRegisters_close (e : Ended) : OnlyErrorRegisters e.state e.close := by
  cases e <;> rfl

/-- A command part that changes the slots only, and of those slot `n` only, changes no other flag, no predictor, no packer
register and nothing of the sink's or the host's side. -/
theorem SlotsFrame.close_frame {s : State} {n : SlotId} {e : Ended} (h : SlotsFrame s e.state)
    (hs : ∀ m, m ≠ n → e.state.slot m = s.slot m) :
    SameFlagsBut (· = n) s e.close ∧ SamePredsBut (fun _ => False) s e.close ∧ SamePacker s e.close ∧
      SameSink s e.close ∧ SameHost s e.close := by
  refine ⟨fun m hm => ?_, ?_⟩
  · rw [Ended.slot_close, hs m hm]
    exact ⟨rfl, rfl⟩
  · rw [e.onlyErrorRegisters_close, h]
    exact ⟨fun _ _ => rfl, ⟨rfl, rfl, rfl⟩, ⟨rfl, rfl⟩, rfl, rfl⟩

/-- A BUILD changes no slot but its own (40_code_builder R110). -/
theorem slot_buildSlot_of_ne (s : State) {n m : SlotId} (hm : m ≠ n) : (buildSlot s n).state.slot m = s.slot m := by
  cases hb : buildTable (s.nvalAt n).toNat (s.counts n) (s.symbols n (s.nvalAt n).toNat) with
  | error d => rw [buildSlot_of_error hb, Ended.state_raised, slot_unbuild_forgetTable, if_neg hm]
  | ok t => rw [buildSlot_of_ok hb, Ended.state_ok, slot_putTable_setBuilt, if_neg hm]

/-- What a BUILD leaves unchanged, ended either way (40_code_builder R103, R110). -/
theorem buildSlot_close_frame (s : State) (n : SlotId) :
    (∀ e, e.inTbl n = false → (buildSlot s n).close.cell e = s.cell e) ∧
      SameFlagsBut (· = n) s (buildSlot s n).close ∧ SamePredsBut (fun _ => False) s (buildSlot s n).close ∧
      SamePacker s (buildSlot s n).close ∧ SameSink s (buildSlot s n).close ∧ SameHost s (buildSlot s n).close :=
  ⟨fun _ he => (Ended.cell_close _ _).trans (cell_buildSlot s he),
    (buildSlot_frame s n).close_frame fun _ => slot_buildSlot_of_ne s⟩

/-- Settles O16: a command is its part and its end, and BUILD's part has this frame. -/
theorem buildFrame : Obligations.BuildFrame := by
  intro cls idx s t h
  rw [exec_eq_finish] at h
  cases h
  exact buildSlot_close_frame s (slotOf cls idx)

/-- Settles O12: LDSTD's part writes its slot's spec and flags only. -/
theorem ldstdFrame : Obligations.LdstdFrame := by
  intro cls idx std s t h
  rw [exec_eq_finish] at h
  cases h
  have hframe : SlotsFrame s (commandPart (.ldstd cls idx std) s).state := rfl
  refine ⟨fun e he => (Ended.cell_close _ e).trans (cell_loadSpec s _ he), hframe.close_frame fun m hm => ?_⟩
  rw [commandPart, Ended.state_ok, slot_loadSpec, if_neg hm]

/-! ## LDSTD -/

section
variable (s : State) (n : SlotId) (spec : HuffmanSpec)

theorem cell_loadSpec_bits {i : Nat} (hi : i < spec.counts.length) :
    (loadSpec s n spec).cell (.bits n i) = some ((spec.counts.getD i 0).setWidth 32) := by
  rw [State.cell, slot_loadSpec, if_pos rfl, Store.find?_block, if_pos (Nat.zero_le i), Nat.sub_zero,
    List.getElem?_eq_getElem hi, List.getD_eq_getElem _ _ hi, Option.map_some]

theorem cell_loadSpec_nval (h : spec.values.length ≤ 256) :
    (loadSpec s n spec).cell (.nval n) = some (BitVec.ofNat 32 spec.values.length) := by
  rw [State.cell, slot_loadSpec, if_pos rfl]
  exact congrArg some (BitVec.setWidth_ofNat_of_le_of_lt (by decide) (by omega))

theorem cell_loadSpec_val (h : spec.values.length ≤ 256) {k : Nat} (hk : k < 256) :
    (loadSpec s n spec).cell (.val n k) = some ((spec.values.getD k 0).setWidth 32) := by
  rw [State.cell, slot_loadSpec, if_pos rfl, Store.find?_padded _ h, if_pos hk, Option.map_some]

end

/-- Settles O11: every standard spec has sixteen counts and at most 256 values, which the stores then show. -/
theorem ldstdLoadsTheStandardSpec : Obligations.LdstdLoadsTheStandardSpec := by
  intro cls idx std s
  obtain ⟨hc, hv⟩ := std_lengths cls std
  generalize hn : slotOf cls idx = n
  generalize hspec : Config.std cls std = spec at hc hv
  refine ⟨(Ended.ok (loadSpec s n spec)).close, by rw [exec_eq_finish, commandPart, hn, hspec]; rfl, ⟨rfl, rfl⟩, ?_⟩
  simp only [Ended.cell_close, Ended.slot_close, Ended.state_ok]
  refine ⟨fun i hi => cell_loadSpec_bits s n spec (by omega), cell_loadSpec_nval s n spec hv,
    fun k hk => cell_loadSpec_val s n spec hv (by omega), fun k hk hk256 => ?_, ?_, ?_⟩
  · rw [cell_loadSpec_val s n spec hv hk256, List.getD_eq_default _ _ hk]
    rfl
  · rw [slot_loadSpec, if_pos rfl]
  · rw [slot_loadSpec, if_pos rfl]

/-! ## The end of a BUILD by the table of its spec -/

/-- A table that cannot be made is the cause BUILD ends with. -/
theorem endedWith_buildSlot {s : State} {n : SlotId} {d : SpecDefect}
    (h : buildTable (s.nvalAt n).toNat (s.counts n) (s.symbols n (s.nvalAt n).toNat) = .error d) :
    EndedWith (.invalidSpec d) s (buildSlot s n).close := by
  rw [buildSlot_of_error h]
  exact (State.endedWith_takeFault _ _).of_errstat_eq rfl

/-- The slot after a BUILD. -/
def Slot.afterBuild (x : Slot) : Except SpecDefect CodeTable → Slot
  | .error _ => { x with code := [], len := [], built := false, lutv := false }
  | .ok t => { x with
      code := Store.padded (t.codes.map (BitVec.ofNat 16))
      len := Store.padded (t.lens.map (BitVec.ofNat 8))
      built := true
      lutv := false }

/-- LASTERR after a BUILD. -/
def buildLasterr : Except SpecDefect CodeTable → Word
  | .error d => (Cause.invalidSpec d).info ++ 1#8
  | .ok _ => 0

/-- What a BUILD leaves in its slot and in LASTERR (40_code_builder R103, R110). -/
theorem buildSlot_close_eq {s : State} {n : SlotId} {r : Except SpecDefect CodeTable}
    (h : buildTable (s.nvalAt n).toNat (s.counts n) (s.symbols n (s.nvalAt n).toNat) = r) :
    (buildSlot s n).close.slot n = (s.slot n).afterBuild r ∧ (buildSlot s n).close.lasterr = buildLasterr r := by
  rw [Ended.slot_close]
  cases r with
  | error d =>
    rw [buildSlot_of_error h, Ended.state_raised, slot_unbuild_forgetTable, if_pos rfl]
    exact ⟨rfl, rfl⟩
  | ok t =>
    rw [buildSlot_of_ok h, Ended.state_ok, slot_putTable_setBuilt, if_pos rfl]
    exact ⟨rfl, rfl⟩

/-- A BUILD's cause, if any, has code 1 (60_exceptions R221). -/
theorem buildLasterr_ne_outputFailure (r : Except SpecDefect CodeTable) : (buildLasterr r).extractLsb' 0 8 ≠ 3 := by
  cases r with
  | error d =>
    rw [buildLasterr, BitVec.extractLsb'_append_eq_right]
    decide
  | ok t =>
    rw [buildLasterr]
    decide

/-- The table and the flags after a BUILD do not depend on what the slot held. -/
theorem Slot.afterBuild_congr (x y : Slot) (r : Except SpecDefect CodeTable) :
    (x.afterBuild r).built = (y.afterBuild r).built ∧ (x.afterBuild r).lutv = (y.afterBuild r).lutv ∧
      (x.afterBuild r).code = (y.afterBuild r).code ∧ (x.afterBuild r).len = (y.afterBuild r).len := by
  cases r <;> exact ⟨rfl, rfl, rfl, rfl⟩

/-- Settles O17: equal specs make one table, and the slot's table, its flags and LASTERR are read off that. -/
theorem buildDependsOnTheSpecAlone : Obligations.BuildDependsOnTheSpecAlone := by
  intro cls cls' idx idx' s s' hnval hcounts hsymbols
  generalize hn : slotOf cls idx = n at hnval hcounts hsymbols ⊢
  generalize hn' : slotOf cls' idx' = n' at hnval hcounts hsymbols ⊢
  obtain ⟨r, hr⟩ : ∃ r, buildTable (s.nvalAt n).toNat (s.counts n) (s.symbols n (s.nvalAt n).toNat) = r := ⟨_, rfl⟩
  have hr' : buildTable (s'.nvalAt n').toNat (s'.counts n') (s'.symbols n' (s'.nvalAt n').toNat) = r := by
    rw [hnval, hcounts, hsymbols, hr]
  obtain ⟨hslot, hlast⟩ := buildSlot_close_eq hr
  obtain ⟨hslot', hlast'⟩ := buildSlot_close_eq hr'
  obtain ⟨hbuilt, hlutv, hcode, hlen⟩ := Slot.afterBuild_congr (s'.slot n') (s.slot n) r
  refine ⟨(buildSlot s n).close, (buildSlot s' n').close, by rw [exec_eq_finish, commandPart, hn]; rfl,
    by rw [exec_eq_finish, commandPart, hn']; rfl, by rw [hlast', hlast], by rw [hslot', hslot, hbuilt],
    by rw [hslot', hslot, hlutv], fun k => ?_, ?_⟩
  · simp only [State.cell, hslot', hslot, hcode, hlen, and_self]
  · obtain ⟨hcell, hflags, hpreds, hpacker, hsink, hhost⟩ := buildSlot_close_frame s n
    exact ⟨hcell, hflags, hpreds, hpacker, hsink, hhost, hlast ▸ buildLasterr_ne_outputFailure r⟩

/-! ## The passes over the lengths below one -/

theorem codeFirst_succ (counts : List Nat) (k : Nat) :
    codeFirst counts (k + 2) = 2 * (codeFirst counts (k + 1) + counts.getD k 0) := rfl

theorem codeBase_succ {counts : List Nat} {k : Nat} (hk : k < counts.length) :
    codeBase counts (k + 2) = codeBase counts (k + 1) + counts.getD k 0 := by
  rw [codeBase, codeBase, Nat.add_sub_cancel, show k + 2 - 1 = k + 1 by omega, List.sum_take_succ _ _ hk,
    List.getD_eq_getElem _ _ hk]

/-- The positions of the codes of length `k + 1` are positions of the spec. -/
theorem codeBase_add_lt {counts : List Nat} {k j : Nat} (hk : k < counts.length) (hj : j < counts.getD k 0) :
    codeBase counts (k + 1) + j < counts.sum := by
  have hle : codeBase counts (k + 2) ≤ counts.sum := by
    rw [← List.sum_take_add_sum_drop counts (k + 1)]
    exact Nat.le_add_right _ _
  rw [codeBase_succ hk] at hle
  omega

theorem drop_eq_getD_cons {l : List Nat} {k : Nat} (hk : k < l.length) : l.drop k = l.getD k 0 :: l.drop (k + 1) := by
  rw [List.getD_eq_getElem _ _ hk, List.drop_eq_getElem_cons hk]

/-- Pass 1 at length `k + 1`: a run of it, then the greater lengths. -/
theorem pass1From_drop {counts : List Nat} {k : Nat} (hk : k < counts.length) :
    pass1From (k + 1) (counts.drop k) =
      List.replicate (counts.getD k 0) (k + 1) ++ pass1From (k + 2) (counts.drop (k + 1)) := by
  rw [drop_eq_getD_cons hk, pass1From]

/-- Pass 2 at a length whose codes fit: a run of consecutive codes, then the codes of the greater lengths. -/
theorem canonical_drop_of_fits {counts : List Nat} {k : Nat} (hk : k < counts.length) (h : FitsAt counts (k + 1)) :
    canonical (k + 1) (codeFirst counts (k + 1)) (counts.drop k) =
      (canonical (k + 2) (codeFirst counts (k + 2)) (counts.drop (k + 1))).map
        (List.range' (codeFirst counts (k + 1)) (counts.getD k 0) ++ ·) := by
  rw [FitsAt, Nat.add_sub_cancel] at h
  rw [drop_eq_getD_cons hk, canonical, codeFirst_succ]
  by_cases h0 : counts.getD k 0 = 0
  · rw [if_pos h0, h0, Nat.add_zero]
    cases canonical (k + 2) (2 * codeFirst counts (k + 1)) (counts.drop (k + 1)) <;> rfl
  · rw [if_neg h0, if_neg (by omega)]

theorem canonical_drop_of_not_fits {counts : List Nat} {k : Nat} (hk : k < counts.length)
    (h : ¬ FitsAt counts (k + 1)) :
    canonical (k + 1) (codeFirst counts (k + 1)) (counts.drop k) = .error (k + 1) := by
  rw [FitsAt, Nat.add_sub_cancel] at h
  rw [drop_eq_getD_cons hk, canonical, if_neg fun h0 => h (.inl h0), if_pos (by omega)]

/-- Pass 2 past the lengths 1 to `k`, where those fit: codes up to base(k + 1), then those from length `k + 1` and
first(k + 1) on (40_code_builder R107). -/
theorem canonical_split {counts : List Nat} {k : Nat} (hk : k ≤ counts.length)
    (hfit : ∀ L, 1 ≤ L → L ≤ k → FitsAt counts L) :
    ∃ codes : List Nat, codes.length = codeBase counts (k + 1) ∧
      canonical 1 0 counts =
        (canonical (k + 1) (codeFirst counts (k + 1)) (counts.drop k)).map (codes ++ ·) := by
  induction k with
  | zero =>
    refine ⟨[], rfl, ?_⟩
    rw [List.drop_zero, show codeFirst counts (0 + 1) = 0 from rfl]
    cases canonical 1 0 counts <;> rfl
  | succ k ih =>
    obtain ⟨codes, hlen, heq⟩ := ih (by omega) fun L h1 hL => hfit L h1 (by omega)
    refine ⟨codes ++ List.range' (codeFirst counts (k + 1)) (counts.getD k 0), ?_, ?_⟩
    · rw [List.length_append, hlen, List.length_range', codeBase_succ hk]
    · rw [heq, canonical_drop_of_fits hk (hfit (k + 1) (by omega) (Nat.le_refl _)), Except.map_map']
      simp only [List.append_assoc]

/-- Pass 1 past the lengths 1 to `k`: lengths up to base(k + 1), then those from `k + 1` on (40_code_builder R104). -/
theorem pass1_split {counts : List Nat} {k : Nat} (hk : k ≤ counts.length) :
    ∃ lens : List Nat, lens.length = codeBase counts (k + 1) ∧
      pass1 counts = lens ++ pass1From (k + 1) (counts.drop k) := by
  induction k with
  | zero => exact ⟨[], rfl, rfl⟩
  | succ k ih =>
    obtain ⟨lens, hlen, heq⟩ := ih (by omega)
    refine ⟨lens ++ List.replicate (counts.getD k 0) (k + 1), ?_, ?_⟩
    · rw [List.length_append, hlen, List.length_replicate, codeBase_succ hk]
    · rw [heq, pass1From_drop hk, List.append_assoc]

/-- An entry of the middle one of three lists. -/
theorem getD_append_append {as bs cs : List Nat} {j : Nat} (hj : j < bs.length) :
    (as ++ (bs ++ cs)).getD (as.length + j) 0 = bs.getD j 0 := by
  rw [List.getD_append_right _ _ _ _ (Nat.le_add_right _ _), Nat.add_sub_cancel_left, List.getD_append _ _ _ _ hj]

/-- Where every length fits, pass 2 gives codes. -/
theorem canonical_of_fits {counts : List Nat} (hfit : ∀ L, 1 ≤ L → L ≤ counts.length → FitsAt counts L) :
    ∃ codes, canonical 1 0 counts = .ok codes := by
  obtain ⟨codes, -, heq⟩ := canonical_split (Nat.le_refl _) hfit
  rw [List.drop_length] at heq
  exact ⟨_, heq⟩

/-- Pass 2 fails at the first length that does not fit (40_code_builder R105, R106 V2). -/
theorem canonical_of_not_fits {counts : List Nat} {k : Nat} (hk : k < counts.length) (hnot : ¬ FitsAt counts (k + 1))
    (hfit : ∀ L, 1 ≤ L → L < k + 1 → FitsAt counts L) : canonical 1 0 counts = .error (k + 1) := by
  obtain ⟨codes, -, heq⟩ := canonical_split (Nat.le_of_lt hk) fun L h1 hL => hfit L h1 (by omega)
  rw [heq, canonical_drop_of_not_fits hk hnot]
  rfl

/-- The symbol at base(L) + j, `L` being `k + 1`, has length L and code first(L) + j (40_code_builder R107). -/
theorem buildTable_getD {n : Nat} {counts vals : List Nat} {t : CodeTable} (h : buildTable n counts vals = .ok t)
    (hfit : ∀ L, 1 ≤ L → L ≤ counts.length → FitsAt counts L) {k j : Nat} (hk : k < counts.length)
    (hj : j < counts.getD k 0) :
    t.lens.getD (codeBase counts (k + 1) + j) 0 = k + 1 ∧
      t.codes.getD (codeBase counts (k + 1) + j) 0 = codeFirst counts (k + 1) + j := by
  obtain ⟨-, hsum, hlens, hcodes, -, -⟩ := buildTable_ok h
  constructor
  · obtain ⟨lens, hlen, heq⟩ := pass1_split (Nat.le_of_lt hk)
    rw [pass1From_drop hk] at heq
    rw [hlens, List.getD_eq_getElem?_getD, List.getElem?_take_of_lt (hsum ▸ codeBase_add_lt hk hj),
      ← List.getD_eq_getElem?_getD, heq, ← hlen, getD_append_append (by simpa using hj), List.getD_replicate _ hj]
  · obtain ⟨codes, hlen, heq⟩ := canonical_split (Nat.le_of_lt hk) fun L h1 hL => hfit L h1 (by omega)
    rw [canonical_drop_of_fits hk (hfit (k + 1) (by omega) hk), Except.map_map', hcodes] at heq
    cases hr : canonical (k + 2) (codeFirst counts (k + 2)) (counts.drop (k + 1)) with
    | error L => rw [hr] at heq; cases heq
    | ok rest =>
      rw [hr] at heq
      rw [Except.ok.inj heq, ← hlen, getD_append_append (by simpa using hj),
        List.getD_eq_getElem _ _ (by simpa using hj), List.getElem_range', Nat.one_mul]

/-! ## The checks of the values -/

/-- V4 passes over values that are small enough. -/
theorem firstAbove_append {pre : List Nat} (h : ∀ v ∈ pre, v ≤ 255) (k : Nat) (rest : List Nat) :
    firstAbove k (pre ++ rest) = firstAbove (k + pre.length) rest := by
  induction pre generalizing k with
  | nil => rfl
  | cons v pre ih =>
    obtain ⟨hv, hpre⟩ := List.forall_mem_cons.1 h
    rw [List.cons_append, firstAbove, if_neg (by omega), ih hpre, List.length_cons, Nat.add_right_comm, Nat.add_assoc]

/-- V5 passes over values that are distinct from each other and from the earlier ones. -/
theorem firstRepeat_append {pre seen : List Nat} (h : (pre.reverse ++ seen).Nodup) (k : Nat) (rest : List Nat) :
    firstRepeat k seen (pre ++ rest) = firstRepeat (k + pre.length) (pre.reverse ++ seen) rest := by
  induction pre generalizing k seen with
  | nil => rfl
  | cons v pre ih =>
    rw [List.reverse_cons, List.append_assoc, List.singleton_append] at h ⊢
    have hv : v ∉ seen := (List.nodup_cons.1 (List.nodup_append.1 h).2.1).1
    rw [List.cons_append, firstRepeat, if_neg (by simpa using hv), ih h, List.length_cons, Nat.add_right_comm,
      Nat.add_assoc]

theorem take_append_getD_cons_drop {l : List Nat} {k : Nat} (hk : k < l.length) :
    l.take k ++ l.getD k 0 :: l.drop (k + 1) = l := by
  rw [← drop_eq_getD_cons hk, List.take_append_drop]

theorem firstAbove_of_small {vals : List Nat} (h : ∀ v ∈ vals, v ≤ 255) : firstAbove 0 vals = none := by
  rw [← List.append_nil vals, firstAbove_append h]
  rfl

theorem firstRepeat_of_nodup {vals : List Nat} (h : vals.Nodup) : firstRepeat 0 [] vals = none := by
  rw [← List.append_nil vals, firstRepeat_append (by simpa using h)]
  rfl

/-- V4 reports the smallest position whose value is too large (40_code_builder R106). -/
theorem firstAbove_of_large {vals : List Nat} {k : Nat} (hk : k < vals.length) (hv : vals.getD k 0 > 255)
    (hsmall : ∀ j, j < k → vals.getD j 0 ≤ 255) : firstAbove 0 vals = some k := by
  have hpre : ∀ v ∈ vals.take k, v ≤ 255 := fun v hmem => by
    obtain ⟨j, hj, rfl⟩ := List.mem_take_iff_getElem.1 hmem
    rw [← List.getD_eq_getElem _ 0]
    exact hsmall j (by omega)
  rw [← take_append_getD_cons_drop hk, firstAbove_append hpre, firstAbove, if_pos hv, List.length_take]
  exact congrArg some (by omega)

/-- V5 reports the smallest position that repeats an earlier value (40_code_builder R106). -/
theorem firstRepeat_of_repeat {vals : List Nat} {k : Nat} (hk : k < vals.length) (hnodup : (vals.take k).Nodup)
    (hmem : vals.getD k 0 ∈ vals.take k) : firstRepeat 0 [] vals = some k := by
  rw [← take_append_getD_cons_drop hk, firstRepeat_append (by simpa using hnodup), firstRepeat,
    if_pos (by simpa using hmem), List.length_take]
  exact congrArg some (by omega)

/-! ## The checks in order (40_code_builder R106, 60_exceptions R232) -/

section
variable {n : Nat} {counts vals : List Nat}

theorem buildTable_of_tooMany (h : n > Config.maxSyms) : buildTable n counts vals = .error .tooManyValues := if_pos h

theorem buildTable_of_mismatch (hn : n ≤ Config.maxSyms) (h : counts.sum ≠ n) :
    buildTable n counts vals = .error .countMismatch := by
  rw [buildTable, if_neg (Nat.not_lt.2 hn), if_pos h]

theorem buildTable_of_pass2_error (hn : n ≤ Config.maxSyms) (hsum : counts.sum = n) {L : Nat}
    (h : canonical 1 0 counts = .error L) : buildTable n counts vals = .error (.codesDoNotFit L) := by
  rw [buildTable, if_neg (Nat.not_lt.2 hn), if_neg (not_not.2 hsum), pass2_pass1, h]

variable {codes : List Nat} (hn : n ≤ Config.maxSyms) (hsum : counts.sum = n) (hcodes : canonical 1 0 counts = .ok codes)
include hn hsum hcodes

theorem buildTable_of_large {k : Nat} (h : firstAbove 0 vals = some k) :
    buildTable n counts vals = .error (.symbolTooLarge k) := by
  rw [buildTable, if_neg (Nat.not_lt.2 hn), if_neg (not_not.2 hsum), pass2_pass1, hcodes]
  simp only [h]

theorem buildTable_of_repeat (hsmall : firstAbove 0 vals = none) {k : Nat} (h : firstRepeat 0 [] vals = some k) :
    buildTable n counts vals = .error (.symbolRepeated k) := by
  rw [buildTable, if_neg (Nat.not_lt.2 hn), if_neg (not_not.2 hsum), pass2_pass1, hcodes]
  simp only [hsmall, h]

theorem buildTable_of_checks (hsmall : firstAbove 0 vals = none) (h : firstRepeat 0 [] vals = none) :
    buildTable n counts vals = .ok ⟨(pass1 counts).take n, codes⟩ := by
  rw [buildTable, if_neg (Nat.not_lt.2 hn), if_neg (not_not.2 hsum), pass2_pass1, hcodes]
  simp only [hsmall, h]

end

/-- A well-formed spec has a table (40_code_builder R103, R106). -/
theorem buildTable_of_specOk {n : Nat} {counts vals : List Nat} (hlen : counts.length = 16)
    (h : SpecOk n counts vals) : ∃ t, buildTable n counts vals = .ok t := by
  obtain ⟨hn, hsum, hfit, hsmall, hdistinct⟩ := h
  obtain ⟨codes, hcodes⟩ := canonical_of_fits fun L h1 hL => hfit L h1 (hlen ▸ hL)
  exact ⟨_, buildTable_of_checks hn hsum hcodes (firstAbove_of_small hsmall) (firstRepeat_of_nodup hdistinct)⟩

/-- Settles O14: each clause is the check whose turn it is, and BUILD ends with what that check reports. -/
theorem buildReportsTheFirstDefect : Obligations.BuildReportsTheFirstDefect := by
  rintro cls idx s m counts vals rfl rfl rfl
  have hlen := s.length_counts (slotOf cls idx)
  refine ⟨_, exec_eq_finish (.build cls idx) s, fun hm => endedWith_buildSlot (buildTable_of_tooMany hm),
    fun hm hsum => endedWith_buildSlot (buildTable_of_mismatch hm hsum),
    fun hm hsum => ⟨fun L h1 h16 hnot hfit => ?_, fun hfit => ?_⟩⟩
  · obtain ⟨k, rfl⟩ : ∃ k, L = k + 1 := ⟨L - 1, by omega⟩
    exact endedWith_buildSlot (buildTable_of_pass2_error hm hsum (canonical_of_not_fits (by omega) hnot hfit))
  · obtain ⟨codes, hcodes⟩ := canonical_of_fits fun L h1 hL => hfit L h1 (hlen ▸ hL)
    refine ⟨fun k hk hv hsmall => ?_, fun hsmall k hk hnodup hmem => ?_⟩
    · exact endedWith_buildSlot (buildTable_of_large hm hsum hcodes (firstAbove_of_large hk hv hsmall))
    · exact endedWith_buildSlot (buildTable_of_repeat hm hsum hcodes (firstAbove_of_small hsmall)
        (firstRepeat_of_repeat hk hnodup hmem))

/-! ## The table of a well-formed spec -/

/-- The table's elements after a BUILD that ended OK, 0 at and past NVAL (40_code_builder R103). -/
theorem cell_buildSlot_of_ok {s : State} {n : SlotId} {t : CodeTable}
    (h : buildTable (s.nvalAt n).toNat (s.counts n) (s.symbols n (s.nvalAt n).toNat) = .ok t) {k : Nat}
    (hk : k < 256) :
    (buildSlot s n).close.cell (.len n k) = some (BitVec.ofNat 32 (t.lens.getD k 0)) ∧
      (buildSlot s n).close.cell (.code n k) = some (BitVec.ofNat 32 (t.codes.getD k 0)) := by
  obtain ⟨hn, -⟩ := buildTable_ok h
  obtain ⟨hll, hcl⟩ := buildTable_length h
  have hsmall : t.lens.getD k 0 < 2 ^ 8 ∧ t.codes.getD k 0 < 2 ^ 16 := by
    by_cases hkn : k < (s.nvalAt n).toNat
    · obtain ⟨-, h16, -⟩ := buildTable_entry_bounds (s.length_counts n) h hkn
      exact ⟨by omega, buildTable_code_lt (s.length_counts n) h hkn⟩
    · rw [List.getD_eq_default _ _ (by omega), List.getD_eq_default _ _ (by omega)]
      decide
  obtain ⟨hslot, -⟩ := buildSlot_close_eq h
  simp only [State.cell, hslot, Slot.afterBuild]
  rw [find?_padded_ofNat (by omega) hk, find?_padded_ofNat (by omega) hk, Option.map_some, Option.map_some,
    BitVec.setWidth_ofNat_of_le_of_lt (by decide) hsmall.1, BitVec.setWidth_ofNat_of_le_of_lt (by decide) hsmall.2]
  exact ⟨rfl, rfl⟩

/-- Settles O13: a well-formed spec has a table, whose entries are the closed form's. -/
theorem buildAssignsCanonicalCodes : Obligations.BuildAssignsCanonicalCodes := by
  intro cls idx s hok
  refine ⟨(buildSlot s (slotOf cls idx)).close, exec_eq_finish (.build cls idx) s, ?_⟩
  generalize slotOf cls idx = n at hok ⊢
  have hlen := s.length_counts n
  obtain ⟨t, ht⟩ := buildTable_of_specOk hlen hok
  obtain ⟨hslot, -⟩ := buildSlot_close_eq ht
  obtain ⟨hll, hcl⟩ := buildTable_length ht
  have hended : EndedOk s (buildSlot s n).close := by
    rw [buildSlot_of_ok ht]
    exact ⟨rfl, rfl⟩
  refine ⟨hended, by rw [hslot]; rfl, by rw [hslot]; rfl, fun L j h1 h16 hj => ?_, fun k hnk hk => ?_⟩
  · obtain ⟨k, rfl⟩ : ∃ k, L = k + 1 := ⟨L - 1, by omega⟩
    rw [Nat.add_sub_cancel] at hj
    have hpos := codeBase_add_lt (by omega) hj
    obtain ⟨hl, hc⟩ := buildTable_getD ht (fun L h1 hL => hok.fits L h1 (hlen ▸ hL)) (by omega) hj
    have hcell := cell_buildSlot_of_ok ht (hpos.trans_le (hok.sum ▸ hok.few))
    rwa [hl, hc] at hcell
  · have hcell := cell_buildSlot_of_ok ht hk
    rwa [List.getD_eq_default _ _ (by omega), List.getD_eq_default _ _ (by omega)] at hcell

end Sys2Proof.Machine
end

section
/-! BLDLUT (spec/41_decoder_lookup.md rules R130 and R132): its frame, and the entries it writes, length by length. -/

namespace Sys2Proof.Machine

/-! ## Frame -/

/-- A BLDLUT changes no slot but its own (41_decoder_lookup R130). -/
theorem slot_buildLut_of_ne (s : State) {n m : SlotId} (hm : m ≠ n) : (buildLut s n).state.slot m = s.slot m := by
  cases hb : (s.slot n).built with
  | false => rw [buildLut_of_not_built hb, Ended.state_raised]
  | true => rw [buildLut_of_built hb, Ended.state_ok, slot_putLut_setLutv, if_neg hm]

/-- A BLDLUT keeps every slot's `built` (41_decoder_lookup R130). -/
theorem built_buildLut (s : State) (n m : SlotId) : ((buildLut s n).state.slot m).built = (s.slot m).built := by
  by_cases hm : m = n
  · subst hm
    cases hb : (s.slot m).built with
    | false => rw [buildLut_of_not_built hb, Ended.state_raised, hb]
    | true => rw [buildLut_of_built hb, Ended.state_ok, slot_putLut_setLutv, if_pos rfl, hb]
  · rw [slot_buildLut_of_ne s hm]

/-- Settles O21: BLDLUT's part writes the slots only, of those its own only, and there the lookup and `lutv` only. -/
theorem bldlutFrame : Obligations.BldlutFrame := by
  intro cls idx s t h
  rw [exec_eq_finish] at h
  cases h
  rw [commandPart]
  generalize slotOf cls idx = n
  obtain ⟨hflags, hpreds, hpacker, hsink, hhost⟩ :=
    (buildLut_frame s n).close_frame fun _ => slot_buildLut_of_ne s
  exact ⟨fun e he => (Ended.cell_close _ e).trans (cell_buildLut s he), hflags,
    fun m => by rw [Ended.slot_close, built_buildLut], hpreds, hpacker, hsink, hhost⟩

/-- Settles O20: the admission fails, and taking its fault writes the error registers only. -/
theorem bldlutNeedsABuiltTable : Obligations.BldlutNeedsABuiltTable := by
  intro cls idx s hb
  refine ⟨_, exec_eq_finish (.bldlut cls idx) s, ?_⟩
  rw [commandPart, buildLut_of_not_built hb]
  exact ⟨s.endedWith_takeFault _, Ended.onlyErrorRegisters_close (.raised _ s)⟩

/-! ## The entries -/

/-- The lookup entry of a length with `c` codes, the first of them at position `p` (41_decoder_lookup R130). -/
def LutEntry.ofRun (codeAt : Nat → Nat) (p c : Nat) : LutEntry :=
  if c = 0 then ⟨-1, -1, 0⟩ else ⟨codeAt p, codeAt (p + c - 1), (p : Int) - codeAt p⟩

theorem LutEntry.ofRun_of_absent (codeAt : Nat → Nat) (p : Nat) : LutEntry.ofRun codeAt p 0 = ⟨-1, -1, 0⟩ := rfl

theorem LutEntry.ofRun_of_present (codeAt : Nat → Nat) (p : Nat) {c : Nat} (h : c ≠ 0) :
    LutEntry.ofRun codeAt p c = ⟨codeAt p, codeAt (p + c - 1), (p : Int) - codeAt p⟩ := if_neg h

theorem codeBase_cons (c : Nat) (counts : List Nat) (k : Nat) :
    codeBase (c :: counts) (k + 2) = c + codeBase counts (k + 1) := by
  simp [codeBase]

/-- The entry of length `k + 1` is that of the run at base(k + 1) (41_decoder_lookup R130, 40_code_builder R107). -/
theorem getElem?_lutEntries (codeAt : Nat → Nat) (p : Nat) {counts : List Nat} {k : Nat} (hk : k < counts.length) :
    (lutEntries codeAt p counts)[k]? =
      some (.ofRun codeAt (p + codeBase counts (k + 1)) (counts.getD k 0)) := by
  induction counts generalizing p k with
  | nil => exact absurd hk (Nat.not_lt_zero k)
  | cons c counts ih =>
    cases k with
    | zero => rfl
    | succ k =>
      rw [lutEntries, List.getElem?_cons_succ, ih (p + c) (Nat.lt_of_succ_lt_succ hk), List.getD_cons_succ,
        codeBase_cons, Nat.add_assoc]

/-- A lookup that was written holds its entries by length. -/
theorem find?_putLut (s : State) (n : SlotId) {es : List LutEntry} {k : Nat} {e : LutEntry} (h : es[k]? = some e) :
    Store.find? ((s.putLut n es).slot n).lutMin (k + 1) = some (BitVec.ofInt 32 e.min) ∧
      Store.find? ((s.putLut n es).slot n).lutMax (k + 1) = some (BitVec.ofInt 32 e.max) ∧
      Store.find? ((s.putLut n es).slot n).lutPtr (k + 1) = some (BitVec.ofInt 32 e.ptr) := by
  rw [State.slot_putLut, if_pos rfl]
  simp only [Store.find?_block, Nat.le_add_left, if_true, Nat.add_sub_cancel, List.getElem?_map, h, Option.map_some,
    and_self]

/-- The elements of the lookup after a BLDLUT of a built slot. -/
theorem cell_buildLut_of_built {s : State} {n : SlotId} (hb : (s.slot n).built = true) {k : Nat} {e : LutEntry}
    (h : (lutEntries (fun k => (s.codeAt n k).toNat) 0 (s.counts n))[k]? = some e) :
    (buildLut s n).close.cell (.lutMin n (k + 1)) = some (BitVec.ofInt 32 e.min) ∧
      (buildLut s n).close.cell (.lutMax n (k + 1)) = some (BitVec.ofInt 32 e.max) ∧
      (buildLut s n).close.cell (.lutPtr n (k + 1)) = some (BitVec.ofInt 32 e.ptr) := by
  have hput := find?_putLut s n h
  rw [buildLut_of_built hb]
  simp only [State.cell, Ended.slot_close, Ended.state_ok, State.slot_setLutv, if_true]
  exact hput

/-- Settles O19: the entry of each length is that of its run of codes. -/
theorem bldlutWritesEveryLength : Obligations.BldlutWritesEveryLength := by
  rintro cls idx s n counts rfl rfl hb
  refine ⟨_, exec_eq_finish (.bldlut cls idx) s, ?_⟩
  rw [commandPart]
  generalize slotOf cls idx = n at hb ⊢
  have hended : EndedOk s (buildLut s n).close ∧ ((buildLut s n).close.slot n).lutv = true := by
    rw [buildLut_of_built hb, Ended.slot_close, Ended.state_ok, slot_putLut_setLutv, if_pos rfl]
    exact ⟨⟨rfl, rfl⟩, rfl⟩
  refine ⟨hended.1, hended.2, by rw [Ended.slot_close, built_buildLut, hb], fun L h1 h16 => ?_⟩
  obtain ⟨k, rfl⟩ : ∃ k, L = k + 1 := ⟨L - 1, by omega⟩
  have hcells := cell_buildLut_of_built hb
    (getElem?_lutEntries _ 0 (by rw [s.length_counts]; omega : k < (s.counts n).length))
  rw [Nat.zero_add] at hcells
  rw [Nat.add_sub_cancel]
  split_ifs with h0
  · rwa [h0, LutEntry.ofRun_of_absent] at hcells
  · rw [LutEntry.ofRun_of_present _ _ h0] at hcells
    simp only [BitVec.ofInt_natCast, BitVec.ofNat_toNat] at hcells
    exact hcells

end Sys2Proof.Machine
end

section
/-! Decoding a code word (spec/41_decoder_lookup.md rules R131 and R134, spec/40_code_builder.md rules R107 and R108): the
lookup of a ready slot in closed form, and the loop that passes every shorter length and stops at the word's own. -/

namespace Sys2Proof.Machine

/-! ## The positions of a spec, length by length -/

/-- Every position of the spec is one of a run of codes of one length (40_code_builder R107). -/
theorem exists_eq_codeBase_add {counts : List Nat} {k : Nat} (hk : k < counts.sum) :
    ∃ i j, i < counts.length ∧ j < counts.getD i 0 ∧ k = codeBase counts (i + 1) + j := by
  induction counts generalizing k with
  | nil => exact absurd hk (Nat.not_lt_zero k)
  | cons c counts ih =>
    by_cases hc : k < c
    · exact ⟨0, k, Nat.zero_lt_succ _, hc, (Nat.zero_add k).symm⟩
    · rw [List.sum_cons] at hk
      obtain ⟨i, j, hi, hj, heq⟩ := ih (k := k - c) (by omega)
      refine ⟨i + 1, j, Nat.succ_lt_succ hi, hj, ?_⟩
      rw [codeBase_cons]
      omega

/-- Codes were assigned, so every length fits (40_code_builder R105, R106 V2). -/
theorem fits_of_canonical {counts codes : List Nat} (h : canonical 1 0 counts = .ok codes) :
    ∀ L, 1 ≤ L → L ≤ counts.length → FitsAt counts L := by
  intro L
  induction L using Nat.strong_induction_on with
  | _ L ih =>
    intro h1 hL
    by_contra hnot
    obtain ⟨k, rfl⟩ : ∃ k, L = k + 1 := ⟨L - 1, by omega⟩
    rw [canonical_of_not_fits hL hnot fun L' h1' hlt => ih L' hlt h1' (by omega)] at h
    cases h

/-- The codes of a length end below the first code of every greater length, cut to it (40_code_builder R108). -/
theorem codeFirst_add_mul_le (counts : List Nat) (i d : Nat) :
    (codeFirst counts (i + 1) + counts.getD i 0) * 2 ^ (d + 1) ≤ codeFirst counts (i + d + 2) := by
  induction d with
  | zero => rw [Nat.add_zero, codeFirst_succ, Nat.zero_add, Nat.pow_one, Nat.mul_comm]
  | succ d ih =>
    calc (codeFirst counts (i + 1) + counts.getD i 0) * 2 ^ (d + 1 + 1)
        = 2 * ((codeFirst counts (i + 1) + counts.getD i 0) * 2 ^ (d + 1)) := by ring
      _ ≤ 2 * (codeFirst counts (i + d + 2) + counts.getD (i + d + 1) 0) :=
        Nat.mul_le_mul_left 2 (ih.trans (Nat.le_add_right _ _))
      _ = codeFirst counts (i + (d + 1) + 2) := rfl

/-! ## A ready slot -/

theorem State.SlotReady.tableOk {s : State} {n : SlotId} (h : s.SlotReady n) : (s.slot n).TableOk := by
  obtain ⟨-, -, t, ht, hput, -⟩ := h
  obtain ⟨hcode, hlen⟩ := State.slot_putTable_eq_iff.1 hput
  exact ⟨_, _, _, t, s.length_counts n, ht, hcode, hlen⟩

theorem State.SlotReady.built {s : State} {n : SlotId} (h : s.SlotReady n) : (s.slot n).built = true := by
  obtain ⟨-, hb, -⟩ := h
  exact hb

/-- Every length of a ready slot's spec fits (40_code_builder R106 V2). -/
theorem State.SlotReady.fits {s : State} {n : SlotId} (h : s.SlotReady n) {i : Nat} (hi : i < 16) :
    FitsAt (s.counts n) (i + 1) := by
  obtain ⟨-, -, t, ht, -⟩ := h
  obtain ⟨-, -, -, hcodes, -⟩ := buildTable_ok ht
  exact fits_of_canonical hcodes (i + 1) (Nat.le_add_left 1 i) (by rw [s.length_counts]; exact hi)

theorem State.SlotReady.sum_counts {s : State} {n : SlotId} (h : s.SlotReady n) :
    (s.counts n).sum = (s.nvalAt n).toNat ∧ (s.counts n).sum ≤ 256 := by
  obtain ⟨-, -, t, ht, -⟩ := h
  obtain ⟨hn, hsum, -⟩ := buildTable_ok ht
  exact ⟨hsum, hsum ▸ hn⟩

/-- A slot that holds a built table reads its lengths by position. -/
theorem lenAt_of_putTable {s : State} {n : SlotId} {t : CodeTable} {m : Nat} {counts vals : List Nat}
    (hc : counts.length = 16) (hb : buildTable m counts vals = .ok t) (h : (s.putTable n t).slot n = s.slot n)
    {k : Nat} (hk : k < m) : (s.lenAt n k).toNat = t.lens.getD k 0 := by
  obtain ⟨hm, -⟩ := buildTable_ok hb
  obtain ⟨hll, -⟩ := buildTable_length hb
  obtain ⟨-, h16, -⟩ := buildTable_entry_bounds hc hb hk
  rw [State.lenAt, (State.slot_putTable_eq_iff.1 h).2,
    Store.read_of_find? (find?_padded_ofNat (by omega) (by omega)), BitVec.toNat_ofNat, Nat.mod_eq_of_lt (by omega)]

/-- The table of a ready slot in closed form (40_code_builder R107). -/
theorem State.SlotReady.tableAt {s : State} {n : SlotId} (h : s.SlotReady n) {i j : Nat} (hi : i < 16)
    (hj : j < (s.counts n).getD i 0) :
    (s.lenAt n (codeBase (s.counts n) (i + 1) + j)).toNat = i + 1 ∧
      (s.codeAt n (codeBase (s.counts n) (i + 1) + j)).toNat = codeFirst (s.counts n) (i + 1) + j := by
  have hlen := s.length_counts n
  have hpos := codeBase_add_lt (by omega) hj
  rw [h.sum_counts.1] at hpos
  obtain ⟨-, -, t, ht, hput, -⟩ := h
  obtain ⟨-, -, -, hcodes, -⟩ := buildTable_ok ht
  obtain ⟨hl, hc⟩ := buildTable_getD ht (fits_of_canonical hcodes) (by omega) hj
  rw [lenAt_of_putTable hlen ht hput hpos, codeAt_of_putTable hlen ht hput hpos]
  exact ⟨hl, hc⟩

/-- MAX and PTR of a ready slot are those of the runs of its codes. -/
theorem State.SlotReady.lutAt {s : State} {n : SlotId} (h : s.SlotReady n) {i : Nat} (hi : i < 16) {e : LutEntry}
    (he : e = .ofRun (fun k => (s.codeAt n k).toNat) (codeBase (s.counts n) (i + 1)) ((s.counts n).getD i 0)) :
    s.lutMaxAt n (i + 1) = BitVec.ofInt 32 e.max ∧ s.lutPtrAt n (i + 1) = BitVec.ofInt 32 e.ptr := by
  obtain ⟨-, -, t, ht, hput, hlut⟩ := h
  have hget := getElem?_lutEntries (fun k => (s.codeAt n k).toNat) 0 ((s.length_counts n).symm ▸ hi)
  rw [Nat.zero_add, ← he, lutEntries_codeAt ht hput] at hget
  obtain ⟨-, hmax, hptr⟩ := find?_putLut s n hget
  rw [hlut] at hmax hptr
  exact ⟨Store.read_of_find? hmax _, Store.read_of_find? hptr _⟩

/-- At a length with no codes MAX is below every code (41_decoder_lookup R132). -/
theorem State.SlotReady.lutMaxAt_of_absent {s : State} {n : SlotId} (h : s.SlotReady n) {i : Nat} (hi : i < 16)
    (h0 : (s.counts n).getD i 0 = 0) : (s.lutMaxAt n (i + 1)).toInt = -1 := by
  obtain ⟨hmax, -⟩ := h.lutAt hi rfl
  rw [hmax, h0, LutEntry.ofRun_of_absent]
  decide

/-- At a length with codes MAX is the last of them and PTR its position less the code (41_decoder_lookup R131). -/
theorem State.SlotReady.lutAt_of_present {s : State} {n : SlotId} (h : s.SlotReady n) {i : Nat} (hi : i < 16)
    (h0 : (s.counts n).getD i 0 ≠ 0) :
    (s.lutMaxAt n (i + 1)).toInt = codeFirst (s.counts n) (i + 1) + (s.counts n).getD i 0 - 1 ∧
      (s.lutPtrAt n (i + 1)).toInt = codeBase (s.counts n) (i + 1) - codeFirst (s.counts n) (i + 1) := by
  have hfit : codeFirst (s.counts n) (i + 1) + (s.counts n).getD i 0 ≤ 2 ^ (i + 1) := (h.fits hi).resolve_left h0
  have hpow : 2 ^ (i + 1) ≤ 2 ^ 16 := Nat.pow_le_pow_right (by omega) hi
  have hbase := (codeBase_add_lt (by rw [s.length_counts]; exact hi) (Nat.pos_of_ne_zero h0)).trans_le h.sum_counts.2
  obtain ⟨-, hfirst⟩ := h.tableAt hi (Nat.pos_of_ne_zero h0)
  obtain ⟨-, hlast⟩ := h.tableAt hi (Nat.sub_one_lt h0)
  rw [← Nat.add_sub_assoc (Nat.pos_of_ne_zero h0)] at hlast
  obtain ⟨hmax, hptr⟩ := h.lutAt hi (LutEntry.ofRun_of_present _ _ h0).symm
  rw [Nat.add_zero] at hfirst hbase
  simp only [hfirst, hlast] at hmax hptr
  rw [hmax, hptr, BitVec.toInt_ofInt_eq_self (by omega) (by omega) (by omega),
    BitVec.toInt_ofInt_eq_self (by omega) (by omega) (by omega)]
  omega

/-! ## The loop -/

/-- The bits of a number, its top bit first. -/
theorem msbBits_succ (n v : Nat) : msbBits (n + 1) v = v.testBit n :: msbBits n v := by
  rw [msbBits, List.range_succ_eq_map, List.map_cons, List.map_map, msbBits]
  refine congrArg _ (List.map_congr_left fun i _ => ?_)
  rw [Function.comp_apply, Nat.succ_eq_add_one]
  congr 1
  omega

/-- Reading one more bit of a number. -/
theorem two_mul_shiftRight_add_testBit (v n : Nat) : 2 * (v >>> (n + 1)) + (v.testBit n).toNat = v >>> n := by
  rw [Nat.toNat_testBit, Nat.shiftRight_succ, Nat.shiftRight_eq_div_pow]
  omega

/-- The loop on a word of `L` bits, its last `r + 1` bits to come: where MAX is below the word cut to every shorter length
and not below the word at its own, it gives the symbol at PTR there and the bits after the word (41_decoder_lookup R134). -/
theorem decodeSymbolFrom_msbBits {s : State} {n : SlotId} {code L : Nat} (rest : List Bool)
    (hbelow : ∀ r, 1 ≤ r → r < L → (s.lutMaxAt n (L - r)).toInt < ((code >>> r : Nat) : Int))
    (hat : (code : Int) ≤ (s.lutMaxAt n L).toInt) (left : Nat) {r : Nat} (hr : r < L) :
    decodeSymbolFrom s n (left + r + 1) (L - r) (code >>> (r + 1)) (msbBits (r + 1) code ++ rest) =
      some ((s.valAt n ((s.lutPtrAt n L).toInt + code).toNat).toNat, rest) := by
  induction r with
  | zero =>
    rw [msbBits_succ, List.cons_append, decodeSymbolFrom, two_mul_shiftRight_add_testBit]
    exact if_pos hat
  | succ r ih =>
    rw [msbBits_succ, List.cons_append, decodeSymbolFrom, two_mul_shiftRight_add_testBit]
    refine (if_neg (Int.not_le.2 (hbelow (r + 1) (Nat.le_add_left 1 r) hr))).trans ?_
    rw [show L - (r + 1) + 1 = L - r by omega]
    exact ih (by omega)

/-- MAX of a shorter length is below a code cut to it (41_decoder_lookup R134). -/
theorem State.SlotReady.lutMaxAt_lt {s : State} {n : SlotId} (h : s.SlotReady n) {i r code : Nat} (hi : i < 16)
    (hcode : codeFirst (s.counts n) (i + 1) ≤ code) (h1 : 1 ≤ r) (hr : r < i + 1) :
    (s.lutMaxAt n (i + 1 - r)).toInt < ((code >>> r : Nat) : Int) := by
  obtain ⟨l, rfl⟩ : ∃ l, i = l + r := ⟨i - r, by omega⟩
  obtain ⟨d, rfl⟩ : ∃ d, r = d + 1 := ⟨r - 1, by omega⟩
  rw [show l + (d + 1) + 1 - (d + 1) = l + 1 by omega]
  by_cases h0 : (s.counts n).getD l 0 = 0
  · rw [h.lutMaxAt_of_absent (by omega) h0]
    exact Int.lt_of_lt_of_le (by decide) (Int.natCast_nonneg _)
  · have hcut : codeFirst (s.counts n) (l + 1) + (s.counts n).getD l 0 ≤ code >>> (d + 1) := by
      rw [Nat.shiftRight_eq_div_pow, Nat.le_div_iff_mul_le (Nat.two_pow_pos _)]
      exact (codeFirst_add_mul_le (s.counts n) l d).trans hcode
    obtain ⟨hmax, -⟩ := h.lutAt_of_present (by omega) h0
    generalize code >>> (d + 1) = cut at hcut ⊢
    omega

/-- A position found holds the symbol, below NVAL (40_code_builder R111). -/
theorem State.position_spec {s : State} {n : SlotId} {sym k : Nat} (h : s.position n sym = some k) :
    k < (s.nvalAt n).toNat ∧ (s.valAt n k).toNat = sym :=
  ⟨(List.mem_range.1 (List.mem_of_find?_eq_some h)).trans_le (Nat.min_le_left _ _), by simpa using List.find?_some h⟩

/-- Settles O43: a code word lies in the run of its length, above those of the shorter ones, and PTR leads from the code to
its position. -/
theorem decodingACodeGivesItsSymbol : Obligations.DecodingACodeGivesItsSymbol := by
  intro s n sym code length rest h henc
  obtain ⟨k, hk, hentry⟩ := Option.map_eq_some_iff.1 henc
  obtain ⟨rfl, rfl⟩ := Prod.mk.inj hentry
  obtain ⟨hkn, hval⟩ := State.position_spec hk
  obtain ⟨i, j, hi, hj, rfl⟩ := exists_eq_codeBase_add (h.sum_counts.1.symm ▸ hkn)
  rw [s.length_counts] at hi
  obtain ⟨hlen, hcode⟩ := h.tableAt hi hj
  have h0 : (s.counts n).getD i 0 ≠ 0 := by omega
  obtain ⟨hmax, hptr⟩ := h.lutAt_of_present hi h0
  have hfit : codeFirst (s.counts n) (i + 1) + (s.counts n).getD i 0 ≤ 2 ^ (i + 1) := (h.fits hi).resolve_left h0
  rw [hlen, hcode]
  have hloop := decodeSymbolFrom_msbBits rest (fun r => h.lutMaxAt_lt hi (Nat.le_add_right _ j))
    (show ((codeFirst (s.counts n) (i + 1) + j : Nat) : Int) ≤ (s.lutMaxAt n (i + 1)).toInt by omega)
    (15 - i) (Nat.lt_succ_self i)
  rw [Nat.shiftRight_eq_zero _ _ (by omega), show 15 - i + i + 1 = Config.maxLen by simp only [Config.maxLen]; omega,
    Nat.add_sub_cancel_left, hptr,
    show ((codeBase (s.counts n) (i + 1) : Int) - codeFirst (s.counts n) (i + 1) +
      (codeFirst (s.counts n) (i + 1) + j : Nat)).toNat = codeBase (s.counts n) (i + 1) + j by omega, hval] at hloop
  exact hloop

end Sys2Proof.Machine
end

section
/-! What a part of the block encoder that ends OK has put, on any sink (spec/43_block_encoder.md rules R181 to R184,
spec/42_bit_packer.md rule R155): exactly the bits of its layout, where `Wrote` does not say which ones are buffered. -/

namespace Sys2Proof.Machine

/-- Where the part ends OK its layout names no fault, exactly the layout's bits entered the packer, and the packer is within
its bounds. -/
def PutsWhenOk (s : State) (l : Layout) (e : Ended) : Prop :=
  s.PackerOk → ∀ t, e = .ok t → l.2 = none ∧ Emits s t l.1 ∧ t.PackerOk

theorem Emits.refl (s : State) : Emits s s [] := ⟨[], by simp, by simp⟩

theorem PutsWhenOk.nothing (s : State) : PutsWhenOk s ([], none) (.ok s) := by
  rintro hp t ⟨⟩
  exact ⟨rfl, .refl s, hp⟩

theorem PutsWhenOk.of_raised (s : State) (l : Layout) (c : Cause) (t : State) : PutsWhenOk s l (.raised c t) :=
  fun _ _ h => nomatch h

/-- `put_bits` before a part (42_bit_packer R151). -/
theorem PutsWhenOk.put {s : State} {l : Layout} {code : BitVec 16} {length : Nat} {f : State → Ended} (h16 : length ≤ 16)
    (hf : ∀ t, PackerFrame s t → PutsWhenOk t l (f t)) :
    PutsWhenOk s (l.after (msbBits length code.toNat)) ((putBits code length s).andThen f) := by
  have hframe := (putBits_part code length s).frame
  cases hput : putBits code length s with
  | raised c t => exact .of_raised s _ c t
  | ok t =>
    intro hp u hu
    rw [hput] at hframe
    obtain ⟨hem, htp⟩ := putBits_of_ok hp h16 hput
    obtain ⟨hnone, hem', hup⟩ := hf t hframe htp u hu
    exact ⟨hnone, hem.trans hem', hup⟩

/-- A symbol before a part (43_block_encoder R181). -/
theorem PutsWhenOk.sym {s : State} {l : Layout} {n : SlotId} {sym : Nat} {f : State → Ended} (h16 : s.ShortCodes n)
    (hf : ∀ t, PackerFrame s t → PutsWhenOk t l (f t)) :
    PutsWhenOk s (symLayout n (s.book n) sym l) ((emitSym n sym s).andThen f) := by
  unfold symLayout emitSym State.book
  cases he : s.enc n sym with
  | none => exact .of_raised s _ _ _
  | some e => exact .put (h16 sym e.1 e.2 he) hf

/-- Magnitude bits before a part (30_encoding R85). -/
theorem PutsWhenOk.magnitude {s : State} {l : Layout} {v : Int} {f : State → Ended} (h16 : cat v ≤ 16)
    (hf : ∀ t, PackerFrame s t → PutsWhenOk t l (f t)) :
    PutsWhenOk s (l.after (magnitudeBits v)) ((emitMagnitude v (cat v) s).andThen f) := by
  have h := PutsWhenOk.put (s := s) (code := BitVec.ofNat 16 (magbits v (cat v))) h16 hf
  rwa [magbits_code h16] at h

/-- ZRL codes before a part (43_block_encoder R183). -/
theorem PutsWhenOk.zrls {a : SlotId} {l : Layout} {f : State → Ended} (n : Nat) {s : State} (h16 : s.ShortCodes a)
    (hf : ∀ t, PackerFrame s t → PutsWhenOk t l (f t)) :
    PutsWhenOk s (zrlLayout a (s.book a) n l) ((emitZrls a n s).andThen f) := by
  induction n generalizing s with
  | zero => exact hf s (.refl s)
  | succ n ih =>
    rw [emitZrls, Ended.andThen_assoc]
    refine .sym h16 fun t ht => ?_
    rw [← ht.book a]
    exact ih (ht.shortCodes h16) fun u hu => hf u (ht.trans hu)

/-- The coefficients of the scan positions from `k` on. -/
def State.scanFrom (s : State) (k n : Nat) : List Int := (List.range' k n).map fun k => (s.coefAt (zigzagAt k)).toInt

theorem State.scanFrom_succ (s : State) (k n : Nat) :
    s.scanFrom k (n + 1) = (s.coefAt (zigzagAt k)).toInt :: s.scanFrom (k + 1) n := rfl

theorem State.acScan_eq_scanFrom (s : State) : s.acScan = s.scanFrom 1 63 := by
  have hpositions : acPositions = List.range' 1 63 := by decide
  rw [State.acScan, hpositions, State.scanFrom]

theorem PackerFrame.scanFrom {s t : State} (h : PackerFrame s t) (k n : Nat) : t.scanFrom k n = s.scanFrom k n := by
  simp only [State.scanFrom, h.coefAt]

/-- The AC pass over the scan positions from `k` on (43_block_encoder R183, R184). -/
theorem acPass_putsWhenOk {a : SlotId} (n k run : Nat) {s : State} (h16 : s.ShortCodes a) :
    PutsWhenOk s (acLayout a (s.book a) k run (s.scanFrom k n)) (acPass a (List.range' k n) run s) := by
  induction n generalizing k run s with
  | zero =>
    change PutsWhenOk s (acLayout a (s.book a) k run []) (endOfBlock a run s)
    rw [acLayout, endOfBlock]
    split_ifs
    · rw [← Ended.andThen_ok_right (emitSym _ _ _)]
      exact .sym h16 fun t _ => .nothing t
    · exact .nothing s
  | succ n ih =>
    rw [State.scanFrom_succ, List.range'_succ, acLayout, acPass]
    by_cases h0 : (s.coefAt (zigzagAt k)).toInt = 0
    · simp only [h0, if_true]
      exact ih (k + 1) (run + 1) h16
    · simp only [h0, if_false]
      rw [emitCoef, Ended.andThen_assoc]
      refine .zrls (run / 16) h16 fun t ht => ?_
      by_cases h15 : cat (s.coefAt (zigzagAt k)).toInt > 15
      · rw [if_pos h15, if_pos h15]
        exact .of_raised t _ _ _
      · rw [if_neg h15, if_neg h15, Ended.andThen_assoc, ← ht.book a, acSymbol_eq _ (by omega)]
        refine .sym (ht.shortCodes h16) fun u hu => .magnitude (by omega) fun w hw => ?_
        have hsw := ht.trans (hu.trans hw)
        rw [ht.book a, ← hsw.book a, ← hsw.scanFrom]
        exact ih (k + 1) 0 (hsw.shortCodes h16)

/-- The body of ENCBLK (43_block_encoder R182 to R184): the predictor, which it writes first, is no part of the packer. -/
theorem encblkBody_putsWhenOk {comp : Comp} {d a : SlotId} {s : State} (hd : s.ShortCodes d) (ha : s.ShortCodes a)
    (hc : cat (s.diff comp) ≤ 16) :
    PutsWhenOk s (s.blockLayout comp d a) ((dcPass comp d s).andThen (acPass a acPositions 0)) := by
  have hpositions : acPositions = List.range' 1 63 := by decide
  rw [dcPass, Ended.andThen_assoc, State.blockLayout, s.acScan_eq_scanFrom, hpositions]
  refine PutsWhenOk.sym (s := s.setPred comp ((s.coefAt 0).signExtend 32)) hd fun t ht => .magnitude hc fun u hu => ?_
  have hsu := ht.trans hu
  have hpass := acPass_putsWhenOk (a := a) 63 1 0 (hsu.shortCodes ha)
  rw [hsu.book, hsu.scanFrom] at hpass
  exact hpass

end Sys2Proof.Machine
end

section
/-! The round trip of a block (spec/41_decoder_lookup.md rules R135 and R136): the decoder reads the items of a block's layout
back one by one, and the block it has rebuilt agrees with COEF on the scan positions behind it. -/

namespace Sys2Proof.Machine

/-! ## Symbols and values read back -/

/-- Settles O42: the magnitude bits tell the sign, and each sign's branch undoes its formula. -/
theorem extendUndoesMagnitudeBits : Obligations.ExtendUndoesMagnitudeBits := by
  intro v
  obtain rfl | hv := eq_or_ne v 0
  · rfl
  obtain ⟨hpos, hneg⟩ := magnitudeBitsTellTheSign v hv
  obtain ⟨h1, -⟩ := (eq_cat_iff hv).1 rfl
  rw [extend, if_neg (Nat.ne_of_gt h1)]
  obtain hlt | hgt := lt_or_gt_of_ne hv
  · obtain ⟨hm, htop⟩ := hneg hlt
    rw [if_neg (Nat.not_le.2 htop), hm]
    omega
  · obtain ⟨hm, htop⟩ := hpos hgt
    rw [if_pos htop, hm]

theorem readBits_msbBits (acc c v : Nat) (rest : List Bool) :
    readBits acc c (msbBits c v ++ rest) = some (acc * 2 ^ c + v % 2 ^ c, rest) := by
  induction c generalizing acc with
  | zero => simp [readBits, msbBits, Nat.mod_one]
  | succ c ih =>
    rw [msbBits_succ, List.cons_append, readBits, ih, Nat.toNat_testBit, Nat.mod_pow_succ]
    congr 2
    ring

/-- The magnitude bits of a value read back as it (41_decoder_lookup R135). -/
theorem readValue_magnitudeBits (v : Int) (rest : List Bool) :
    readValue (cat v) (magnitudeBits v ++ rest) = some (v, rest) := by
  rw [readValue, magnitudeBits, readBits_msbBits, Nat.zero_mul, Nat.zero_add, Nat.mod_eq_of_lt (magbits_lt v _)]
  exact congrArg (fun x => some (x, rest)) (extendUndoesMagnitudeBits v)

/-- A value read back from a layout that begins with its magnitude bits. -/
theorem readValue_after (v : Int) (l : Layout) (rest : List Bool) :
    readValue (cat v) ((l.after (magnitudeBits v)).1 ++ rest) = some (v, l.1 ++ rest) := by
  rw [Layout.after, List.append_assoc, readValue_magnitudeBits]

/-- A symbol that a layout without a fault begins with is in the book, and decodes (41_decoder_lookup R134). -/
theorem decodeSymbol_symLayout {s : State} {n : SlotId} (h : s.SlotReady n) {sym : Nat} {l : Layout}
    (hl : (symLayout n (s.book n) sym l).2 = none) :
    l.2 = none ∧ ∀ rest,
      decodeSymbol s n ((symLayout n (s.book n) sym l).1 ++ rest) = some (sym, l.1 ++ rest) := by
  unfold symLayout State.book at *
  cases he : s.enc n sym with
  | none => simp [he] at hl
  | some e =>
    simp only [he, Option.map_some, Layout.after] at hl ⊢
    refine ⟨hl, fun rest => ?_⟩
    rw [List.append_assoc]
    exact decodingACodeGivesItsSymbol s n sym e.1 e.2 (l.1 ++ rest) h he

/-! ## The decoder's loop, symbol by symbol (41_decoder_lookup R136) -/

section
variable {s : State} {a : SlotId} {left k : Nat} {blk : List Int} {bits rest : List Bool}

/-- Past position 63 the block is done. -/
theorem decodeAc_of_done (hk : 63 < k) : decodeAc s a left k blk bits = some (blk, bits) := by
  cases left <;> exact if_neg (Nat.not_le.2 hk)

theorem decodeAc_of_zrl (hk : k ≤ 63) (h : decodeSymbol s a bits = some (zrlSymbol, rest)) :
    decodeAc s a (left + 1) k blk bits = decodeAc s a left (k + 16) blk rest := by
  rw [decodeAc, if_pos hk, h]
  rfl

theorem decodeAc_of_eob (hk : k ≤ 63) (h : decodeSymbol s a bits = some (eobSymbol, rest)) :
    decodeAc s a (left + 1) k blk bits = some (blk, rest) := by
  rw [decodeAc, if_pos hk, h]
  rfl

theorem decodeAc_of_coef {run c : Nat} {v : Int} {rest' : List Bool} (hk : k + run ≤ 63) (h1 : 1 ≤ c) (h15 : c ≤ 15)
    (h : decodeSymbol s a bits = some (16 * run + c, rest)) (hv : readValue c rest = some (v, rest')) :
    decodeAc s a (left + 1) k blk bits = decodeAc s a left (k + run + 1) (blk.set (zigzagAt (k + run)) v) rest' := by
  have hmod : (16 * run + c) % 16 = c := by omega
  have hdiv : (16 * run + c) / 16 = run := by omega
  rw [decodeAc, if_pos (by omega), h]
  simp only [hmod, hdiv, if_neg (Nat.ne_of_gt h1), if_pos hk, hv]

/-- ZRL codes move the decoder sixteen positions on each. -/
theorem decodeAc_zrlLayout (h : s.SlotReady a) (n : Nat) {l : Layout} (hk : k + 16 * n ≤ 63)
    (hl : (zrlLayout a (s.book a) n l).2 = none) :
    l.2 = none ∧ ∀ rest, decodeAc s a (left + n) k blk ((zrlLayout a (s.book a) n l).1 ++ rest) =
      decodeAc s a left (k + 16 * n) blk (l.1 ++ rest) := by
  induction n generalizing k with
  | zero => exact ⟨hl, fun _ => rfl⟩
  | succ n ih =>
    obtain ⟨hl, hsym⟩ := decodeSymbol_symLayout h hl
    obtain ⟨hl, hrest⟩ := ih (k := k + 16) (by omega) hl
    refine ⟨hl, fun rest => ?_⟩
    rw [← Nat.add_assoc, zrlLayout, decodeAc_of_zrl (by omega) (hsym rest), hrest,
      show k + 16 + 16 * n = k + 16 * (n + 1) by omega]

end

/-! ## The block rebuilt -/

theorem zigzagAt_injective {p q : Nat} (hp : p < 64) (hq : q < 64) (h : zigzagAt p = zigzagAt q) : p = q := by
  have hnodup : Config.zigzag.Nodup := by decide
  have hlen : Config.zigzag.length = 64 := by decide
  rw [zigzagAt, zigzagAt, List.getD_eq_getElem _ _ (by omega), List.getD_eq_getElem _ _ (by omega)] at h
  exact (hnodup.getElem_inj_iff).1 h

theorem zigzagAt_lt {q : Nat} (hq : q < 64) : zigzagAt q < 64 := by
  have hall : ∀ q < 64, zigzagAt q < 64 := by decide
  exact hall q hq

/-- Every natural index has a scan position (10_state R29). -/
theorem exists_zigzagAt_eq {i : Nat} (hi : i < 64) : ∃ q < 64, zigzagAt q = i := by
  have hall : ∀ i < 64, i ∈ Config.zigzag := by decide
  obtain ⟨q, hq, rfl⟩ := List.getElem_of_mem (hall i hi)
  exact ⟨q, hq, List.getD_eq_getElem _ _ hq⟩

/-- The block rebuilt so far: COEF at the scan positions below `k`, 0 at the others. -/
structure State.Rebuilt (s : State) (k : Nat) (blk : List Int) : Prop where
  length : blk.length = 64
  behind : ∀ q, q < 64 → q < k → blk.getD (zigzagAt q) 0 = (s.coefAt (zigzagAt q)).toInt
  ahead : ∀ q, q < 64 → k ≤ q → blk.getD (zigzagAt q) 0 = 0

/-- A zero coefficient is rebuilt already. -/
theorem State.Rebuilt.skip {s : State} {k : Nat} {blk : List Int} (h : s.Rebuilt k blk)
    (h0 : (s.coefAt (zigzagAt k)).toInt = 0) : s.Rebuilt (k + 1) blk where
  length := h.length
  behind q hq hk := by
    obtain hlt | rfl := Nat.lt_succ_iff_lt_or_eq.1 hk
    · exact h.behind q hq hlt
    · rw [h.ahead q hq (Nat.le_refl q), h0]
  ahead q hq hk := h.ahead q hq (Nat.le_of_succ_le hk)

/-- Writing a list at one index, read at another. -/
theorem getD_set_of_ne {l : List Int} {i j : Nat} (h : i ≠ j) (v : Int) : (l.set i v).getD j 0 = l.getD j 0 := by
  rw [List.getD_eq_getElem?_getD, List.getElem?_set_ne h, List.getD_eq_getElem?_getD]

/-- Writing the coefficient at its natural index rebuilds it. -/
theorem State.Rebuilt.set {s : State} {k : Nat} {blk : List Int} (h : s.Rebuilt k blk) (hk64 : k < 64) :
    s.Rebuilt (k + 1) (blk.set (zigzagAt k) (s.coefAt (zigzagAt k)).toInt) where
  length := by rw [List.length_set, h.length]
  behind q hq hk := by
    obtain hlt | rfl := Nat.lt_succ_iff_lt_or_eq.1 hk
    · rw [getD_set_of_ne fun he => Nat.ne_of_gt hlt (zigzagAt_injective hk64 hq he), h.behind q hq hlt]
    · rw [List.getD_eq_getElem?_getD, List.getElem?_set_self (h.length ▸ zigzagAt_lt hq), Option.getD_some]
  ahead q hq hk := by
    rw [getD_set_of_ne fun he => Nat.ne_of_lt hk (zigzagAt_injective hk64 hq he), h.ahead q hq (Nat.le_of_succ_le hk)]

/-- A block rebuilt to its end is the block. -/
theorem State.Rebuilt.eq_block {s : State} {blk : List Int} (h : s.Rebuilt 64 blk) : blk = s.block := by
  refine List.ext_getElem (by simp [State.block, h.length]) fun i hi _ => ?_
  obtain ⟨q, hq, rfl⟩ := exists_zigzagAt_eq (h.length ▸ hi)
  rw [← List.getD_eq_getElem _ 0, h.behind q hq hq]
  simp [State.block]

/-- The block with its DC coefficient only. -/
theorem State.rebuilt_one (s : State) : s.Rebuilt 1 ((List.replicate 64 0).set 0 (s.coefAt 0).toInt) := by
  have hzero : s.Rebuilt 0 (List.replicate 64 0) :=
    ⟨List.length_replicate, fun _ _ hk => absurd hk (Nat.not_lt_zero _),
      fun q hq _ => List.getD_replicate _ (zigzagAt_lt hq)⟩
  exact hzero.set (by omega)

/-! ## The round trip -/

/-- The layout of the coefficients from scan position `k + run` on, `run` zeros before them, decodes from position `k` to the
block, whose earlier coefficients are rebuilt (41_decoder_lookup R136). -/
theorem decodeAc_acLayout {s : State} {a : SlotId} (h : s.SlotReady a) (n : Nat) {left k run : Nat} {blk : List Int}
    (hn : k + run + n = 64) (hleft : 64 ≤ left + k) (hblk : s.Rebuilt (k + run) blk)
    (hl : (acLayout a (s.book a) (k + run) run (s.scanFrom (k + run) n)).2 = none) (rest : List Bool) :
    decodeAc s a left k blk ((acLayout a (s.book a) (k + run) run (s.scanFrom (k + run) n)).1 ++ rest) =
      some (s.block, rest) := by
  induction n generalizing left k run blk with
  | zero =>
    obtain rfl : blk = s.block := State.Rebuilt.eq_block (hn ▸ hblk)
    change (acLayout a (s.book a) (k + run) run []).2 = none at hl
    change decodeAc s a left k s.block ((acLayout a (s.book a) (k + run) run []).1 ++ rest) = _
    rw [acLayout] at hl ⊢
    by_cases hrun : run > 0
    · rw [if_pos hrun] at hl ⊢
      obtain ⟨left, rfl⟩ : ∃ m, left = m + 1 := ⟨left - 1, by omega⟩
      obtain ⟨-, hsym⟩ := decodeSymbol_symLayout h hl
      exact decodeAc_of_eob (by omega) (hsym rest)
    · rw [if_neg hrun]
      exact decodeAc_of_done (by omega)
  | succ n ih =>
    rw [State.scanFrom_succ, acLayout] at hl ⊢
    by_cases h0 : (s.coefAt (zigzagAt (k + run))).toInt = 0
    · rw [if_pos h0] at hl ⊢
      exact ih (run := run + 1) (by omega) hleft (hblk.skip h0) hl
    · rw [if_neg h0] at hl ⊢
      obtain ⟨left, rfl⟩ : ∃ m, left = m + 1 + run / 16 := ⟨left - 1 - run / 16, by omega⟩
      obtain ⟨hl, hzrls⟩ := decodeAc_zrlLayout (left := left + 1) (k := k) (blk := blk) h (run / 16) (by omega) hl
      rw [hzrls rest]
      by_cases h15 : cat (s.coefAt (zigzagAt (k + run))).toInt > 15
      · rw [if_pos h15] at hl
        cases hl
      · rw [if_neg h15] at hl ⊢
        obtain ⟨hl, hsym⟩ := decodeSymbol_symLayout h hl
        obtain ⟨h1, -⟩ := (eq_cat_iff h0).1 rfl
        have hpos : k + 16 * (run / 16) + run % 16 = k + run := by omega
        rw [decodeAc_of_coef (hpos.trans_le (by omega)) h1 (Nat.not_lt.1 h15) (hsym rest) (readValue_after _ _ rest), hpos]
        exact ih (run := 0) (by omega) (by omega) (hblk.set (by omega)) hl

/-- The layout of a block without a fault decodes to the block, the predictor continued (41_decoder_lookup R136). -/
theorem decodeBlock_blockLayout {s : State} {comp : Comp} {d a : SlotId} (hd : s.SlotReady d) (ha : s.SlotReady a)
    (hl : (s.blockLayout comp d a).2 = none) (rest : List Bool) :
    decodeBlock s (s.pred comp).toInt d a ((s.blockLayout comp d a).1 ++ rest) =
      some (s.block, (s.coefAt 0).toInt, rest) := by
  rw [State.blockLayout, s.acScan_eq_scanFrom] at hl ⊢
  obtain ⟨hl, hsym⟩ := decodeSymbol_symLayout hd hl
  have hac := decodeAc_acLayout ha 63 (left := 63) (k := 1) (run := 0) rfl (by omega) s.rebuilt_one hl rest
  have hpred : (s.pred comp).toInt + s.diff comp = (s.coefAt 0).toInt := by rw [State.diff]; omega
  rw [decodeBlock, hsym rest]
  simp only [readValue_after, hpred]
  exact congrArg (Option.map _) hac

/-- An ENCBLK that is admitted is its body (43_block_encoder R180). -/
theorem encblkCommand_of_admitted (comp : Comp) {d a : SlotId} {s : State} (hd : (s.slot d).built = true)
    (ha : (s.slot a).built = true) (hm : s.pkMode = .active) :
    encblkCommand comp d a s = (dcPass comp d s).andThen (acPass a acPositions 0) := by
  simp only [encblkCommand, whenBuilt, whenActive, hd, ha, hm, if_true]

/-- LASTERR is not 0 after a fault. -/
theorem State.lasterr_takeFault_ne_zero (s : State) (c : Cause) : (s.takeFault c).lasterr ≠ 0 := by
  obtain ⟨hlast, -⟩ := s.endedWith_takeFault c
  have hpos := c.code_pos
  intro h0
  rw [h0] at hlast
  change 0 = _ at hlast
  omega

/-- Settles O44: an ENCBLK that ends OK has put its block's layout, which decodes to the block. -/
theorem blockRoundTrip : Obligations.BlockRoundTrip := by
  intro comp dcidx acidx s hd ha hmode hp _ hpreds
  refine ⟨_, exec_eq_finish (.encblk comp dcidx acidx) s, fun h0 => ?_⟩
  rw [commandPart] at h0 ⊢
  generalize slotOf .dc dcidx = d at *
  generalize slotOf .ac acidx = a at *
  have hputs := encblkBody_putsWhenOk hd.tableOk.shortCodes ha.tableOk.shortCodes (hpreds.cat_diff_le comp) hp
  rw [← encblkCommand_of_admitted comp hd.built ha.built hmode] at hputs
  cases hend : encblkCommand comp d a s with
  | raised c t =>
    rw [hend] at h0
    exact absurd h0 (t.lasterr_takeFault_ne_zero c)
  | ok t =>
    obtain ⟨hnone, hemits, -⟩ := hputs t hend
    exact ⟨_, hemits, decodeBlock_blockLayout hd ha hnone⟩

end Sys2Proof.Machine
end

section
/-! PUTBITS, FLUSH and PKRST (spec/42_bit_packer.md rules R151 to R155): what they leave unchanged, how they are admitted, and
what they write on a sink that accepts. -/

namespace Sys2Proof.Machine

/-! ## Frame -/

/-- A command part that changes the packer and the sink's side only changes no store, no flag, no predictor and nothing of the
host's, its end recorded. -/
theorem PackerFrame.close_frame {s : State} {e : Ended} (h : PackerFrame s e.state) :
    SameStores s e.close ∧ SameFlagsBut (fun _ => False) s e.close ∧ SamePredsBut (fun _ => False) s e.close ∧
      SameHost s e.close := by
  refine ⟨fun x => (e.cell_close x).trans (h.cell x), fun m _ => ?_, ?_⟩
  · rw [Ended.slot_close, h.slot]
    exact ⟨rfl, rfl⟩
  · rw [e.onlyErrorRegisters_close, h]
    exact ⟨fun _ _ => rfl, rfl, rfl⟩

theorem resetPacker_frame (s : State) : PackerFrame s s.resetPacker := rfl

/-- Settles O29: the three commands' parts change the packer and the sink's side only. -/
theorem packerCommandsFrame : Obligations.PackerCommandsFrame := by
  intro i s t hi h
  rw [exec_eq_finish] at h
  cases h
  obtain ⟨code, length, rfl⟩ | rfl | rfl := hi
  · exact (putbitsCommand_frame code length s).close_frame
  · exact (flushCommand_frame s).close_frame
  · exact PackerFrame.close_frame (e := .ok s.resetPacker) (resetPacker_frame s)

/-! ## Admission -/

theorem whenActive_of_active {s : State} (h : s.pkMode = .active) (body : Ended) : whenActive s body = body := if_pos h

theorem whenActive_of_closed {s : State} (h : s.pkMode ≠ .active) (body : Ended) :
    whenActive s body = .raised (.packerClosed s.pkMode) s := if_neg h

/-- A command that is refused before its part has changed anything changes the error registers only (60_exceptions R230). -/
theorem Ended.endedWith_close_of_raised {e : Ended} {c : Cause} {s : State} (h : e = .raised c s) :
    EndedWith c s e.close ∧ OnlyErrorRegisters s e.close := by
  subst h
  exact ⟨s.endedWith_takeFault c, Ended.onlyErrorRegisters_close (.raised c s)⟩

/-- Settles O25: the packer is looked at first, then the length, and each check raises at the state it looked at. -/
theorem putbitsAdmission : Obligations.PutbitsAdmission := by
  intro code length s
  refine ⟨_, exec_eq_finish (.putbits code length) s, fun hm => ?_, fun hm h16 => ?_⟩
  · exact Ended.endedWith_close_of_raised (whenActive_of_closed hm _)
  · exact Ended.endedWith_close_of_raised ((whenActive_of_active hm _).trans (if_pos h16))

/-- Settles O27: the one check of FLUSH raises at the state it looked at. -/
theorem flushNeedsAnActivePacker : Obligations.FlushNeedsAnActivePacker := fun s hm =>
  ⟨_, exec_eq_finish .flush s, Ended.endedWith_close_of_raised (whenActive_of_closed hm _)⟩

/-- A PUTBITS that is admitted is `put_bits` (42_bit_packer R152). -/
theorem putbitsCommand_of_admitted (code : BitVec 16) {length : BitVec 8} {s : State} (hm : s.pkMode = .active)
    (h16 : length.toNat ≤ 16) : putbitsCommand code length s = putBits code length.toNat s :=
  (whenActive_of_active hm _).trans (if_neg (Nat.not_lt.2 h16))

/-- A FLUSH of an empty packer closes it (42_bit_packer R153). -/
theorem flushCommand_of_empty {s : State} (hm : s.pkMode = .active) (h0 : s.pkCnt = 0) :
    flushCommand s = .ok s.closePacker := by
  rw [flushCommand, whenActive_of_active hm, if_pos h0, Ended.andThen_ok]

/-- A FLUSH of a packer that buffers bits writes its top byte and closes it (42_bit_packer R153). -/
theorem flushCommand_of_buffered {s : State} (hm : s.pkMode = .active) (h0 : s.pkCnt ≠ 0) :
    flushCommand s = (emitByte s.topByte s).andThen fun t => .ok t.closePacker := by
  rw [flushCommand, whenActive_of_active hm, if_neg h0]

/-! ## What the commands do once admitted -/

theorem exec_of_ok {i : Instr} {s t : State} (h : commandPart i s = .ok t) : exec i s = .next t.endOk := by
  rw [exec_eq_finish, h]
  rfl

/-- Settles O24: `put_bits` of no bits does nothing, and the OK end clears LASTERR. -/
theorem putbitsOfNoBitsIsANoop : Obligations.PutbitsOfNoBitsIsANoop := fun code s hm =>
  ⟨s.endOk, exec_of_ok (putbitsCommand_of_admitted code hm (Nat.zero_le 16)), s.endedOk_endOk,
    (Ended.ok s).onlyErrorRegisters_close⟩

/-- Settles O28: PKRST has no check, and its part sets the packer's three registers. -/
theorem pkrstReopensThePacker : Obligations.PkrstReopensThePacker := fun s =>
  ⟨rfl, s.resetPacker.endOk, exec_of_ok rfl, ⟨rfl, rfl⟩, rfl, rfl, rfl, ⟨rfl, rfl⟩,
    PackerFrame.close_frame (e := .ok s.resetPacker) (resetPacker_frame s)⟩

/-- Settles O23: on an accepting sink `put_bits` ends OK, and then it has entered exactly the code's bits. -/
theorem putbitsEntersItsBits : Obligations.PutbitsEntersItsBits := by
  intro code length s hm hp ha h16
  obtain ⟨t, ht, -⟩ := putBits_accepts ha code length.toNat
  obtain ⟨hem, htp⟩ := putBits_of_ok hp h16 ht
  have hexec : exec (.putbits code length) s = .next t.endOk :=
    exec_of_ok ((putbitsCommand_of_admitted code hm h16).trans ht)
  have hpart := putBits_part code length.toNat s
  rw [ht] at hpart
  cases hpart with
  | ok _ frame mode =>
    exact ⟨t.endOk, hexec, t.endedOk_endOk.of_errstat_eq frame.errstat, mode.trans hm, htp, hem⟩

/-- The byte a FLUSH writes is not 0xFF: at most 7 bits are buffered, so its lowest bit is 0 (42_bit_packer R153). -/
theorem State.PackerOk.topByte_ne {s : State} (h : s.PackerOk) : s.topByte ≠ 0xFF := by
  obtain ⟨h7, hzeros⟩ := h
  have hlow : s.topByte.getLsbD 0 = false := by
    rw [State.topByte, BitVec.getLsbD_extractLsb']
    simpa using hzeros 24 (by omega)
  intro hff
  rw [hff] at hlow
  exact absurd hlow (by decide)

/-- Settles O26: on an accepting sink the top byte is written, without stuffing, where bits are buffered, and the packer is
closed. -/
theorem flushWritesTheFinalByte : Obligations.FlushWritesTheFinalByte := by
  intro s hm hp ha
  by_cases h0 : s.pkCnt = 0
  · exact ⟨_, exec_of_ok (flushCommand_of_empty hm h0), ⟨rfl, rfl⟩, rfl, rfl, rfl, fun _ => rfl, fun hne => absurd h0 hne⟩
  · obtain ⟨t, ht, -⟩ := emitByte_accepts ha s.topByte
    obtain ⟨hstr, -, -⟩ := emitByte_of_ok ht
    rw [stuffed_singleton hp.topByte_ne] at hstr
    have hflush := flushCommand_of_buffered hm h0
    have hframe := (emitByte_part s.topByte s).frame
    rw [ht] at hflush hframe
    exact ⟨_, exec_of_ok hflush, ⟨rfl, hframe.errstat⟩, rfl, rfl, rfl, fun he => absurd he h0,
      fun _ => ⟨s.topByte, hstr, hp.byteBits_topByte⟩⟩

end Sys2Proof.Machine
end

section
/-! A byte the sink refuses (spec/42_bit_packer.md rules R150 and R156, spec/60_exceptions.md rule R224): every command follows
the rule of the sink's answers. -/

namespace Sys2Proof.Machine

/-! ## Every command follows the rule -/

theorem SinkRule.whenActive {f : State → Ended} (hf : SinkRule f) : SinkRule fun s => whenActive s (f s) :=
  .ite (p := fun s => s.pkMode = .active) (fun _ _ => Iff.rfl) hf
    (.of_silent (f := fun s => .raised (.packerClosed s.pkMode) s) (fun _ _ => rfl) fun _ => rfl)

theorem SinkRule.whenBuilt (n : SlotId) {f : State → Ended} (hf : SinkRule f) : SinkRule fun s => whenBuilt n s (f s) :=
  .ite (p := fun s => (s.slot n).built = true) (fun _ _ => Iff.rfl) hf
    (.of_silent (f := fun s => .raised (.tableNotBuilt n) s) (fun _ _ => rfl) fun _ => rfl)

theorem buildSlot_answered (s : State) (n : SlotId) (l : List Bool) :
    buildSlot (s.answered l) n = (buildSlot s n).answered l := by
  cases hb : buildTable (s.nvalAt n).toNat (s.counts n) (s.symbols n (s.nvalAt n).toNat) with
  | error d =>
    rw [buildSlot_of_error hb, buildSlot_of_error (s := s.answered l) hb]
    rfl
  | ok t =>
    rw [buildSlot_of_ok hb, buildSlot_of_ok (s := s.answered l) hb]
    rfl

theorem buildLut_answered (s : State) (n : SlotId) (l : List Bool) :
    buildLut (s.answered l) n = (buildLut s n).answered l := by
  cases hb : (s.slot n).built with
  | false =>
    rw [buildLut_of_not_built hb, buildLut_of_not_built (s := s.answered l) hb]
    rfl
  | true =>
    rw [buildLut_of_built hb, buildLut_of_built (s := s.answered l) hb]
    rfl

theorem clearPred_answered (mask : BitVec 4) (s : State) (c : Comp) (l : List Bool) :
    clearPred mask (s.answered l) c = (clearPred mask s c).answered l := by
  unfold clearPred
  split_ifs <;> rfl

theorem putbitsCommand_rule (code : BitVec 16) (length : BitVec 8) : SinkRule (putbitsCommand code length) :=
  .whenActive <| .ite (p := fun _ => length.toNat > Config.putMax) (fun _ _ => Iff.rfl)
    (.of_silent (f := .raised (.invalidCodeLength length)) (fun _ _ => rfl) fun _ => rfl) (putBits_rule code length.toNat)

theorem flushCommand_rule : SinkRule flushCommand := by
  have hbyte : SinkRule fun s => emitByte s.topByte s := fun s => emitByte_rule s.topByte s
  have hclose : SinkRule fun s => .ok s.closePacker := .of_silent (fun _ _ => rfl) fun _ => rfl
  exact .whenActive ((SinkRule.ite (p := fun s => s.pkCnt = 0) (fun _ _ => Iff.rfl) .ok hbyte).andThen hclose)

theorem encblkCommand_rule (comp : Comp) (d a : SlotId) : SinkRule (encblkCommand comp d a) :=
  .whenBuilt d (.whenBuilt a (.whenActive ((dcPass_rule comp d).andThen (acPass_rule a acPositions 0))))

/-- Every command follows the rule of the sink's answers: PUTBITS, FLUSH and ENCBLK byte by byte, the others write nothing. -/
theorem commandPart_rule (i : Instr) : SinkRule (commandPart i) := by
  cases i with
  | ldstd cls idx std => exact .of_silent (fun _ _ => rfl) fun _ => rfl
  | build cls idx =>
    exact .of_silent (fun s l => buildSlot_answered s _ l) fun s => by rw [commandPart, buildSlot_frame]
  | bldlut cls idx =>
    exact .of_silent (fun s l => buildLut_answered s _ l) fun s => by rw [commandPart, buildLut_frame]
  | putbits code length => exact putbitsCommand_rule code length
  | flush => exact flushCommand_rule
  | pkrst => exact .of_silent (fun _ _ => rfl) fun _ => rfl
  | encblk comp dcidx acidx => exact encblkCommand_rule comp _ _
  | scanrst mask =>
    refine .of_silent (fun s l => ?_) fun s => by rw [commandPart, Ended.state_ok, foldl_clearPred_frame]
    exact congrArg Ended.ok (List.foldl_hom (State.answered · l) fun t c => clearPred_answered mask t c l)

/-! ## A part that a refused byte ended -/

/-- A refused byte ended the part: OutputFailure, the packer FAILED, these bytes in the stream and these answers to come. -/
def Ended.RefusedByte (e : Ended) (stream : List Byte) (answers : List Bool) : Prop :=
  ∃ t, e = .raised .outputFailure t ∧ t.pkMode = .failed ∧ t.stream = stream ∧ t.sinkAnswers = answers

theorem Ended.RefusedByte.andThen {e : Ended} {stream : List Byte} {answers : List Bool}
    (h : e.RefusedByte stream answers) (f : State → Ended) : (e.andThen f).RefusedByte stream answers := by
  obtain ⟨t, rfl, ht⟩ := h
  exact ⟨t, rfl, ht⟩

/-- Recording an end leaves the answers to come alone. -/
theorem Ended.close_answered (e : Ended) (l : List Bool) : (e.answered l).close = e.close.answered l := by
  cases e <;> rfl

/-- A command whose part a refused byte ended records OutputFailure and keeps the rest of what the part left. -/
theorem Ended.RefusedByte.exec_next {i : Instr} {s : State} {stream : List Byte} {answers : List Bool}
    (h : (commandPart i s).RefusedByte stream answers) :
    ∃ t, exec i s = .next t ∧ EndedWith .outputFailure s t ∧ t.pkMode = .failed ∧ t.stream = stream ∧
      t.sinkAnswers = answers := by
  obtain ⟨t, ht, hm, hs, ha⟩ := h
  have herr := commandPart_errstat i s
  rw [ht] at herr
  exact ⟨t.takeFault .outputFailure, by rw [exec_eq_finish, ht]; rfl, (t.endedWith_takeFault _).of_errstat_eq herr, hm, hs,
    ha⟩

section
variable {s : State} {rest : List Bool}

theorem sinkWrite_refused (h : s.sinkAnswers = false :: rest) (b : Byte) : (sinkWrite b s).RefusedByte s.stream rest := by
  rw [sinkWrite_eq, h, List.head?_cons, if_pos rfl]
  exact ⟨_, rfl, rfl, rfl, rfl⟩

theorem emitByte_refused (h : s.sinkAnswers = false :: rest) (b : Byte) : (emitByte b s).RefusedByte s.stream rest :=
  (sinkWrite_refused h b).andThen _

/-- A refused stuffing byte leaves its 0xFF bare (42_bit_packer R156). -/
theorem emitByte_refused_stuffing (h : s.sinkAnswers = true :: false :: rest) :
    (emitByte 0xFF s).RefusedByte (s.stream ++ [0xFF]) rest := by
  have htaken : sinkWrite 0xFF s = .ok { s with sinkAnswers := false :: rest, stream := s.stream ++ [0xFF] } := by
    rw [sinkWrite_eq, h]
    rfl
  rw [emitByte, htaken, Ended.andThen_ok, if_pos rfl]
  exact sinkWrite_refused rfl 0x00

theorem drain_refused (h : s.sinkAnswers = false :: rest) (n : Nat) : (drain (n + 1) s).RefusedByte s.stream rest :=
  (emitByte_refused (s := { s with pkReg := s.pkReg <<< 8, pkCnt := s.pkCnt - 8 }) h s.topByte).andThen (drain n)

/-- `put_bits` that completes a byte tries to write one (42_bit_packer R151). -/
theorem putBits_refused (h : s.sinkAnswers = false :: rest) (code : BitVec 16) {length : Nat} (h0 : length ≠ 0)
    (h8 : 8 ≤ s.pkCnt.toNat + length) : (putBits code length s).RefusedByte s.stream rest := by
  obtain ⟨n, hn⟩ : ∃ n, (s.pkCnt.toNat + length) / 8 = n + 1 := ⟨_, (Nat.sub_add_cancel (by omega)).symm⟩
  simp only [putBits, if_neg h0, hn]
  refine drain_refused ?_ n
  exact h

theorem drain_one (s : State) :
    drain 1 s = emitByte s.topByte { s with pkReg := s.pkReg <<< 8, pkCnt := s.pkCnt - 8 } := by
  have hdone : drain 0 = .ok := funext fun _ => rfl
  rw [drain, hdone, Ended.andThen_ok_right]

/-- Eight 1-bits in an empty packer are the byte 0xFF, written with its stuffing byte (42_bit_packer R150, R151). -/
theorem putBits_ff_of_empty (hc : s.pkCnt = 0) (hr : s.pkReg = 0) :
    putBits 0xFF 8 s = emitByte 0xFF { s with pkReg := 0, pkCnt := 0 } :=
  calc putBits 0xFF 8 s
      = drain 1 { s with pkReg := 0xFF000000, pkCnt := 8 } := by simp [putBits, hc, hr]
    _ = emitByte ((0xFF000000 : Word).extractLsb' 24 8)
          { s with pkReg := 0xFF000000 <<< 8, pkCnt := 8 - 8 } := drain_one _
    _ = emitByte 0xFF { s with pkReg := 0, pkCnt := 0 } := by simp

end

/-- Settles O30: a command's part follows the rule of the sink's answers; and in the three cases spelled out the refused byte is
the first of a `put_bits`, the only data byte of a FLUSH, and the stuffing byte of an 0xFF. -/
theorem sinkRefusalFailsThePacker : Obligations.SinkRefusalFailsThePacker := by
  refine ⟨fun i s u hu => ?_, fun code length s rest hm h16 h8 h0 ha => ?_, fun s rest hm h0 ha => ?_,
    fun s rest hm hc hr ha => ?_⟩
  · rw [exec_eq_finish] at hu
    cases hu
    obtain ⟨bytes, hstr, hacc, href⟩ := commandPart_rule i s
    refine ⟨bytes, (Ended.stream_close _).trans hstr, fun n rest hn ha => Ended.RefusedByte.exec_next ?_, fun hall => ?_⟩
    · have hrefused := href n rest hn
      rw [← ha] at hrefused
      exact hrefused
    · have hrun : commandPart i s = _ := hacc s.sinkAnswers hall
      rw [exec_eq_finish, finish, hrun, Ended.close_answered]
      rfl
  · refine Ended.RefusedByte.exec_next ?_
    rw [commandPart, putbitsCommand_of_admitted code hm h16]
    exact putBits_refused ha code (fun h => h0 (BitVec.eq_of_toNat_eq h)) h8
  · refine Ended.RefusedByte.exec_next ?_
    rw [commandPart, flushCommand_of_buffered hm h0]
    exact (emitByte_refused ha _).andThen _
  · refine Ended.RefusedByte.exec_next ?_
    rw [commandPart, putbitsCommand_of_admitted _ hm (by decide)]
    exact (putBits_ff_of_empty hc hr).symm ▸ emitByte_refused_stuffing ha

end Sys2Proof.Machine
end

section
/-! ENCBLK and SCANRST (spec/43_block_encoder.md rules R180 to R188): what they leave unchanged, how ENCBLK is admitted, how
its body ends, and what it puts on a sink that accepts. The layout of the block names the fault that ends the body; where the
block has bits (spec/30_encoding.md rule R89) its layout is those bits and names none. -/

namespace Sys2Proof.Machine

/-! ## SCANRST -/

theorem pred_clearPred (mask : BitVec 4) (s : State) (c d : Comp) :
    (clearPred mask s d).pred c = if c = d ∧ mask.getLsbD d.val = true then 0 else s.pred c := by
  unfold clearPred
  by_cases hbit : mask.getLsbD d.val = true
  · rw [if_pos hbit, s.pred_setPred]
    simp only [hbit, and_true]
  · rw [if_neg hbit, if_neg fun h => hbit h.2]

/-- Clearing the selected ones of the listed predictors. -/
theorem pred_foldl_clearPred (mask : BitVec 4) (cs : List Comp) (s : State) (c : Comp) :
    (cs.foldl (clearPred mask) s).pred c = if c ∈ cs ∧ mask.getLsbD c.val = true then 0 else s.pred c := by
  induction cs generalizing s with
  | nil => simp
  | cons d cs ih =>
    rw [List.foldl_cons, ih, pred_clearPred]
    obtain rfl | hcd := eq_or_ne c d
    · by_cases hbit : mask.getLsbD c.val = true
      · simp only [hbit, and_self, if_true, ite_self, List.mem_cons_self]
      · simp only [hbit, Bool.false_eq_true, and_false, if_false]
    · simp only [hcd, false_and, if_false, List.mem_cons, false_or]

/-- Settles O39: SCANRST has no check, and its part clears the selected ones of the four predictors. -/
theorem scanrstClearsTheSelectedPredictors : Obligations.ScanrstClearsTheSelectedPredictors := by
  intro mask s
  obtain ⟨-, -, -, -, -, -, -, hword⟩ := commandWordFormulas
  refine ⟨hword mask ▸ decodeOfEncode (.scanrst mask), _, exec_of_ok rfl, ?_, fun c => ?_, fun e => ?_, fun m _ => ?_, ?_⟩
  · exact (State.endedOk_endOk _).of_errstat_eq (commandPart_errstat (.scanrst mask) s)
  · have hmem : c ∈ ([0, 1, 2, 3] : List Comp) := by revert c; decide
    rw [State.pred_endOk, pred_foldl_clearPred]
    simp only [hmem, true_and]
  · have hcoef : (([0, 1, 2, 3] : List Comp).foldl (clearPred mask) s).coef = s.coef := by rw [foldl_clearPred_frame]
    exact State.cell_congr (fun m => slot_foldl_clearPred mask _ s m) hcoef e
  · rw [State.slot_endOk, slot_foldl_clearPred]
    exact ⟨rfl, rfl⟩
  · rw [foldl_clearPred_frame]
    exact ⟨⟨rfl, rfl, rfl⟩, ⟨rfl, rfl⟩, rfl, rfl⟩

/-! ## ENCBLK: frame and admission -/

/-- Settles O38: the command's part changes the packer, the sink's side and its component's predictor only. -/
theorem encblkFrame : Obligations.EncblkFrame := by
  intro comp dcidx acidx s t h
  rw [exec_eq_finish] at h
  cases h
  obtain hf | hf := encblkCommand_frame comp (slotOf .dc dcidx) (slotOf .ac acidx) s
  · obtain ⟨hstores, hflags, hpreds, hhost⟩ := hf.close_frame
    exact ⟨hstores, hflags, fun c _ => hpreds c not_false, hhost⟩
  · obtain ⟨hstores, hflags, hpreds, hhost⟩ := hf.close_frame
    refine ⟨fun e => (hstores e).trans ?_, hflags, fun c hc => (hpreds c not_false).trans ?_, hhost⟩
    · exact State.cell_congr (fun _ => rfl) rfl e
    · rw [State.pred_setPred, if_neg hc]

theorem whenBuilt_of_built {n : SlotId} {s : State} (h : (s.slot n).built = true) (body : Ended) :
    whenBuilt n s body = body := if_pos h

theorem whenBuilt_of_not_built {n : SlotId} {s : State} (h : (s.slot n).built = false) (body : Ended) :
    whenBuilt n s body = .raised (.tableNotBuilt n) s := if_neg (Bool.eq_false_iff.1 h)

/-- Settles O34: each check raises at the state it looked at, the ones before it passed. -/
theorem encblkAdmission : Obligations.EncblkAdmission := by
  rintro comp dcidx acidx s _ _ rfl rfl
  refine ⟨_, exec_eq_finish (.encblk comp dcidx acidx) s, fun hd => ?_, fun hd ha => ?_, fun hd ha hm => ?_⟩
  · exact Ended.endedWith_close_of_raised (whenBuilt_of_not_built hd _)
  · exact Ended.endedWith_close_of_raised ((whenBuilt_of_built hd _).trans (whenBuilt_of_not_built ha _))
  · exact Ended.endedWith_close_of_raised
      ((whenBuilt_of_built hd _).trans ((whenBuilt_of_built ha _).trans (whenActive_of_closed hm _)))

/-! ## The end of an admitted ENCBLK -/

/-- The body of an ENCBLK (43_block_encoder R180). -/
abbrev encblkBody (comp : Comp) (d a : SlotId) (s : State) : Ended := (dcPass comp d s).andThen (acPass a acPositions 0)

/-- An ENCBLK that is admitted records the end of its body. -/
theorem exec_encblk_of_admitted (comp : Comp) {dcidx acidx : TableIdx} {s : State}
    (hd : (s.slot (slotOf .dc dcidx)).built = true) (ha : (s.slot (slotOf .ac acidx)).built = true)
    (hm : s.pkMode = .active) :
    exec (.encblk comp dcidx acidx) s = .next (encblkBody comp (slotOf .dc dcidx) (slotOf .ac acidx) s).close := by
  rw [exec_eq_finish, commandPart, encblkCommand_of_admitted comp hd ha hm]
  rfl

/-- Recording an end writes no predictor. -/
@[simp] theorem Ended.pred_close (e : Ended) (c : Comp) : e.close.pred c = e.state.pred c := by
  cases e <;> rfl

/-- However the body ends, the predictor is updated (43_block_encoder R182). -/
theorem pred_encblkBody_close (comp : Comp) (d a : SlotId) (s : State) :
    (encblkBody comp d a s).close.pred comp = (s.coefAt 0).signExtend 32 := by
  rw [Ended.pred_close, (encblkBody_part comp d a s).frame.pred, State.pred_setPred, if_pos rfl]

/-- How a command ends on a packer it found ACTIVE: OK and still ACTIVE, or with this cause and FAILED. -/
def EndsBy (s t : State) : Option Cause → Prop
  | none => EndedOk s t ∧ t.pkMode = .active
  | some c => EndedWith c s t ∧ t.pkMode = .failed

/-- On a sink that accepts, the body ends as its layout says (43_block_encoder R181 to R185). -/
theorem encblkBody_endsBy (comp : Comp) (d a : SlotId) {s : State} (hm : s.pkMode = .active) (ha : s.SinkAccepts) :
    EndsBy s (encblkBody comp d a s).close (s.blockLayout comp d a).2 := by
  obtain ⟨t, ht, hframe, hmode, -⟩ := encblkBody_follows (sizes := False) comp d a ha nofun nofun nofun
  have herr : t.errstat = s.errstat := hframe.errstat
  rw [encblkBody, ht]
  cases hl : (s.blockLayout comp d a).2 with
  | none =>
    rw [hl] at hmode
    exact ⟨t.endedOk_endOk.of_errstat_eq herr, hmode.trans hm⟩
  | some c =>
    rw [hl] at hmode
    exact ⟨(t.endedWith_takeFault c).of_errstat_eq herr, hmode⟩

/-- The causes a packer part can raise are OutputFailure, SymbolNotInTable and CoefRange, and it leaves the packer FAILED. -/
theorem PackerPart.cause_of_lasterr_ne_zero {s : State} {e : Ended} (h : PackerPart s e) (h0 : e.close.lasterr ≠ 0) :
    e.close.pkMode = .failed ∧ ∃ c : Cause, EndedWith c s e.close ∧ (c.code = 3 ∨ c.code = 7 ∨ c.code = 8) := by
  have herr := h.frame.errstat
  cases h with
  | ok t => exact absurd rfl h0
  | raised c t frame mode reg cnt cause =>
    refine ⟨mode, c, (t.endedWith_takeFault c).of_errstat_eq herr, ?_⟩
    obtain rfl | ⟨n, sym, rfl⟩ | ⟨k, rfl⟩ := cause
    · exact .inl rfl
    · exact .inr (.inl rfl)
    · exact .inr (.inr rfl)

/-- Settles O37: the body is a packer part of the state whose predictor is updated, and on an accepting sink its layout names
the end. -/
theorem encblkBodyFaultFailsThePacker : Obligations.EncblkBodyFaultFailsThePacker := by
  intro comp dcidx acidx s hd ha hm
  have hpart := encblkBody_part comp (slotOf .dc dcidx) (slotOf .ac acidx) s
  obtain ⟨bytes, hbytes⟩ := hpart.stream_prefix
  refine ⟨_, exec_encblk_of_admitted comp hd ha hm, pred_encblkBody_close comp _ _ s, ⟨bytes, ?_⟩,
    hpart.cause_of_lasterr_ne_zero, fun haccepts => ?_⟩
  · rw [Ended.stream_close]
    exact hbytes.symm
  · have hend := encblkBody_endsBy comp (slotOf .dc dcidx) (slotOf .ac acidx) hm haccepts
    cases hl : (s.blockLayout comp (slotOf .dc dcidx) (slotOf .ac acidx)).2 <;> rw [hl] at hend <;> exact hend

/-- Settles O35: the lookup of the DC symbol, right after the predictor's update, raises. -/
theorem encblkMissingDcSymbol : Obligations.EncblkMissingDcSymbol := by
  rintro comp dcidx acidx s _ rfl hd ha hm hmissing
  have hbody : encblkBody comp (slotOf .dc dcidx) (slotOf .ac acidx) s =
      bodyFault (.symbolNotInTable (slotOf .dc dcidx) (cat (s.diff comp)))
        (s.setPred comp ((s.coefAt 0).signExtend 32)) := by
    have hsym : (s.setPred comp ((s.coefAt 0).signExtend 32)).enc (slotOf .dc dcidx) (cat (s.diff comp)) = none := hmissing
    rw [State.diff] at hsym
    rw [encblkBody, dcPass, emitSym, hsym]
    rfl
  refine ⟨_, exec_encblk_of_admitted comp hd ha hm, ?_, ?_, ?_, pred_encblkBody_close comp _ _ s⟩ <;> rw [hbody]
  · exact (State.endedWith_takeFault _ _).of_errstat_eq rfl
  · rfl
  · exact ⟨rfl, rfl⟩

/-! ## The cause a layout ends with -/

section
variable {n a : SlotId} {book ac : CodeBook} {sym : Nat} {l : Layout}

theorem symLayout_of_absent (h : book sym = none) : symLayout n book sym l = ([], some (.symbolNotInTable n sym)) := by
  rw [symLayout, h]

theorem symLayout_of_present {code : List Bool} (h : book sym = some code) : symLayout n book sym l = l.after code := by
  rw [symLayout, h]

theorem cause_symLayout_of_isSome (h : (book sym).isSome) : (symLayout n book sym l).2 = l.2 := by
  obtain ⟨code, hcode⟩ := Option.isSome_iff_exists.1 h
  rw [symLayout_of_present hcode]
  rfl

theorem cause_zrlLayout_of_isSome (h : (ac zrlSymbol).isSome) (m : Nat) : (zrlLayout a ac m l).2 = l.2 := by
  induction m with
  | zero => rfl
  | succ m ih => rw [zrlLayout, cause_symLayout_of_isSome h, ih]

theorem zrlLayout_of_absent (h : ac zrlSymbol = none) {m : Nat} (hm : m ≠ 0) :
    zrlLayout a ac m l = ([], some (.symbolNotInTable a zrlSymbol)) := by
  obtain ⟨m, rfl⟩ := Nat.exists_eq_succ_of_ne_zero hm
  exact symLayout_of_absent h

end

theorem State.book_eq_none {s : State} {n : SlotId} {sym : Nat} (h : s.enc n sym = none) : s.book n sym = none := by
  rw [State.book, h]
  rfl

theorem State.book_isSome {s : State} {n : SlotId} {sym : Nat} (h : (s.enc n sym).isSome) : (s.book n sym).isSome := by
  rw [State.book, Option.isSome_map]
  exact h

/-- The layout passes over leading zeros. -/
theorem acLayout_of_zeros (a : SlotId) (ac : CodeBook) (k run : Nat) {r : Nat} {vs : List Int} (hr : r ≤ vs.length)
    (hz : ∀ j, j < r → vs.getD j 0 = 0) : acLayout a ac k run vs = acLayout a ac (k + r) (run + r) (vs.drop r) := by
  induction r generalizing k run vs with
  | zero => rfl
  | succ r ih =>
    cases vs with
    | nil => simp at hr
    | cons v vs =>
      obtain rfl : v = 0 := hz 0 (Nat.succ_pos r)
      rw [acLayout, if_pos rfl, ih _ _ (Nat.le_of_succ_le_succ hr) fun j hj => hz (j + 1) (Nat.succ_lt_succ hj),
        List.drop_succ_cons]
      congr 1 <;> omega

@[simp] theorem State.length_acScan (s : State) : s.acScan.length = 63 := by
  rw [State.acScan_eq_scanFrom, State.scanFrom, List.length_map, List.length_range']

theorem State.getD_acScan (s : State) {r : Nat} (hr : r < 63) :
    s.acScan.getD r 0 = (s.coefAt (zigzagAt (r + 1))).toInt := by
  rw [List.getD_eq_getElem _ _ (s.length_acScan.symm ▸ hr)]
  simp [State.acScan, acPositions]

/-- Of the coefficients only -32768 has a category above 15 (43_block_encoder R183). -/
theorem cat_toInt_le {x : BitVec 16} (h : x.toInt ≠ -32768) (h0 : x.toInt ≠ 0) : cat x.toInt ≤ 15 := by
  have hl := x.le_toInt
  have hu := x.toInt_lt
  obtain ⟨-, hpow, -⟩ := (eq_cat_iff h0).1 rfl
  have hlt : cat x.toInt - 1 < 15 := (Nat.pow_lt_pow_iff_right Nat.one_lt_two).1 (hpow.trans_lt (by omega))
  omega

/-- Past a DC symbol the table has, the AC part ends the layout. -/
theorem cause_blockLayout {s : State} {comp : Comp} {d a : SlotId} (h : (s.enc d (cat (s.diff comp))).isSome) :
    (s.blockLayout comp d a).2 = (acLayout a (s.book a) 1 0 s.acScan).2 := by
  rw [State.blockLayout, cause_symLayout_of_isSome (State.book_isSome h)]
  rfl

/-- The layout from the first nonzero coefficient on: `r` zeros, then `v` (43_block_encoder R183). -/
theorem acLayout_acScan_of_first (s : State) (a : SlotId) {r : Nat} {v : Int} (hr : r < 63)
    (hz : ∀ j, j < r → s.acScan.getD j 0 = 0) (hv : s.acScan.getD r 0 = v) (hv0 : v ≠ 0) :
    acLayout a (s.book a) 1 0 s.acScan =
      zrlLayout a (s.book a) (r / 16)
        (if cat v > 15 then ([], some (.coefRange (r + 1)))
        else symLayout a (s.book a) (16 * (r % 16) + cat v)
          ((acLayout a (s.book a) (r + 2) 0 (s.acScan.drop (r + 1))).after (magnitudeBits v))) := by
  have hlen : r < s.acScan.length := s.length_acScan.symm ▸ hr
  rw [acLayout_of_zeros a _ 1 0 hlen.le hz, List.drop_eq_getElem_cons hlen, ← List.getD_eq_getElem _ 0 hlen, hv, acLayout,
    if_neg hv0]
  simp only [Nat.zero_add, Nat.add_comm 1 r]

/-- Settles O36: on an accepting sink the layout names the end, and it passes over the zeros before the first coefficient. -/
theorem encblkFirstCoefficientFaults : Obligations.EncblkFirstCoefficientFaults := by
  rintro comp dcidx acidx s _ dc rfl hd ha hm haccepts hdc
  have hend := encblkBody_endsBy comp (slotOf .dc dcidx) (slotOf .ac acidx) hm haccepts
  rw [cause_blockLayout (Option.isSome_of_eq_some hdc)] at hend
  refine ⟨_, exec_encblk_of_admitted comp hd ha hm, fun r v hr hz hv hv0 => ?_, fun hz heob => ?_⟩
  · rw [acLayout_acScan_of_first s _ hr hz hv hv0] at hend
    refine ⟨fun h16 hzrl => ?_, fun hzrl => ?_⟩
    · rw [zrlLayout_of_absent (State.book_eq_none hzrl) (by omega)] at hend
      exact hend
    · have hpass (l : Layout) : (zrlLayout (slotOf .ac acidx) (s.book (slotOf .ac acidx)) (r / 16) l).2 = l.2 := by
        obtain hlt | hsome := hzrl
        · rw [Nat.div_eq_of_lt hlt]
          rfl
        · exact cause_zrlLayout_of_isSome (State.book_isSome hsome) _
      rw [hpass] at hend
      refine ⟨fun hmin => ?_, fun hmin hsym => ?_⟩
      · rw [if_pos (by subst hmin; decide)] at hend
        exact hend
      · rw [s.getD_acScan hr] at hv
        have h15 : cat v ≤ 15 := hv ▸ cat_toInt_le (hv ▸ hmin) (hv ▸ hv0)
        rw [if_neg (Nat.not_lt.2 h15), symLayout_of_absent (State.book_eq_none hsym)] at hend
        exact hend
  · rw [acLayout_of_zeros _ _ 1 0 s.length_acScan.ge hz, List.drop_of_length_le s.length_acScan.le, acLayout,
      if_pos (by omega), symLayout_of_absent (sym := eobSymbol) (State.book_eq_none heob)] at hend
    exact hend

/-! ## What an admitted ENCBLK puts on an accepting sink -/

theorem Layout.after_after (a b : List Bool) (l : Layout) : (l.after b).after a = l.after (a ++ b) := by
  rw [Layout.after, Layout.after, Layout.after, List.append_assoc]

/-- Where the ZRL codes have bits they are the layout's. -/
theorem zrlLayout_of_zrlBits (a : SlotId) {ac : CodeBook} {m : Nat} {z : List Bool} (h : zrlBits ac m = some z) (l : Layout) :
    zrlLayout a ac m l = l.after z := by
  induction m generalizing z with
  | zero =>
    cases h
    rfl
  | succ m ih =>
    rw [zrlBits] at h
    split at h
    · next code rest hcode hrest =>
      cases h
      rw [zrlLayout, symLayout_of_present hcode, ih hrest, Layout.after_after]
    · cases h

/-- Where the AC part has bits they are its layout, which names no fault (30_encoding R89). -/
theorem acLayout_of_acBits (a : SlotId) {ac : CodeBook} (k : Nat) {run : Nat} {vs : List Int} {bits : List Bool}
    (h : acBits ac run vs = some bits) : acLayout a ac k run vs = (bits, none) := by
  induction vs generalizing k run bits with
  | nil =>
    rw [acBits] at h
    rw [acLayout]
    split_ifs at h ⊢
    · rw [symLayout_of_present h, Layout.after, List.append_nil]
    · cases h
      rfl
  | cons v vs ih =>
    rw [acBits] at h
    rw [acLayout]
    split_ifs at h ⊢
    · exact ih (k + 1) h
    · split at h
      · next z code rest hz hcode hrest =>
        cases h
        rw [zrlLayout_of_zrlBits a hz, symLayout_of_present hcode, ih (k + 1) hrest, Layout.after_after, Layout.after_after,
          Layout.after, List.append_assoc]
      · cases h

/-- Where a block has bits they are its layout, which names no fault (30_encoding R89). -/
theorem blockLayout_of_blockBits {s : State} {comp : Comp} {d a : SlotId} {bits : List Bool}
    (h : blockBits (s.book d) (s.book a) (s.diff comp) s.acScan = some bits) : s.blockLayout comp d a = (bits, none) := by
  rw [blockBits] at h
  split at h
  · next code rest hcode hrest =>
    cases h
    rw [State.blockLayout, symLayout_of_present hcode, acLayout_of_acBits a 1 hrest, Layout.after_after, Layout.after]
  · cases h

/-- Settles O32: the block's bits are its layout, which an accepting sink lets the body put to its end. -/
theorem encblkEmitsTheBlock : Obligations.EncblkEmitsTheBlock := by
  intro comp dcidx acidx s bits hd ha hdt hat hm hp haccepts hpreds hbits
  have hl := blockLayout_of_blockBits hbits
  have hend := encblkBody_endsBy comp (slotOf .dc dcidx) (slotOf .ac acidx) hm haccepts
  have hputs := encblkBody_putsWhenOk hdt.shortCodes hat.shortCodes (hpreds.cat_diff_le comp) hp
  obtain ⟨t, ht, -⟩ := encblkBody_follows (sizes := False) comp (slotOf .dc dcidx) (slotOf .ac acidx) haccepts
    nofun nofun nofun
  rw [hl] at hend hputs ht
  obtain ⟨-, hemits, htp⟩ := hputs t ht
  obtain ⟨hok, hmode⟩ := hend
  refine ⟨_, exec_encblk_of_admitted comp hd ha hm, hok, hmode, ?_, ?_, pred_encblkBody_close comp _ _ s⟩ <;>
    rw [encblkBody, ht]
  · exact htp
  · exact hemits

/-! ## The all-zero block -/

theorem emitMagnitude_no_bits (v : Int) (s : State) : emitMagnitude v 0 s = .ok s := by
  rw [emitMagnitude, putBits, if_pos rfl]

/-- The AC pass over zeros only is the end-of-block step (43_block_encoder R183, R184). -/
theorem acPass_of_zeros (a : SlotId) {ks : List Nat} (run : Nat) {s : State}
    (hz : ∀ k ∈ ks, s.coefAt (zigzagAt k) = 0) : acPass a ks run s = endOfBlock a (run + ks.length) s := by
  induction ks generalizing run with
  | nil => rfl
  | cons k ks ih =>
    rw [List.forall_mem_cons] at hz
    obtain ⟨hk, hks⟩ := hz
    rw [acPass, hk]
    refine (if_pos rfl).trans ?_
    rw [ih (run + 1) hks, List.length_cons, Nat.add_right_comm, Nat.add_assoc]

/-- The AC pass over a block of zeros is its end-of-block symbol. -/
theorem acPass_of_zero_block (a : SlotId) {s : State} (hz : ∀ i, i < 64 → s.coefAt i = 0) :
    acPass a acPositions 0 s = emitSym a eobSymbol s := by
  rw [acPass_of_zeros a 0 fun k hk => hz _ (zigzagAt_lt ?_), endOfBlock]
  · rfl
  · simp only [acPositions, List.mem_map, List.mem_range] at hk
    omega

/-- A present symbol with a length of at most 16, on an accepting sink: its code's bits enter, and only the packer and the
sink's side change (43_block_encoder R181). -/
theorem emitSym_emits {s : State} {n : SlotId} {sym : Nat} {code : BitVec 16} {length : BitVec 8}
    (he : s.enc n sym = some (code, length)) (h16 : length.toNat ≤ 16) (hp : s.PackerOk) (ha : s.SinkAccepts) :
    ∃ t, emitSym n sym s = .ok t ∧ PackerFrame s t ∧ t.SinkAccepts ∧ t.PackerOk ∧
      Emits s t (msbBits length.toNat code.toNat) := by
  obtain ⟨t, ht, hta⟩ := emitSym_accepts he ha
  obtain ⟨hemits, htp⟩ := emitSym_of_ok he h16 hp ht
  have hframe := (emitSym_part n sym s).frame
  rw [ht] at hframe
  exact ⟨t, ht, hframe, hta, htp, hemits⟩

/-- Settles O33: the difference has category 0 and no magnitude bits, and the AC pass is the end-of-block symbol. -/
theorem encblkOfTheZeroBlock : Obligations.EncblkOfTheZeroBlock := by
  intro comp dcidx acidx s c0 c1 l0 l1 hd ha hm hp haccepts hpred hzero hdc hac h0 h1
  have hdiff : (s.coefAt 0).toInt - (s.pred comp).toInt = 0 := by rw [hzero 0 (by decide), hpred]; rfl
  obtain ⟨t, ht, htf, hta, htp, hemits⟩ :=
    emitSym_emits (s := s.setPred comp ((s.coefAt 0).signExtend 32)) hdc h0 hp haccepts
  obtain ⟨u, hu, huf, -, -, hemits'⟩ := emitSym_emits ((htf.enc _ _).trans hac) h1 htp hta
  have hbody : encblkBody comp (slotOf .dc dcidx) (slotOf .ac acidx) s = .ok u := by
    have hcat : cat 0 = 0 := rfl
    simp only [encblkBody, dcPass, hdiff, hcat]
    rw [ht, Ended.andThen_ok, emitMagnitude_no_bits, Ended.andThen_ok,
      acPass_of_zero_block _ fun i hi => (htf.coefAt i).trans (hzero i hi)]
    exact hu
  refine ⟨u.endOk, ?_, u.endedOk_endOk.of_errstat_eq (htf.trans huf).errstat, hemits.trans hemits'⟩
  rw [exec_encblk_of_admitted comp hd ha hm, hbody]
  rfl

end Sys2Proof.Machine
end

section
/-! Recorded ends and the refused BUILD (spec/60_exceptions.md rules R222 and R230, spec/40_code_builder.md rules R103 and
R106): a command's end writes the error registers only, and the specs BUILD refuses are exactly those not well formed. -/

namespace Sys2Proof.Machine

/-- Settles O8: the end of a command is a fault taken or an OK end, each recorded, and writes the error registers only. -/
theorem faultsAreRecorded : Obligations.FaultsAreRecorded :=
  ⟨fun c s => ⟨_, rfl, s.endedWith_takeFault c, Ended.onlyErrorRegisters_close (.raised c s)⟩,
    fun s => ⟨_, rfl, s.endedOk_endOk, Ended.onlyErrorRegisters_close (.ok s)⟩⟩

/-! ## A spec with a table is well formed -/

/-- Values that pass V4 are small enough (40_code_builder R106). -/
theorem small_of_firstAbove {k : Nat} {vals : List Nat} (h : firstAbove k vals = none) : ∀ v ∈ vals, v ≤ 255 := by
  induction vals generalizing k with
  | nil => exact List.forall_mem_nil _
  | cons v vals ih =>
    rw [firstAbove] at h
    split_ifs at h with hv
    exact List.forall_mem_cons.2 ⟨Nat.not_lt.1 hv, ih h⟩

/-- Values that pass V5 are distinct from each other and from the earlier ones (40_code_builder R106). -/
theorem nodup_of_firstRepeat {k : Nat} {seen vals : List Nat} (hseen : seen.Nodup)
    (h : firstRepeat k seen vals = none) : (vals.reverse ++ seen).Nodup := by
  induction vals generalizing k seen with
  | nil => exact hseen
  | cons v vals ih =>
    rw [firstRepeat] at h
    split_ifs at h with hv
    rw [List.reverse_cons, List.append_assoc, List.singleton_append]
    exact ih (List.nodup_cons.2 ⟨by simpa using hv, hseen⟩) h

/-- BUILD's checks together are the conditions on a well-formed spec (40_code_builder R103, R106). -/
theorem specOk_of_buildTable {n : Nat} {counts vals : List Nat} {t : CodeTable} (hlen : counts.length = 16)
    (h : buildTable n counts vals = .ok t) : SpecOk n counts vals := by
  obtain ⟨hn, hsum, -, hcodes, hsmall, hrepeat⟩ := buildTable_ok h
  exact {
    few := hn
    sum := hsum
    fits := fun L h1 h16 => fits_of_canonical hcodes L h1 (hlen.symm ▸ h16)
    small := small_of_firstAbove hsmall
    distinct := by simpa using nodup_of_firstRepeat List.nodup_nil hrepeat }

/-! ## A refused BUILD -/

/-- After a BUILD that was refused no element of the table is specified (40_code_builder R103; Log 3). -/
theorem cell_buildSlot_of_error {s : State} {n : SlotId} {d : SpecDefect}
    (h : buildTable (s.nvalAt n).toNat (s.counts n) (s.symbols n (s.nvalAt n).toNat) = .error d) {e : Element}
    (he : e.inTbl n = true) : (buildSlot s n).close.cell e = none := by
  obtain ⟨hslot, -⟩ := buildSlot_close_eq h
  cases e with
  | code m k =>
    obtain rfl : m = n := of_decide_eq_true he
    rw [State.cell, hslot]
    rfl
  | len m k =>
    obtain rfl : m = n := of_decide_eq_true he
    rw [State.cell, hslot]
    rfl
  | _ => cases he

/-- Settles O15: a spec that is not well formed has no table, so BUILD ends with the defect and an unbuilt slot. -/
theorem failedBuildLeavesSlotUnusable : Obligations.FailedBuildLeavesSlotUnusable := by
  intro cls idx s hnot
  refine ⟨(buildSlot s (slotOf cls idx)).close, exec_eq_finish (.build cls idx) s, ?_⟩
  generalize slotOf cls idx = n at hnot ⊢
  cases hb : buildTable (s.nvalAt n).toNat (s.counts n) (s.symbols n (s.nvalAt n).toNat) with
  | ok t => exact absurd (specOk_of_buildTable (s.length_counts n) hb) hnot
  | error d =>
    obtain ⟨hslot, -⟩ := buildSlot_close_eq hb
    exact ⟨⟨d, endedWith_buildSlot hb⟩, by rw [hslot]; rfl, by rw [hslot]; rfl, fun e => cell_buildSlot_of_error hb⟩

end Sys2Proof.Machine
end

section
/-! BUILD and then BLDLUT make a slot ready, and a hardware reset that cuts a command short keeps the first of its bytes
(spec/70_reset_and_hazards.md rules R260 and R262, spec/10_state.md rules R34, R35 and R41). -/

namespace Sys2Proof.Machine

/-! ## BUILD and then BLDLUT -/

theorem SameSpec.symm {s t : State} {n : SlotId} (h : SameSpec s t n) : SameSpec t s n :=
  ⟨h.bits.symm, h.nval.symm, h.val.symm⟩

/-- After a BUILD that ended OK the slot is built and meets the clauses of the invariant, whatever it held before; its spec
is as it was (10_state R34, 40_code_builder R103). -/
theorem buildSlot_close_built {s : State} {n : SlotId} {c : CodeTable}
    (h : buildTable (s.nvalAt n).toNat (s.counts n) (s.symbols n (s.nvalAt n).toNat) = .ok c) :
    ((buildSlot s n).close.slot n).built = true ∧ (buildSlot s n).close.SlotInv n ∧
      SameSpec s (buildSlot s n).close n := by
  obtain ⟨hslot, -⟩ := buildSlot_close_eq h
  refine ⟨by rw [hslot]; rfl, ?_, by constructor <;> rw [hslot] <;> rfl⟩
  refine (slotInv_putTable_setBuilt h).congr ?_
  rw [Ended.slot_close, buildSlot_of_ok h, Ended.state_ok]

/-- After a BLDLUT of a built slot `lutv` is set and the clauses of the invariant are kept; the slot's spec is as it was
(10_state R35, 41_decoder_lookup R130). -/
theorem buildLut_close_looked {s : State} {n : SlotId} (hb : (s.slot n).built = true) (h : s.SlotInv n) :
    ((buildLut s n).close.slot n).lutv = true ∧ (buildLut s n).close.SlotInv n ∧
      SameSpec s (buildLut s n).close n := by
  have hclose : (buildLut s n).close.slot n = (buildLut s n).state.slot n := Ended.slot_close _ n
  rw [buildLut_of_built hb, Ended.state_ok] at hclose
  have hslot := hclose.trans ((slot_putLut_setLutv s n n _).trans (if_pos rfl))
  rw [buildLut_of_built hb]
  exact ⟨by rw [hslot], (h.putLut_setLutv hb).congr hclose, by constructor <;> rw [hslot]⟩

/-- Settles O22: BUILD makes the held spec's table, BLDLUT that table's lookup, and neither touches the spec, so that the
invariant's clause about a slot with `lutv` says the slot is ready. -/
theorem buildThenBldlutMakesTheSlotReady : Obligations.BuildThenBldlutMakesTheSlotReady := by
  rintro cls idx s n rfl hheld hok
  refine ⟨_, _, exec_eq_finish (.build cls idx) s, exec_eq_finish (.bldlut cls idx) _, ?_⟩
  rw [commandPart, commandPart]
  generalize slotOf cls idx = n at hheld hok ⊢
  obtain ⟨c, hc⟩ := buildTable_of_specOk (s.length_counts n) hok
  obtain ⟨hbuilt, hinv, hspec⟩ := buildSlot_close_built hc
  obtain ⟨hlutv, hinv', hspec'⟩ := buildLut_close_looked hbuilt hinv
  have hheld' := hspec'.symm.specHeld (hspec.symm.specHeld hheld)
  exact ⟨hinv'.looked hlutv hheld', hlutv⟩

/-! ## Hardware reset in the middle of a command -/

/-- A command word, legal or not, only adds bytes to the stream (20_memory R57, R59). -/
theorem runCommand_stream_prefix {w : Word} {s t : State} (h : runCommand w s = .next t) : s.stream <+: t.stream := by
  cases hd : decode w with
  | ok i =>
    rw [runCommand_of_decode hd, exec_eq_finish] at h
    cases h
    rw [Ended.stream_close]
    exact commandPart_stream_prefix i s
  | error e =>
    rw [runCommand, hd] at h
    cases h
    exact List.prefix_rfl

/-- A command writes to the sink exactly its bytes. -/
theorem runCommand_stream {w : Word} {s t : State} (h : runCommand w s = .next t) :
    t.stream = s.stream ++ commandBytes w s := by
  have hbytes : commandBytes w s = t.stream.drop s.stream.length := by rw [commandBytes, h]
  rw [hbytes]
  exact (List.prefix_iff_eq_append.1 (runCommand_stream_prefix h)).symm

/-- What the stream holds after a hardware reset in the middle of a command (70_reset R260). -/
theorem stream_abandonCommand_hardwareReset (s : State) (w : Word) (taken : Nat) :
    (s.abandonCommand w taken).hardwareReset.stream = s.stream ++ (commandBytes w s).take taken := rfl

/-- Settles O52: the command's bytes split where the reset cuts them, and the state left is hardware reset's. -/
theorem resetDuringACommandKeepsAPrefix : Obligations.ResetDuringACommandKeepsAPrefix := by
  intro s w taken rest hh
  obtain ⟨u, hu⟩ := runCommand_next w { s with host := rest }
  refine ⟨_, u, step_of_host_cons hh, hu, ?_, cell_hardwareReset _, fun n => by simp [Slot.reset],
    State.pred_hardwareReset _, rfl, rfl, rfl, rfl, rfl⟩
  refine ⟨_, (commandBytes w { s with host := rest }).drop taken,
    stream_abandonCommand_hardwareReset { s with host := rest } w taken, ?_, List.length_take_le _ _⟩
  rw [runCommand_stream hu, stream_abandonCommand_hardwareReset, List.append_assoc, List.take_append_drop]

end Sys2Proof.Machine
end
